-- ==== Sys2Proof/Word.lean ====
section
/-! DEFINITION. The element types of the converter (`00_scope.md` R9, `10_state.md` R14 to R19): bytes and 4-bit digits. -/

namespace Sys2Proof

/-- An 8-bit element of IN, W, S or TXT, and the command word (`00_scope.md` R7, R9; `30_encoding.md` R60). -/
abbrev Byte := BitVec 8

/-- A 4-bit element of ACC or DIG (`10_state.md` R17, R18): one digit, unpacked (`30_encoding.md` R70). -/
abbrev Nibble := BitVec 4

end Sys2Proof
end

