-- ==== Sys2Proof/Syntax.lean ====
section
/-! DEFINITION. The twelve commands of `30_encoding.md` R62 and the enumerations their fields carry (R63 to R66). -/

namespace Sys2Proof

/-- How the significance of an input byte sequence is ordered (`00_scope.md` R12, `30_encoding.md` R65). -/
inductive ByteOrder
  | bigEndian
  | littleEndian
deriving DecidableEq, Repr, Inhabited

/-- The input kinds of `30_encoding.md` R66; `other` is code 3, an input of no recognised kind. -/
inductive InputKind
  | buffer
  | array
  | hexstr
  | other
deriving DecidableEq, Repr, Inhabited

/-- The four radices of `30_encoding.md` R64. -/
inductive Radix
  | dec
  | hex
  | oct
  | bin
deriving DecidableEq, Repr, Inhabited

/-- One constructor per row of the opcode table (`30_encoding.md` R62). The arguments are the field bits the row passes to
the command: `ordv` says whether an order is declared, `ord` is the declared order (ignored when `ordv` is false, R61),
`kind` the input kind. Fields a command does not use are not decoded (R67; log 12). -/
inductive Instr
  | normB (ordv : Bool) (ord : ByteOrder) (kind : InputKind)
  | normX
  | normK3
  | convDec
  | convHex
  | convOct
  | convBin
  | rend
  | fmtDec (ordv : Bool) (ord : ByteOrder) (kind : InputKind)
  | fmtHex (ordv : Bool) (ord : ByteOrder) (kind : InputKind)
  | fmtOct (ordv : Bool) (ord : ByteOrder) (kind : InputKind)
  | fmtBin (ordv : Bool) (ord : ByteOrder) (kind : InputKind)
deriving DecidableEq, Repr, Inhabited

end Sys2Proof
end

