-- ==== Sys2Proof/WellFormed.lean ====
section
/-! DEFINITION. Which terms of `Instr` are commands of `30_encoding.md` R62. -/

namespace Sys2Proof

/-- The byte-container kinds (`30_encoding.md` R66 codes 0 and 1), the only ones the row NORM.B has an encoding for. -/
def InputKind.isBytes : InputKind → Bool
  | .buffer => true
  | .array => true
  | .hexstr => false
  | .other => false

/-- NORM.B carries a byte kind: its row fixes KIND bit 1 to 0 (`30_encoding.md` R62, mask `0x23`). Every other term is the
meaning of some command word. -/
def Instr.wellFormed : Instr → Bool
  | .normB _ _ kind => kind.isBytes
  | .normX => true
  | .normK3 => true
  | .convDec => true
  | .convHex => true
  | .convOct => true
  | .convBin => true
  | .rend => true
  | .fmtDec _ _ _ => true
  | .fmtHex _ _ _ => true
  | .fmtOct _ _ _ => true
  | .fmtBin _ _ _ => true

end Sys2Proof
end

