-- ==== Sys2Proof/Decode.lean ====
section
/-! DEFINITION. The command word (`30_encoding.md` R60 to R72): its fields, the decoder, the encoder and the opcode table's rows. -/

namespace Sys2Proof

/-! ### The fields of format C8 (R61) -/

/-- `OP`, bits 1:0. -/
def opField (w : Byte) : BitVec 2 := w.extractLsb' 0 2
/-- `RADIX`, bits 3:2. -/
def radixField (w : Byte) : BitVec 2 := w.extractLsb' 2 2
/-- `KIND`, bits 5:4. -/
def kindField (w : Byte) : BitVec 2 := w.extractLsb' 4 2
/-- `ORD`, bit 6. -/
def ordField (w : Byte) : Bool := w.getLsbD 6
/-- `ORDV`, bit 7. -/
def ordvField (w : Byte) : Bool := w.getLsbD 7

/-! ### The codes of the enumerations (R64, R65, R66) -/

/-- ByteOrder codes (R65): 0 BigEndian, 1 LittleEndian. -/
def ByteOrder.code : ByteOrder → Bool
  | .bigEndian => false
  | .littleEndian => true

/-- R65 read back. -/
def ByteOrder.ofCode : Bool → ByteOrder
  | false => .bigEndian
  | true => .littleEndian

/-- KIND codes (R66). -/
def InputKind.code : InputKind → BitVec 2
  | .buffer => 0
  | .array => 1
  | .hexstr => 2
  | .other => 3

/-- R66 read back. -/
def InputKind.ofCode (c : BitVec 2) : InputKind :=
  if c = 0 then .buffer else if c = 1 then .array else if c = 2 then .hexstr else .other

/-- RADIX codes (R64), also the values of DIG_RADIX. -/
def Radix.code : Radix → BitVec 2
  | .dec => 0
  | .hex => 1
  | .oct => 2
  | .bin => 3

/-- R64 read back. -/
def Radix.ofCode (c : BitVec 2) : Radix :=
  if c = 0 then .dec else if c = 1 then .hex else if c = 2 then .oct else .bin

/-- `radixOf` (R64): 10, 16, 8, 2. -/
def Radix.base : Radix → Nat
  | .dec => 10
  | .hex => 16
  | .oct => 8
  | .bin => 2

/-! ### Decoding (R72) -/

/-- Decode of a latched word (R72). Total: none of the 256 words is illegal or reserved (R71). -/
def decodeWord (w : Byte) : Instr :=
  let ordv := ordvField w
  let ord := ByteOrder.ofCode (ordField w)
  let kind := InputKind.ofCode (kindField w)
  if opField w = 0 then
    match kind with
    | .buffer => .normB ordv ord .buffer
    | .array => .normB ordv ord .array
    | .hexstr => .normX
    | .other => .normK3
  else if opField w = 1 then
    match Radix.ofCode (radixField w) with
    | .dec => .convDec
    | .hex => .convHex
    | .oct => .convOct
    | .bin => .convBin
  else if opField w = 2 then .rend
  else
    match Radix.ofCode (radixField w) with
    | .dec => .fmtDec ordv ord kind
    | .hex => .fmtHex ordv ord kind
    | .oct => .fmtOct ordv ord kind
    | .bin => .fmtBin ordv ord kind

/-- Why a byte sequence is no command: a command is exactly one 8-bit word (R60). -/
inductive DecodeError
  /-- There is no byte. -/
  | noCommandWord
  /-- There is more than one byte. -/
  | longerThanOneWord
deriving DecidableEq, Repr

/-- The decoder on any byte sequence: one byte is a command word, anything else is rejected by name (R60). -/
def decodeBytes : List Byte → Except DecodeError Instr
  | [] => .error .noCommandWord
  | [w] => .ok (decodeWord w)
  | _ :: _ :: _ => .error .longerThanOneWord

/-- The decoder on a word numbered as the opcode table numbers it: 8 bits, nothing above them. -/
def decodeTableWord (nbits w : Nat) : Option Instr :=
  if nbits = 8 ∧ w < 256 then some (decodeWord (BitVec.ofNat 8 w)) else none

/-! ### Encoding (R75: `word = ORDV<<7 | ORD<<6 | KIND<<4 | RADIX<<2 | OP`, ignored fields 0) -/

/-- A command word from its five fields, most significant first (R61). -/
def packWord (ordv : Bool) (ord : Bool) (kind radix op : BitVec 2) : Byte :=
  BitVec.ofBool ordv ++ BitVec.ofBool ord ++ kind ++ radix ++ op

/-- The word an assembler writes for a command (R62, R75); every ignored field is 0 (R67). -/
def encode : Instr → Byte
  | .normB ordv ord kind => packWord ordv ord.code kind.code 0 0
  | .normX => packWord false false InputKind.hexstr.code 0 0
  | .normK3 => packWord false false InputKind.other.code 0 0
  | .convDec => packWord false false 0 Radix.dec.code 1
  | .convHex => packWord false false 0 Radix.hex.code 1
  | .convOct => packWord false false 0 Radix.oct.code 1
  | .convBin => packWord false false 0 Radix.bin.code 1
  | .rend => packWord false false 0 0 2
  | .fmtDec ordv ord kind => packWord ordv ord.code kind.code Radix.dec.code 3
  | .fmtHex ordv ord kind => packWord ordv ord.code kind.code Radix.hex.code 3
  | .fmtOct ordv ord kind => packWord ordv ord.code kind.code Radix.oct.code 3
  | .fmtBin ordv ord kind => packWord ordv ord.code kind.code Radix.bin.code 3

/-! ### The rows of the opcode table (R62) -/

/-- The row a command belongs to, by its mnemonic in `opcode_table.json`. -/
def Instr.mnemonic : Instr → String
  | .normB _ _ _ => "NORM.B"
  | .normX => "NORM.X"
  | .normK3 => "NORM.K3"
  | .convDec => "CONV.DEC"
  | .convHex => "CONV.HEX"
  | .convOct => "CONV.OCT"
  | .convBin => "CONV.BIN"
  | .rend => "REND"
  | .fmtDec _ _ _ => "FMT.DEC"
  | .fmtHex _ _ _ => "FMT.HEX"
  | .fmtOct _ _ _ => "FMT.OCT"
  | .fmtBin _ _ _ => "FMT.BIN"

/-- The fixed bits of a command's row (R62, column match). -/
def Instr.rowMatch : Instr → Byte
  | .normB _ _ _ => 0x00
  | .normX => 0x20
  | .normK3 => 0x30
  | .convDec => 0x01
  | .convHex => 0x05
  | .convOct => 0x09
  | .convBin => 0x0D
  | .rend => 0x02
  | .fmtDec _ _ _ => 0x03
  | .fmtHex _ _ _ => 0x07
  | .fmtOct _ _ _ => 0x0B
  | .fmtBin _ _ _ => 0x0F

/-- Which bits a command's row fixes (R62, column mask). -/
def Instr.rowMask : Instr → Byte
  | .normB _ _ _ => 0x23
  | .normX => 0x33
  | .normK3 => 0x33
  | .convDec => 0x0F
  | .convHex => 0x0F
  | .convOct => 0x0F
  | .convBin => 0x0F
  | .rend => 0x03
  | .fmtDec _ _ _ => 0x0F
  | .fmtHex _ _ _ => 0x0F
  | .fmtOct _ _ _ => 0x0F
  | .fmtBin _ _ _ => 0x0F

/-- The field bits a command uses beside its row's fixed bits: `v`, `o`, `k` in R62's encoding column. -/
def Instr.passedMask : Instr → Byte
  | .normB _ _ _ => 0xD0
  | .normX => 0
  | .normK3 => 0
  | .convDec => 0
  | .convHex => 0
  | .convOct => 0
  | .convBin => 0
  | .rend => 0
  | .fmtDec _ _ _ => 0xF0
  | .fmtHex _ _ _ => 0xF0
  | .fmtOct _ _ _ => 0xF0
  | .fmtBin _ _ _ => 0xF0

/-- One row of the opcode table (R62). -/
structure OpcodeRow where
  mnemonic : String
  rowMatch : Byte
  rowMask : Byte
deriving DecidableEq, Repr

/-- The opcode table (R62), in its order. -/
def opcodeTable : List OpcodeRow :=
  [ ⟨"NORM.B", 0x00, 0x23⟩, ⟨"NORM.X", 0x20, 0x33⟩, ⟨"NORM.K3", 0x30, 0x33⟩,
    ⟨"CONV.DEC", 0x01, 0x0F⟩, ⟨"CONV.HEX", 0x05, 0x0F⟩, ⟨"CONV.OCT", 0x09, 0x0F⟩, ⟨"CONV.BIN", 0x0D, 0x0F⟩,
    ⟨"REND", 0x02, 0x03⟩,
    ⟨"FMT.DEC", 0x03, 0x0F⟩, ⟨"FMT.HEX", 0x07, 0x0F⟩, ⟨"FMT.OCT", 0x0B, 0x0F⟩, ⟨"FMT.BIN", 0x0F, 0x0F⟩ ]

/-- A word selects a row with `w & mask = match` (R62). -/
def OpcodeRow.selects (r : OpcodeRow) (w : Byte) : Bool := w &&& r.rowMask = r.rowMatch

end Sys2Proof
end

