-- ==== Sys2Proof/Config.lean ====
section
/-! DEFINITION. What an implementation fixes (`00_scope.md` R6) and the free values (`93_implementation_defined.md` U7, U8). The
parameters below are only the straps of `Machine.State.reset`; the machine reads them from its state, so that every statement
holds for every value of them. -/

namespace Sys2Proof.Config

/-- DESIGN CHOICE (log 1, unsafe): LMAX is OPEN (`00_scope.md` R6, `92_eei_decisions.md` D2). 16 is the least value that runs
every worked scenario, and the one the spec's vectors use. -/
def lmax : Nat := 16

/-- DESIGN CHOICE (log 2, unsafe): DEFAULT_ORDER is OPEN (`00_scope.md` R6, `92_eei_decisions.md` D3). -/
def defaultOrder : ByteOrder := .bigEndian

/-- BIN_FIXED_WIDTH is `false` for this hardware (`00_scope.md` R6, `43_renderer.md` R154). -/
def binFixedWidth : Bool := false

/-- The free values: what an unspecified element or an unspecified host read is (`10_state.md` R20, `20_memory.md` R45; log 3).
No body: `width` bits for the element or register, `draw` the number of the draw, `index` the element. -/
opaque freeBits (width draw index : Nat) : BitVec width

end Sys2Proof.Config
end

