-- ==== Sys2Proof/Machine/State.lean ====
section
/-! DEFINITION. The converter's state (`10_state.md` R13 to R32) as plain data, and the state after reset. -/

namespace Sys2Proof.Machine

/-- What the engine does next (`10_state.md` R22). -/
inductive Phase
  | idle
  | norm
  | conv
  | dd
  | rend
deriving DecidableEq, Repr

/-- The errors of `60_exceptions.md` R180, by name. -/
inductive Err
  | invalidInputKind
  | emptyInput
  | capacity
deriving DecidableEq, Repr

/-- The register STATUS by its fields (`10_state.md` R26); `err` is absent when ERR holds code 0. The codes 4 to 7 are never
produced (R180), so no value stands for them. -/
structure Status where
  busy : Bool
  done : Bool
  err : Option Err
deriving DecidableEq, Repr

/-- The register CFG by its fields, two straps (`10_state.md` R28). -/
structure Cfg where
  dord : ByteOrder
  bfw : Bool
deriving DecidableEq, Repr

/-- The three result buffers a host reads back with GETW, GETD, GETT (`30_encoding.md` R76). -/
inductive ResultBuf
  | w
  | dig
  | txt
deriving DecidableEq, Repr

/-- One action of the world outside the block (log 7): a host port access of `20_memory.md` R43, R44, a pseudo-operation of
`30_encoding.md` R76, the reset input of `70_reset_and_hazards.md` R200, an access of a second host (`20_memory.md` R41), or the
host doing nothing while the engine takes one step. -/
inductive HostAct
  | read (space : BitVec 3) (index : Nat)
  | write (space : BitVec 3) (index value : Nat)
  | wait
  | get (buf : ResultBuf)
  | reset
  | otherHost
  | engine
deriving DecidableEq, Repr

/-- A sparse list of (index, byte) pairs, indices strictly rising: the buffer IN (`10_state.md` R14; log 4). -/
abbrev Memory := List Host.Cell

/-- Why the machine stops. The block itself has no faults (`60_exceptions.md` R193). -/
inductive Fault
  /-- Raised by every command's meaning when PHASE names a phase that command never enters. Safe: no run reaches such a state
  and the spec gives it no step (`10_state.md` R23, `20_memory.md` R46; log 9). -/
  | phaseNotOfCommand
deriving DecidableEq, Repr

/-- Why the model gives a situation no meaning. -/
inductive Refusal
  /-- Raised by an arm of `exec` whose instruction has no meaning yet. Safe: nothing runs. No arm raises it. -/
  | notModelled (mnemonic : String)
  /-- Raised by an access of a second host. Safe: the spec says a model must refuse it (`20_memory.md` R41; log 10). -/
  | secondHost
deriving DecidableEq, Repr

/-- The state: the tuple of `10_state.md` R13, then the model's own three fields. Lengths and counts are numbers; their widths are
kept by the operations that write them (`Machine.State.Inv`). A buffer's list holds the elements the buffer is known to hold,
from index 0; an element past the list is unspecified (R20; log 5). -/
structure State where
  /-- CMD, the last accepted command word (R27). -/
  cmd : Byte
  /-- STATUS (R26). -/
  status : Status
  /-- CFG, straps (R28). -/
  cfg : Cfg
  /-- LMAXR, a strap (R25). -/
  lmaxr : Nat
  /-- IN_LEN (R25). -/
  inLen : Nat
  /-- W_LEN (R25). -/
  wLen : Nat
  /-- DIG_LEN (R25). -/
  digLen : Nat
  /-- TXT_LEN (R25). -/
  txtLen : Nat
  /-- DIG_RADIX (R25). -/
  digRadix : Radix
  /-- IN (R14). -/
  inBuf : Memory
  /-- W, index 0 least significant (R15). -/
  wBuf : List Byte
  /-- DIG, index 0 most significant (R18). -/
  digBuf : List Nibble
  /-- TXT, index 0 the first character (R19). -/
  txtBuf : List Byte
  /-- S, the hidden shift register (R16). -/
  sBuf : List Byte
  /-- ACC, the hidden decimal accumulator, index 0 most significant (R17). -/
  accBuf : List Nibble
  /-- C, the hidden decimal carry (R24). -/
  carry : Bool
  /-- IT, the hidden iteration counter (R22). -/
  it : Nat
  /-- PHASE (R22). -/
  phase : Phase
  /-- The model's own: the pending actions of the host, oldest first (log 7). -/
  script : List HostAct
  /-- The model's own: the values the host's reads have returned, oldest first (log 7). -/
  seen : List Nat
  /-- The model's own: the number of the next draw of free values (log 3). -/
  draws : Nat
deriving DecidableEq, Repr

/-- The state after reset for given straps (`10_state.md` R32, `70_reset_and_hazards.md` R200). The buffers hold no element: every
element is unspecified. The host's list, the values seen and the draw counter are the model's own (DESIGN CHOICE, log 3, 7). -/
def State.resetWith (cfg : Cfg) (lmaxr : Nat) : State where
  cmd := 0
  status := ⟨false, false, none⟩
  cfg := cfg
  lmaxr := lmaxr
  inLen := 0
  wLen := 0
  digLen := 0
  txtLen := 0
  digRadix := .dec
  inBuf := []
  wBuf := []
  digBuf := []
  txtBuf := []
  sBuf := []
  accBuf := []
  carry := false
  it := 0
  phase := .idle
  script := []
  seen := []
  draws := 0

/-- The machine right after reset, with the straps of `Config` (log 1, 2). -/
def State.reset : State := State.resetWith ⟨Config.defaultOrder, Config.binFixedWidth⟩ Config.lmax

end Sys2Proof.Machine
end

