-- ==== Sys2Proof/Machine/Ops.lean ====
section
/-! DEFINITION. The shared operations over the buffers and registers: sizes, the sparse buffer IN, elements in use, the start and the
end of a command, the error entry, the clearing of stages, reset. -/

namespace Sys2Proof.Machine

/-- What one engine step answers. -/
abbrev Result := Host.Outcome State Fault Refusal

/-- The host's pending actions are `acts` (log 7). -/
def State.withScript (acts : List HostAct) (s : State) : State := { s with script := acts }

/-! ### Sizes (`00_scope.md` R6) -/

/-- `IN_MAX = 2·LMAX + 2`. -/
def inMax (lmax : Nat) : Nat := 2 * lmax + 2

/-- `CAP(L) = floor(8·L/3) + 2` (`41_decimal_double_dabble.md` R102); `CAPMAX` is `cap LMAX`. -/
def cap (len : Nat) : Nat := 8 * len / 3 + 2

/-- `DIG_MAX = 8·LMAX`. -/
def digMax (lmax : Nat) : Nat := 8 * lmax

/-- `TXT_MAX = 8·LMAX`. -/
def txtMax (lmax : Nat) : Nat := 8 * lmax

/-- `LENW = max(8, ceil(log2(8·LMAX + 1)))`; the logarithm is the number of bits of `8·LMAX`. -/
def lenw (lmax : Nat) : Nat := max 8 (Nat.log2 (8 * lmax) + 1)

/-! ### The sparse buffer IN (`10_state.md` R14) -/

/-- The canonical form: indices strictly rising, so that equal buffers are equal lists. -/
abbrev Memory.wf (m : Memory) : Prop := m.Pairwise (fun x y => x.1 < y.1)

/-- The byte the host last wrote at an index, if it wrote one. -/
def Memory.read? : Memory → Nat → Option Byte
  | [], _ => none
  | (k, v) :: m, a => if k = a then some v else Memory.read? m a

/-- Write one element, in place in the rising order. -/
def Memory.write : Memory → Nat → Byte → Memory
  | [], a, b => [(a, b)]
  | (k, v) :: m, a, b =>
    if a < k then (a, b) :: (k, v) :: m
    else if a = k then (a, b) :: m
    else (k, v) :: Memory.write m a b

/-! ### Elements in use, unspecified ones drawn (`10_state.md` R20) -/

/-- The first `n` elements of a buffer; a free value stands for each one the buffer does not hold (log 3, 5). -/
def elems {k : Nat} (buf : List (BitVec k)) (n draw : Nat) : List (BitVec k) :=
  buf.take n ++ (List.range (n - buf.length)).map (fun j => Config.freeBits k draw (buf.length + j))

/-- `IN[i]` as the engine reads it; a free value stands for an element nothing has written since reset (R20; log 3, 4). -/
def State.inByte (s : State) (i : Nat) : Byte := (s.inBuf.read? i).getD (Config.freeBits 8 s.draws i)

/-- `IN[0 .. n-1]` (`10_state.md` R14). -/
def State.inBytes (s : State) (n : Nat) : List Byte := (List.range n).map s.inByte

/-- `W[0 .. W_LEN-1]` (`10_state.md` R15). -/
def State.wBytes (s : State) : List Byte := elems s.wBuf s.wLen s.draws

/-- `DIG[0 .. DIG_LEN-1]` (`10_state.md` R18). -/
def State.digits (s : State) : List Nibble := elems s.digBuf s.digLen s.draws

/-- `TXT[0 .. TXT_LEN-1]` (`10_state.md` R19). -/
def State.text (s : State) : List Byte := elems s.txtBuf s.txtLen s.draws

/-- The elements of S in use (`10_state.md` R16). -/
def State.sBytes (s : State) : List Byte := elems s.sBuf s.wLen s.draws

/-- The slots of ACC in use, `CAP(W_LEN)` of them (`10_state.md` R17). -/
def State.accSlots (s : State) : List Nibble := elems s.accBuf (cap s.wLen) s.draws

/-! ### The end of a command (`10_state.md` R23, `60_exceptions.md` R184) -/

/-- `finish` (R23). -/
def finish (s : State) : State :=
  { s with phase := .idle, status := { s.status with busy := false, done := true } }

/-- `raise E` (R184), the one error entry: the code is recorded and the command ends. Nothing is saved (R185). The elements of W are
unspecified after it, so they are drawn anew; of DIG and TXT none is in use then, their lengths being 0 (log 3, 5). -/
def raiseError (e : Err) (s : State) : State :=
  { s with
    phase := .idle, status := ⟨false, true, some e⟩,
    wBuf := elems [] s.wLen s.draws, draws := s.draws + 1 }

/-- `next(p)` (R23): an FMT command goes on to phase `p`, any other command finishes. -/
def proceed (fmt : Bool) (p : Phase) (s : State) : State :=
  if fmt then { s with phase := p } else finish s

/-! ### The start of a command, which also clears an error (`20_memory.md` R46, `60_exceptions.md` R189) -/

/-- The phase an accepted command starts in, by its OP field (R46). -/
def startPhase (w : Byte) : Phase :=
  if opField w = 1 then .conv else if opField w = 2 then .rend else .norm

/-- An accepted CMD write (R46). -/
def acceptCommand (w : Byte) (s : State) : State :=
  { s with cmd := w, status := ⟨true, false, none⟩, phase := startPhase w }

/-! ### What a phase clears first -/

/-- The first action of the NORM phase (`40_normalizer.md` R80, R81): all three stage results are gone. The phase reads IN under the
draw number it finds, and advances the counter once (log 3). -/
def beginNorm (s : State) : State :=
  { s with wLen := 0, wBuf := [], digLen := 0, digBuf := [], txtLen := 0, txtBuf := [], draws := s.draws + 1 }

/-- The first action of the CONV phase (`41_decimal_double_dabble.md` R101, `42_radix_pow2.md` R130). -/
def beginConv (s : State) : State :=
  { s with digLen := 0, digBuf := [], txtLen := 0, txtBuf := [] }

/-- The first action of the REND phase (`43_renderer.md` R150). -/
def beginRend (s : State) : State :=
  { s with txtLen := 0, txtBuf := [] }

/-! ### Results of the stages -/

/-- The NORM phase's result: `W` and `W_LEN` (`40_normalizer.md` R80). -/
def loadW (bytes : List Byte) (s : State) : State :=
  { s with wBuf := bytes, wLen := bytes.length }

/-- The CONV phase's result: `DIG`, `DIG_LEN`, `DIG_RADIX` (`10_state.md` R18). -/
def loadDigits (radix : Radix) (ds : List Nibble) (s : State) : State :=
  { s with digBuf := ds, digLen := ds.length, digRadix := radix }

/-- The REND phase's result: `TXT` and `TXT_LEN` (`10_state.md` R19). -/
def loadText (cs : List Byte) (s : State) : State :=
  { s with txtBuf := cs, txtLen := cs.length }

/-! ### Reset (`70_reset_and_hazards.md` R200, R201) -/

/-- Reset of the block at any time, also while BUSY. The straps stay; what is not the block's (the host's pending actions, what it has
seen, the draw counter) stays too (log 7). -/
def applyReset (s : State) : State :=
  { State.resetWith s.cfg s.lmaxr with script := s.script, seen := s.seen, draws := s.draws }

end Sys2Proof.Machine
end

