-- ==== Sys2Proof/Machine/Flags.lean ====
section
/-! DEFINITION. The one flag, the decimal carry C (`10_state.md` R24), with the digit update that computes it; and the register words of STATUS
and CFG (`10_state.md` R26, R28). -/

namespace Sys2Proof.Machine

/-! ### The carry C -/

/-- Step 2a (`41_decimal_double_dabble.md` R104): bit 7 of the highest byte in use. With no byte in use there is no bit (no iteration
runs then). -/
def topBit (s : List Byte) : Bool :=
  match s.getLast? with
  | some b => b.getLsbD 7
  | none => false

/-- One slot of step 2c (`41_decimal_double_dabble.md` R106): `t = 2·d + c`; above 9, subtract 10 and carry. -/
def doubleSlot (d : Nibble) (c : Bool) : Nibble × Bool :=
  let t := 2 * d.toNat + c.toNat
  if t > 9 then (BitVec.ofNat 4 (t - 10), true) else (BitVec.ofNat 4 t, false)

/-- Step 2c over all slots, from the least significant (last) to the most significant (first) (R106). The second component is the
carry left in C. -/
def doubleSlots : List Nibble → Bool → List Nibble × Bool
  | [], c => ([], c)
  | d :: ds, c =>
    let low := doubleSlots ds c
    let slot := doubleSlot d low.2
    (slot.1 :: low.1, slot.2)

/-! ### Register words -/

/-- ERR codes (`60_exceptions.md` R180). -/
def errCode : Option Err → BitVec 3
  | none => 0
  | some .invalidInputKind => 1
  | some .emptyInput => 2
  | some .capacity => 3

/-- The word a read of STATUS returns (`10_state.md` R26): ERR in 4:2, DONE in 1, BUSY in 0. -/
def statusWord (st : Status) : BitVec 5 :=
  errCode st.err ++ BitVec.ofBool st.done ++ BitVec.ofBool st.busy

/-- The word a read of CFG returns (`10_state.md` R28): BFW in 1, DORD in 0. -/
def cfgWord (c : Cfg) : BitVec 2 :=
  BitVec.ofBool c.bfw ++ BitVec.ofBool c.dord.code

end Sys2Proof.Machine
end

