-- ==== Sys2Proof/Machine/DoubleDabble.lean ====
section
/-! DEFINITION. Unit DD (`41_decimal_double_dabble.md`): the decimal conversion by engine steps and the command CONV.DEC; beside it the two
equivalent forms of one digit update that R112 and R115 describe. -/

namespace Sys2Proof.Machine

/-- Step 2b (R105): shift the byte string left by one bit, index 0 least significant; `cin` enters at the bottom of the lowest byte. -/
def shiftLeftFrom (cin : Bool) : List Byte → List Byte
  | [] => []
  | b :: bs => ((b <<< 1) ||| BitVec.zeroExtend 8 (BitVec.ofBool cin)) :: shiftLeftFrom (b.getLsbD 7) bs

/-- R105: the lowest byte's vacated bottom bit is filled with 0. -/
def shiftLeft1 (bs : List Byte) : List Byte := shiftLeftFrom false bs

/-- Entry step (R101): clear, then raise EmptyInput, or copy W to S, clear ACC and IT, and enter the loop. -/
def ddEnter (s : State) : State :=
  if s.wLen = 0 then raiseError .emptyInput (beginConv s)
  else { beginConv s with sBuf := s.wBytes, accBuf := List.replicate (cap s.wLen) 0, it := 0, phase := .dd }

/-- Iteration step (R103): capture (R104), shift (R105), double (R106), count. -/
def ddIterate (s : State) : State :=
  let slots := doubleSlots s.accSlots (topBit s.sBytes)
  { s with sBuf := shiftLeft1 s.sBytes, accBuf := slots.1, carry := slots.2, it := s.it + 1 }

/-- Commit step (R107): the slots are the digits, index for index; then go on to REND, or finish. -/
def ddCommit (fmt : Bool) (s : State) : State :=
  proceed fmt .rend (loadDigits .dec s.accSlots s)

/-- The P_DD phase (`10_state.md` R23): an iteration while `IT < 8·W_LEN`, else the commit. -/
def ddStep (fmt : Bool) (s : State) : State :=
  if s.it < 8 * s.wLen then ddIterate s else ddCommit fmt s

/-- CONV.DEC (R100), one engine step of it: entry, iteration or commit. -/
def execConvDec (s : State) : Result :=
  match s.phase with
  | .idle => .next s
  | .norm => .fault .phaseNotOfCommand
  | .conv => .next (ddEnter s)
  | .dd => .next (ddStep false s)
  | .rend => .fault .phaseNotOfCommand

/-! ### Equivalent forms of one digit update -/

/-- Add 3 to a digit that is 5 or more, in 4 bits (R112). -/
def add3 (d : Nibble) : Nibble := if d.toNat ≥ 5 then d + 3 else d

/-- Shift a 4-bit slot left by one, a bit entering at the bottom (R112). -/
def shiftSlot (a : Nibble) (b : Bool) : Nibble := (a <<< 1) ||| BitVec.zeroExtend 4 (BitVec.ofBool b)

/-- The parallel add-3 form (R112): every slot takes bit 3 of the next lower adjusted slot, the last one the captured bit. -/
def add3Slots : List Nibble → Bool → List Nibble
  | [], _ => []
  | [a], c0 => [shiftSlot (add3 a) c0]
  | a :: b :: ds, c0 => shiftSlot (add3 a) ((add3 b).getLsbD 3) :: add3Slots (b :: ds) c0

/-- The slot loop with the early exit R115(b) allows, on the slots least significant first: stop when the carry is 0 and every
remaining slot is 0. -/
def doubleSlotsLow : List Nibble → Bool → List Nibble × Bool
  | [], c => ([], c)
  | d :: ds, c =>
    if c = false ∧ (d :: ds).all (· = 0) then (d :: ds, c)
    else
      let slot := doubleSlot d c
      let high := doubleSlotsLow ds slot.2
      (slot.1 :: high.1, high.2)

/-- The early-exit form on the slots as ACC holds them, most significant first (R115(b)). -/
def doubleSlotsEarly (acc : List Nibble) (c : Bool) : List Nibble × Bool :=
  let r := doubleSlotsLow acc.reverse c
  (r.1.reverse, r.2)

end Sys2Proof.Machine
end

