-- ==== Sys2Proof/Machine/Operands.lean ====
section
/-! DEFINITION. The operand forms (`30_encoding.md` R65 to R70): effective byte order, byte sequences, hexadecimal strings; and the value
functions of `00_scope.md` R10. -/

namespace Sys2Proof.Machine

/-! ### Values (`00_scope.md` R10) -/

/-- `valLE(W) = Σ W[i]·256^i`. -/
def valLE : List Byte → Nat
  | [] => 0
  | b :: bs => b.toNat + 256 * valLE bs

/-- `valMS(D, r) = Σ D[k]·r^(len-1-k)`, read from the most significant digit on. -/
def valMS (r : Nat) : List Nibble → Nat
  | [] => 0
  | d :: ds => d.toNat * r ^ ds.length + valMS r ds

/-! ### Byte order (`30_encoding.md` R65, `40_normalizer.md` R82, R89) -/

/-- The effective order: the declared one when ORDV = 1, else `CFG.DORD` (R65). -/
def effectiveOrder (ordv : Bool) (ord : ByteOrder) (cfg : Cfg) : ByteOrder :=
  if ordv then ord else cfg.dord

/-- Bytes in written order to canonical order (R82): BigEndian reverses, LittleEndian copies. -/
def orient : ByteOrder → List Byte → List Byte
  | .bigEndian, bytes => bytes.reverse
  | .littleEndian, bytes => bytes

/-- Swap the element at `i` with the one at `length - 1 - i` (R89). -/
def swapMirror (l : List Byte) (i : Nat) : List Byte :=
  match l[i]?, l[l.length - 1 - i]? with
  | some x, some y => (l.set i y).set (l.length - 1 - i) x
  | _, _ => l

/-- The reversal as a schedule of swaps "for i from the high half down to the midpoint" (R89). The machine uses the index map of
R82; that the two agree is a statement. -/
def reverseBySwaps (l : List Byte) : List Byte :=
  ((List.range (l.length - l.length / 2)).map (fun k => l.length - 1 - k)).foldl swapMirror l

/-! ### Hexadecimal strings (`40_normalizer.md` R84 to R88) -/

/-- `hexval(c)` (R85), on ASCII codes (`30_encoding.md` R69; log 14). -/
def hexval (c : Byte) : Option Nibble :=
  if 0x30 ≤ c.toNat ∧ c.toNat ≤ 0x39 then some (BitVec.ofNat 4 (c.toNat - 0x30))
  else if 0x61 ≤ c.toNat ∧ c.toNat ≤ 0x66 then some (BitVec.ofNat 4 (c.toNat - 0x61 + 10))
  else if 0x41 ≤ c.toNat ∧ c.toNat ≤ 0x46 then some (BitVec.ofNat 4 (c.toNat - 0x41 + 10))
  else none

/-- `prefixLen` (R84): 2 when the string begins `0x` or `0X`, else 0. -/
def prefixLen : List Byte → Nat
  | c0 :: c1 :: _ => if c0 = 0x30 ∧ (c1 = 0x78 ∨ c1 = 0x58) then 2 else 0
  | _ => 0

/-- The digit values of a string of hexadecimal digits; none if some character is not one (R85). -/
def hexvals : List Byte → Option (List Nibble)
  | [] => some []
  | c :: cs =>
    match hexval c, hexvals cs with
    | some d, some ds => some (d :: ds)
    | _, _ => none

/-- Left-pad one 0 digit when the count is odd (R86). -/
def padEven (ds : List Nibble) : List Nibble :=
  if ds.length % 2 = 1 then 0 :: ds else ds

/-- Pairs to bytes, the first of a pair the high nibble (R87). -/
def pairBytes : List Nibble → List Byte
  | a :: b :: ds => (a ++ b : BitVec (4 + 4)) :: pairBytes ds
  | [_] => []
  | [] => []

/-- The bytes of a hexadecimal digit string in canonical order: padded, paired, reversed (R86 to R88). -/
def hexBytes (ds : List Nibble) : List Byte := (pairBytes (padEven ds)).reverse

end Sys2Proof.Machine
end

