-- ==== Sys2Proof/Machine/Normalizer.lean ====
section
/-! DEFINITION. Unit NRM (`40_normalizer.md`): the NORM phase and the commands NORM.B, NORM.X, NORM.K3. -/

namespace Sys2Proof.Machine

/-- R82 on a byte container: its error, or the bytes of W. -/
def normBytes (order : ByteOrder) (s : State) : Except Err (List Byte) :=
  if s.inLen = 0 then .error .emptyInput
  else if s.inLen > s.lmaxr then .error .capacity
  else .ok (orient order (s.inBytes s.inLen))

/-- R83 on a hexadecimal string: its error, tested in the order Capacity, InvalidInputKind, EmptyInput (`60_exceptions.md` R186), or
the bytes of W. -/
def normHex (s : State) : Except Err (List Byte) :=
  if s.inLen > inMax s.lmaxr then .error .capacity
  else
    let chars := s.inBytes s.inLen
    let body := chars.drop (prefixLen chars)
    if body.length > 2 * s.lmaxr then .error .capacity
    else
      match hexvals body with
      | none => .error .invalidInputKind
      | some ds => if ds.length = 0 then .error .emptyInput else .ok (hexBytes ds)

/-- The dispatch on KIND inside the NORM phase (R80). -/
def normKind (ordv : Bool) (ord : ByteOrder) (kind : InputKind) (s : State) : Except Err (List Byte) :=
  match kind with
  | .buffer => normBytes (effectiveOrder ordv ord s.cfg) s
  | .array => normBytes (effectiveOrder ordv ord s.cfg) s
  | .hexstr => normHex s
  | .other => .error .invalidInputKind

/-- The NORM phase as one step (R80): clear, then raise or write W and go on. -/
def normPhase (r : Except Err (List Byte)) (fmt : Bool) (s : State) : State :=
  match r with
  | .error e => raiseError e (beginNorm s)
  | .ok bytes => proceed fmt .conv (loadW bytes (beginNorm s))

/-- A NORM command in a phase (`10_state.md` R23): idle, no step; P_NORM, the phase; no other phase is a NORM command's. -/
def normStep (r : Except Err (List Byte)) (s : State) : Result :=
  match s.phase with
  | .idle => .next s
  | .norm => .next (normPhase r false s)
  | .conv => .fault .phaseNotOfCommand
  | .dd => .fault .phaseNotOfCommand
  | .rend => .fault .phaseNotOfCommand

/-- NORM.B (R82). The two byte kinds behave alike. -/
def execNormB (ordv : Bool) (ord : ByteOrder) (_kind : InputKind) (s : State) : Result :=
  normStep (normBytes (effectiveOrder ordv ord s.cfg) s) s

/-- NORM.X (R83): no byte order is an operand (R88). -/
def execNormX (s : State) : Result := normStep (normHex s) s

/-- NORM.K3 (R90): always InvalidInputKind, IN and IN_LEN not examined. -/
def execNormK3 (s : State) : Result := normStep (.error .invalidInputKind) s

end Sys2Proof.Machine
end

