-- ==== Sys2Proof/Machine/RadixPow2.lean ====
section
/-! DEFINITION. Unit RX (`42_radix_pow2.md`): bit extraction in radix 16, 2 and 8, and the commands CONV.HEX, CONV.BIN, CONV.OCT. -/

namespace Sys2Proof.Machine

/-- R131: two nibbles a byte, high first, most significant byte first. -/
def hexDigits (w : List Byte) : List Nibble :=
  w.reverse.flatMap (fun b => [b.extractLsb' 4 4, b.extractLsb' 0 4])

/-- The eight bits of a byte, bit 7 first (`20_memory.md` R50). -/
def byteBits (b : Byte) : List Bool := (List.range 8).map (fun j => b.getLsbD (7 - j))

/-- The bit string X of a byte sequence (R134): bit 7 of the most significant byte first. -/
def bitString (w : List Byte) : List Bool := w.reverse.flatMap byteBits

/-- A bit as a digit. -/
def bitDigit (b : Bool) : Nibble := BitVec.zeroExtend 4 (BitVec.ofBool b)

/-- R132: one digit a bit. -/
def binDigits (w : List Byte) : List Nibble := (bitString w).map bitDigit

/-- `G = ceil(n / 3)` for `n` bits (R133). -/
def octCount (n : Nat) : Nat := (n + 2) / 3

/-- `pad = 3·G - n` (R133, R136). -/
def octPad (n : Nat) : Nat := 3 * octCount n - n

/-- Groups of three bits to digits, `4a + 2b + c` (R133). -/
def tripleDigits : List Bool → List Nibble
  | a :: b :: c :: bs =>
    BitVec.zeroExtend 4 (BitVec.ofBool a ++ BitVec.ofBool b ++ BitVec.ofBool c) :: tripleDigits bs
  | [_, _] => []
  | [_] => []
  | [] => []

/-- R133: the bit string, zero-padded in front to whole groups of three. -/
def octDigits (w : List Byte) : List Nibble :=
  tripleDigits (List.replicate (octPad (8 * w.length)) false ++ bitString w)

/-- The CONV phase for a radix other than 10 as one step (R130): clear, then raise EmptyInput, or write DIG and go on. -/
def radixPhase (radix : Radix) (ds : List Nibble) (fmt : Bool) (s : State) : State :=
  if s.wLen = 0 then raiseError .emptyInput (beginConv s)
  else proceed fmt .rend (loadDigits radix ds (beginConv s))

/-- A CONV command in radix 16, 8 or 2 in a phase (`10_state.md` R23): only P_CONV is such a command's. -/
def radixStep (radix : Radix) (ds : List Nibble) (s : State) : Result :=
  match s.phase with
  | .idle => .next s
  | .norm => .fault .phaseNotOfCommand
  | .conv => .next (radixPhase radix ds false s)
  | .dd => .fault .phaseNotOfCommand
  | .rend => .fault .phaseNotOfCommand

/-- CONV.HEX (R131). -/
def execConvHex (s : State) : Result := radixStep .hex (hexDigits s.wBytes) s

/-- CONV.OCT (R133). -/
def execConvOct (s : State) : Result := radixStep .oct (octDigits s.wBytes) s

/-- CONV.BIN (R132). -/
def execConvBin (s : State) : Result := radixStep .bin (binDigits s.wBytes) s

end Sys2Proof.Machine
end

