-- ==== Sys2Proof/Machine/Renderer.lean ====
section
/-! DEFINITION. Unit RND (`43_renderer.md`): trimming, the alphabet, and the command REND. -/

namespace Sys2Proof.Machine

/-- `ALPHA` (R153) as ASCII codes (log 14): `0x30 + v` up to 9, `0x61 + v - 10` above. -/
def alpha (v : Nibble) : Byte :=
  if v.toNat ≤ 9 then BitVec.ofNat 8 (0x30 + v.toNat) else BitVec.ofNat 8 (0x61 + (v.toNat - 10))

/-- `trimIndex` (R151): the least index of a non-zero digit; the last index when all are 0. -/
def trimIndex : List Nibble → Nat
  | [] => 0
  | [_] => 0
  | d :: e :: ds => if d = 0 then trimIndex (e :: ds) + 1 else 0

/-- The index of the first digit rendered (R150): 0 under the fixed-width policy in radix 2 (R154), else the trim index. -/
def firstIndex (bfw : Bool) (radix : Radix) (ds : List Nibble) : Nat :=
  if bfw = true ∧ radix = .bin then 0 else trimIndex ds

/-- The text of a digit sequence (R150, R153). -/
def renderText (bfw : Bool) (radix : Radix) (ds : List Nibble) : List Byte :=
  (ds.drop (firstIndex bfw radix ds)).map alpha

/-- The REND phase as one step (R150): clear, then raise EmptyInput, or write TXT and finish. The radix is the tag DIG_RADIX (R155). -/
def rendPhase (s : State) : State :=
  if s.digLen = 0 then raiseError .emptyInput (beginRend s)
  else finish (loadText (renderText s.cfg.bfw s.digRadix s.digits) (beginRend s))

/-- REND (R150): only P_REND is its phase. -/
def execRend (s : State) : Result :=
  match s.phase with
  | .idle => .next s
  | .norm => .fault .phaseNotOfCommand
  | .conv => .fault .phaseNotOfCommand
  | .dd => .fault .phaseNotOfCommand
  | .rend => .next (rendPhase s)

end Sys2Proof.Machine
end

