-- ==== Sys2Proof/Machine/Composite.lean ====
section
/-! DEFINITION. The FMT commands (`44_composite_fmt.md` R170): NORM, then CONV, then REND, each phase unchanged. -/

namespace Sys2Proof.Machine

/-- The phases of an FMT command in a radix other than 10 (R170, R175(b)): it never enters P_DD. -/
def fmtRadixStep (radix : Radix) (ds : List Nibble) (r : Except Err (List Byte)) (s : State) : Result :=
  match s.phase with
  | .idle => .next s
  | .norm => .next (normPhase r true s)
  | .conv => .next (radixPhase radix ds true s)
  | .dd => .fault .phaseNotOfCommand
  | .rend => .next (rendPhase s)

/-- FMT.DEC (R170), one engine step of it. -/
def execFmtDec (ordv : Bool) (ord : ByteOrder) (kind : InputKind) (s : State) : Result :=
  match s.phase with
  | .idle => .next s
  | .norm => .next (normPhase (normKind ordv ord kind s) true s)
  | .conv => .next (ddEnter s)
  | .dd => .next (ddStep true s)
  | .rend => .next (rendPhase s)

/-- FMT.HEX (R170), one engine step of it. -/
def execFmtHex (ordv : Bool) (ord : ByteOrder) (kind : InputKind) (s : State) : Result :=
  fmtRadixStep .hex (hexDigits s.wBytes) (normKind ordv ord kind s) s

/-- FMT.OCT (R170), one engine step of it. -/
def execFmtOct (ordv : Bool) (ord : ByteOrder) (kind : InputKind) (s : State) : Result :=
  fmtRadixStep .oct (octDigits s.wBytes) (normKind ordv ord kind s) s

/-- FMT.BIN (R170), one engine step of it. -/
def execFmtBin (ordv : Bool) (ord : ByteOrder) (kind : InputKind) (s : State) : Result :=
  fmtRadixStep .bin (binDigits s.wBytes) (normKind ordv ord kind s) s

end Sys2Proof.Machine
end

