-- ==== Sys2Proof/Machine/Dispatch.lean ====
section
/-! DEFINITION. Every command to its meaning. One application is one engine step of the command (`10_state.md` R23; log 6). -/

namespace Sys2Proof.Machine

def exec (i : Instr) (s : State) : Host.Outcome State Fault Refusal :=
  match i with
  | .normB ordv ord kind => Sys2Proof.Machine.execNormB ordv ord kind s
  | .normX => Sys2Proof.Machine.execNormX s
  | .normK3 => Sys2Proof.Machine.execNormK3 s
  | .convDec => Sys2Proof.Machine.execConvDec s
  | .convHex => Sys2Proof.Machine.execConvHex s
  | .convOct => Sys2Proof.Machine.execConvOct s
  | .convBin => Sys2Proof.Machine.execConvBin s
  | .rend => Sys2Proof.Machine.execRend s
  | .fmtDec ordv ord kind => Sys2Proof.Machine.execFmtDec ordv ord kind s
  | .fmtHex ordv ord kind => Sys2Proof.Machine.execFmtHex ordv ord kind s
  | .fmtOct ordv ord kind => Sys2Proof.Machine.execFmtOct ordv ord kind s
  | .fmtBin ordv ord kind => Sys2Proof.Machine.execFmtBin ordv ord kind s

end Sys2Proof.Machine
end

