-- ==== Sys2Proof/Machine/HostPort.lean ====
section
/-! DEFINITION. The host port (`20_memory.md` R40 to R47), the host's pseudo-operations (`30_encoding.md` R76) and the host's turn. -/

namespace Sys2Proof.Machine

/-! ### The address map (R42) -/

/-- The control registers of space 0 (`10_state.md` R25). -/
inductive Reg
  | cmd
  | status
  | cfg
  | lmaxr
  | inLen
  | wLen
  | digLen
  | txtLen
  | digRadix
deriving DecidableEq, Repr

/-- A mapped location. -/
inductive Loc
  | reg (r : Reg)
  | inElem (i : Nat)
  | wElem (i : Nat)
  | digElem (i : Nat)
  | txtElem (i : Nat)
deriving DecidableEq, Repr

/-- The register at an index of space 0; indices 9 and above are unmapped (R42, `30_encoding.md` R71). -/
def regAt : Nat → Option Reg
  | 0 => some .cmd
  | 1 => some .status
  | 2 => some .cfg
  | 3 => some .lmaxr
  | 4 => some .inLen
  | 5 => some .wLen
  | 6 => some .digLen
  | 7 => some .txtLen
  | 8 => some .digRadix
  | _ + 9 => none

/-- The address map (R42); none where nothing is mapped (R47). -/
def locate (lmax : Nat) (space : BitVec 3) (index : Nat) : Option Loc :=
  if space = 0 then (regAt index).map Loc.reg
  else if space = 1 then if index < inMax lmax then some (.inElem index) else none
  else if space = 2 then if index < lmax then some (.wElem index) else none
  else if space = 3 then if index < digMax lmax then some (.digElem index) else none
  else if space = 4 then if index < txtMax lmax then some (.txtElem index) else none
  else none

/-- The location an access reaches: the port carries LENW index bits (R40; log 8). -/
def portLoc (s : State) (space : BitVec 3) (index : Nat) : Option Loc :=
  locate s.lmaxr space (index % 2 ^ lenw s.lmaxr)

/-! ### Reads (R43, R45, R47) -/

/-- What a read finds: a value, or an unspecified value of so many bits. -/
inductive PortDatum
  | known (v : Nat)
  | unspecified (width : Nat)
deriving DecidableEq, Repr

/-- The value of a register, zero-extended (`10_state.md` R25). -/
def regValue (s : State) : Reg → Nat
  | .cmd => s.cmd.toNat
  | .status => (statusWord s.status).toNat
  | .cfg => (cfgWord s.cfg).toNat
  | .lmaxr => s.lmaxr
  | .inLen => s.inLen
  | .wLen => s.wLen
  | .digLen => s.digLen
  | .txtLen => s.txtLen
  | .digRadix => s.digRadix.code.toNat

/-- Element `i` of a result buffer of valid length `len`: unspecified at or beyond it (`10_state.md` R20). -/
def elemDatum {k : Nat} (buf : List (BitVec k)) (len i : Nat) : PortDatum :=
  if i < len then
    match buf[i]? with
    | some v => .known v.toNat
    | none => .unspecified k
  else .unspecified k

/-- What a location holds when the engine is idle (R43). An element of IN is unspecified until the host writes it
(`10_state.md` R20; log 4). -/
def locDatum (s : State) : Loc → PortDatum
  | .reg r => .known (regValue s r)
  | .inElem i =>
    match s.inBuf.read? i with
    | some v => .known v.toNat
    | none => .unspecified 8
  | .wElem i => elemDatum s.wBuf s.wLen i
  | .digElem i => elemDatum s.digBuf s.digLen i
  | .txtElem i => elemDatum s.txtBuf s.txtLen i

/-- What a host read finds (R43); while BUSY, only STATUS has a specified value (R45); an unmapped address reads 0 (R47).
DESIGN CHOICE (log 19, unsafe): BUSY alone decides. A read after BUSY has fallen, but before the host has seen DONE = 1, gives the
current value by R43, where the last sentence of R54 and `70_reset_and_hazards.md` R205 call it unspecified. -/
def readDatum (s : State) (space : BitVec 3) (index : Nat) : PortDatum :=
  match portLoc s space index with
  | none => .known 0
  | some loc =>
    if s.status.busy = true ∧ loc ≠ .reg .status then .unspecified (lenw s.lmaxr)
    else locDatum s loc

/-- `HostRead` (R43): the value, and the state. A read changes nothing in the block; an unspecified value is drawn (log 3). -/
def hostRead (s : State) (space : BitVec 3) (index : Nat) : Nat × State :=
  match readDatum s space index with
  | .known v => (v, s)
  | .unspecified width => ((Config.freeBits width s.draws 0).toNat, { s with draws := s.draws + 1 })

/-! ### Writes (R44 to R47) -/

/-- A write to a mapped location while the engine is idle (R44): IN and IN_LEN store what fits, CMD starts a command (R46), a read-only
location ignores it. -/
def writeLoc (s : State) (v : Nat) : Loc → State
  | .reg .cmd => acceptCommand (BitVec.ofNat 8 v) s
  | .reg .status => s
  | .reg .cfg => s
  | .reg .lmaxr => s
  | .reg .inLen => { s with inLen := v % 2 ^ lenw s.lmaxr }
  | .reg .wLen => s
  | .reg .digLen => s
  | .reg .txtLen => s
  | .reg .digRadix => s
  | .inElem i => { s with inBuf := s.inBuf.write i (BitVec.ofNat 8 v) }
  | .wElem _ => s
  | .digElem _ => s
  | .txtElem _ => s

/-- `HostWrite` (R44): ignored while BUSY (R45) and at an unmapped address (R47). -/
def hostWrite (s : State) (space : BitVec 3) (index v : Nat) : State :=
  if s.status.busy then s
  else
    match portLoc s space index with
    | none => s
    | some loc => writeLoc s v loc

/-! ### The host's turn (log 7) -/

/-- The host notes a value it has read. -/
def note (v : Nat) (s : State) : State := { s with seen := s.seen ++ [v] }

/-- The space of a result buffer (R42). -/
def ResultBuf.space : ResultBuf → BitVec 3
  | .w => 2
  | .dig => 3
  | .txt => 4

/-- The index of a result buffer's length register (R42). -/
def ResultBuf.lenIndex : ResultBuf → Nat
  | .w => 5
  | .dig => 6
  | .txt => 7

/-- The element reads of GETW, GETD, GETT after a length of `n` was read (`30_encoding.md` R76). -/
def elementReads (buf : ResultBuf) (n : Nat) : List HostAct :=
  (List.range n).map (fun i => .read buf.space i)

/-- A host read with its note. -/
def hostReadNote (s : State) (space : BitVec 3) (index : Nat) : State :=
  note (hostRead s space index).1 (hostRead s space index).2

/-- GETW, GETD, GETT (`30_encoding.md` R76): read the length register, then have that many elements read next. -/
def hostGet (s : State) (buf : ResultBuf) : State :=
  { hostReadNote s 0 buf.lenIndex with
    script := elementReads buf (hostRead s 0 buf.lenIndex).1 ++ s.script }

/-- The poll of WAIT that finds DONE (`30_encoding.md` R76): STATUS is noted and the host goes on. -/
def pollDone (s : State) : State := note (statusWord s.status).toNat s

/-! ### Host scripts (`30_encoding.md` R76) -/

/-- The element writes of LOAD, from index `i` on. -/
def loadFrom (i : Nat) : List Byte → List HostAct
  | [] => []
  | b :: bs => .write 1 i b.toNat :: loadFrom (i + 1) bs

/-- `LOAD b0, b1, ...`: the elements, then IN_LEN. -/
def load (bytes : List Byte) : List HostAct := loadFrom 0 bytes ++ [.write 0 4 bytes.length]

/-- The ASCII code of a character (`30_encoding.md` R69; log 14). A code is 7 bits; what is not ASCII has none. -/
def asciiCode (c : Char) : Option Byte := if c.toNat < 128 then some (BitVec.ofNat 8 c.toNat) else none

/-- The codes of a string of ASCII characters; none if some character is not one. -/
def asciiCodes : List Char → Option (List Byte)
  | [] => some []
  | c :: cs =>
    match asciiCode c, asciiCodes cs with
    | some b, some bs => some (b :: bs)
    | _, _ => none

/-- `LOADS "c0c1..."`: LOAD of the characters' ASCII codes. A string that is not ASCII has no expansion. -/
def loadString (cs : List Char) : Option (List HostAct) := (asciiCodes cs).map load

/-- A command line: the write of its word to CMD. -/
def issue (w : Byte) : List HostAct := [.write 0 0 w.toNat]

end Sys2Proof.Machine
end

