-- ==== Sys2Proof/Machine/Engine.lean ====
section
/-! DEFINITION. The engine's turn (`10_state.md` R23), the host's turn, and runs of whole commands (`70_reset_and_hazards.md` R211, R213). -/

namespace Sys2Proof.Machine

/-- The engine's turn: one step of the latched command. In PHASE = IDLE there is no step (R23). -/
def engineTurn (s : State) : Result := exec (decodeWord s.cmd) s

/-- The host's turn: the oldest pending action (log 7). WAIT polls STATUS and stays until DONE is 1, and the engine moves between
its polls (`30_encoding.md` R76). -/
def hostTurn (act : HostAct) (rest : List HostAct) (s : State) : Result :=
  match act with
  | .read space index => .next (hostReadNote (s.withScript rest) space index)
  | .write space index v => .next (hostWrite (s.withScript rest) space index v)
  | .wait => if s.status.done then .next (pollDone (s.withScript rest)) else engineTurn s
  | .get buf => .next (hostGet (s.withScript rest) buf)
  | .reset => .next (applyReset (s.withScript rest))
  | .otherHost => .refused .secondHost
  | .engine => engineTurn (s.withScript rest)

/-- `k` engine steps of one command. -/
def execTimes (i : Instr) : Nat → State → Result
  | 0, s => .next s
  | k + 1, s =>
    match exec i s with
    | .next t => execTimes i k t
    | .fault r => .fault r
    | .refused r => .refused r

/-- The engine steps of a command by R211, for a W_LEN of `len` and no error: NORM 1, CONV 1 or `8·len + 2`, REND 1, FMT their sum. -/
def stepCount (len : Nat) : Instr → Nat
  | .normB _ _ _ => 1
  | .normX => 1
  | .normK3 => 1
  | .convDec => 8 * len + 2
  | .convHex => 1
  | .convOct => 1
  | .convBin => 1
  | .rend => 1
  | .fmtDec _ _ _ => 8 * len + 4
  | .fmtHex _ _ _ => 3
  | .fmtOct _ _ _ => 3
  | .fmtBin _ _ _ => 3

/-- A whole command: an accepted CMD write (`20_memory.md` R46), then engine steps to the end of the command. `8·LMAX + 4` steps are
enough for every command (R211), and an idle engine takes no step (R23). -/
def runCommand (w : Byte) (s : State) : Result :=
  execTimes (decodeWord w) (8 * max s.lmaxr s.wLen + 4) (acceptCommand w s)

end Sys2Proof.Machine
end

