-- ==== Sys2Proof/Machine/Step.lean ====
section
/-! DEFINITION. One step of the whole: the host's turn when it has an action pending, else the engine's. -/

namespace Sys2Proof.Machine

/-- One step (`10_state.md` R23, `20_memory.md` R53; log 7). -/
def step (s : State) : Host.Outcome State Fault Refusal :=
  match s.script with
  | [] => engineTurn s
  | act :: rest => hostTurn act rest s

/-- `s` with the command word `w` accepted (`20_memory.md` R46) and the next step the engine's, so that the next step is the first
engine step of that command (log 11). Nothing else changes; with a host action pending the engine is given the turn before it. -/
def State.withFetchWord (s : State) (_nbits w : Nat) : State :=
  { acceptCommand (BitVec.ofNat 8 w) s with
    script := match s.script with
      | [] => []
      | act :: rest => .engine :: act :: rest }

end Sys2Proof.Machine
end

