-- ==== Sys2Proof/Machine/Assembler.lean ====
section
/-! DEFINITION. The assembler's text (`30_encoding.md` R75): a line of characters to a command, and to its word. -/

namespace Sys2Proof.Machine

/-- A token of a line: a word in lower case, or a comma. -/
inductive Token
  | word (cs : List Char)
  | comma
deriving DecidableEq, Repr

/-- A finished word, if there is one. -/
def flushWord (cur : List Char) : List Token := if cur = [] then [] else [.word cur]

/-- The tokens of a line: words are separated by spaces and commas; case does not matter (R75; log 15). -/
def tokensFrom (cur : List Char) : List Char → List Token
  | [] => flushWord cur
  | c :: cs =>
    if c = ' ' then flushWord cur ++ tokensFrom [] cs
    else if c = ',' then flushWord cur ++ .comma :: tokensFrom [] cs
    else tokensFrom (cur ++ [c.toLower]) cs

/-- `kind ::= buf | arr | hexs | k3` (R75). -/
def kindOf (w : List Char) : Option InputKind :=
  if w = ['b', 'u', 'f'] then some .buffer
  else if w = ['a', 'r', 'r'] then some .array
  else if w = ['h', 'e', 'x', 's'] then some .hexstr
  else if w = ['k', '3'] then some .other
  else none

/-- `order ::= be | le` (R75). -/
def orderOf (w : List Char) : Option ByteOrder :=
  if w = ['b', 'e'] then some .bigEndian
  else if w = ['l', 'e'] then some .littleEndian
  else none

/-- `fmt ::= dec | hex | oct | bin` (R75). -/
def radixOfWord (w : List Char) : Option Radix :=
  if w = ['d', 'e', 'c'] then some .dec
  else if w = ['h', 'e', 'x'] then some .hex
  else if w = ['o', 'c', 't'] then some .oct
  else if w = ['b', 'i', 'n'] then some .bin
  else none

/-- The optional `, <order>` that ends a line: ORDV and ORD; omitted, ORDV = 0 (R75). -/
def orderTail : List Token → Option (Bool × ByteOrder)
  | [] => some (false, .bigEndian)
  | [.comma, .word o] => (orderOf o).map (fun ord => (true, ord))
  | _ => none

/-- `NORM <kind> [, <order>]`: the order of a kind that ignores it is not written (R67, R75). -/
def normLine (kind : InputKind) (o : Bool × ByteOrder) : Instr :=
  match kind with
  | .buffer => .normB o.1 o.2 .buffer
  | .array => .normB o.1 o.2 .array
  | .hexstr => .normX
  | .other => .normK3

/-- `CONV <fmt>`. -/
def convLine : Radix → Instr
  | .dec => .convDec
  | .hex => .convHex
  | .oct => .convOct
  | .bin => .convBin

/-- `FMT <fmt>, <kind> [, <order>]`: the order of a kind that ignores it is written 0 (R67, R75). -/
def fmtLine (radix : Radix) (kind : InputKind) (o : Bool × ByteOrder) : Instr :=
  let v := kind.isBytes && o.1
  let ord := if kind.isBytes then o.2 else .bigEndian
  match radix with
  | .dec => .fmtDec v ord kind
  | .hex => .fmtHex v ord kind
  | .oct => .fmtOct v ord kind
  | .bin => .fmtBin v ord kind

/-- A line's tokens to a command (R75). -/
def parseTokens : List Token → Option Instr
  | [.word ['r', 'e', 'n', 'd']] => some .rend
  | [.word ['c', 'o', 'n', 'v'], .word f] => (radixOfWord f).map convLine
  | .word ['n', 'o', 'r', 'm'] :: .word k :: rest =>
    match kindOf k, orderTail rest with
    | some kind, some o => some (normLine kind o)
    | _, _ => none
  | .word ['f', 'm', 't'] :: .word f :: .comma :: .word k :: rest =>
    match radixOfWord f, kindOf k, orderTail rest with
    | some radix, some kind, some o => some (fmtLine radix kind o)
    | _, _, _ => none
  | _ => none

/-- A line to its command word (R75). -/
def assemble (line : List Char) : Option Byte := (parseTokens (tokensFrom [] line)).map encode

end Sys2Proof.Machine
end

