-- ==== Sys2Proof/Safety.lean ====
section
/-! DEFINITION. What claims are stated in: the invariant of the machine, what a command leaves alone, and the numeral of a value. -/

namespace Sys2Proof.Machine

/-- The phases a command word enters (`10_state.md` R23, `20_memory.md` R46, `44_composite_fmt.md` R175): NORM runs P_NORM, CONV runs
P_CONV and, in radix 10, P_DD, REND runs P_REND, FMT runs them all (P_DD in radix 10 only). -/
def phaseLegal (w : Byte) : Phase → Bool
  | .idle => true
  | .norm => opField w = 0 || opField w = 3
  | .conv => opField w = 1 || opField w = 3
  | .dd => (opField w = 1 || opField w = 3) && radixField w = 0
  | .rend => opField w = 2 || opField w = 3

/-- What holds of ACC, S and IT inside the double-dabble loop (`41_decimal_double_dabble.md` R108, R109): after `IT` iterations ACC
holds the top `IT` bits of the value of W and S the rest. -/
structure State.LoopInv (s : State) : Prop where
  wLen_pos : 0 < s.wLen
  digLen_zero : s.digLen = 0
  it_le : s.it ≤ 8 * s.wLen
  s_held : s.sBuf.length = s.wLen
  acc_held : s.accBuf.length = cap s.wLen
  acc_value : valMS 10 s.accBuf = valLE s.wBuf / 2 ^ (8 * s.wLen - s.it)
  s_value : valLE s.sBuf = valLE s.wBuf * 2 ^ s.it % 2 ^ (8 * s.wLen)

/-- The invariant of the converter. -/
structure State.Inv (s : State) : Prop where
  /-- LMAX is at least 1 (`00_scope.md` R6). -/
  lmax_pos : 1 ≤ s.lmaxr
  /-- IN is in canonical form, within its range (`10_state.md` R14). -/
  in_wf : s.inBuf.wf
  in_range : ∀ c ∈ s.inBuf, c.1 < inMax s.lmaxr
  /-- IN_LEN fits its register (`10_state.md` R25). -/
  inLen_width : s.inLen < 2 ^ lenw s.lmaxr
  /-- W holds exactly W_LEN elements, at most LMAX (`10_state.md` R15). -/
  w_held : s.wBuf.length = s.wLen
  w_fits : s.wLen ≤ s.lmaxr
  /-- DIG holds exactly DIG_LEN digits of its radix (`10_state.md` R18). -/
  dig_held : s.digBuf.length = s.digLen
  dig_fits : s.digLen ≤ digMax s.lmaxr
  dig_digits : ∀ d ∈ s.digBuf, d.toNat < s.digRadix.base
  /-- A DigitSequence is that of the ByteSequence in W, never a stale one (`40_normalizer.md` R81, `41_decimal_double_dabble.md` R111,
  `42_radix_pow2.md` R137). -/
  dig_fresh : s.digLen ≠ 0 → 0 < s.wLen ∧ valMS s.digRadix.base s.digBuf = valLE s.wBuf
  /-- TXT holds exactly TXT_LEN characters, and they are those of DIG (`10_state.md` R19, `43_renderer.md` R150). -/
  txt_held : s.txtBuf.length = s.txtLen
  txt_fits : s.txtLen ≤ txtMax s.lmaxr
  txt_fresh : s.txtLen ≠ 0 → s.digLen ≠ 0 ∧ s.txtBuf = renderText s.cfg.bfw s.digRadix s.digBuf
  /-- The hidden registers fit, the slots are decimal digits and the carry rests at 0 (`10_state.md` R16, R17, R22, R24,
  `41_decimal_double_dabble.md` R109, R110). -/
  s_fits : s.sBuf.length ≤ s.lmaxr
  acc_fits : s.accBuf.length ≤ cap s.lmaxr
  acc_digits : ∀ d ∈ s.accBuf, d.toNat ≤ 9
  carry_zero : s.carry = false
  it_fits : s.it ≤ 8 * s.lmaxr
  /-- BUSY says that PHASE is not IDLE (`10_state.md` R22, R26). -/
  busy_phase : s.status.busy = true ↔ s.phase ≠ .idle
  /-- BUSY and DONE are never both 1 (R26). -/
  not_both : ¬ (s.status.busy = true ∧ s.status.done = true)
  /-- An error code implies DONE (R26). -/
  err_done : s.status.err ≠ none → s.status.done = true
  /-- The engine is only in phases its command enters (`10_state.md` R23). -/
  phase_legal : phaseLegal s.cmd s.phase = true
  /-- An FMT command past NORM has its operands, and no result of a later stage (`44_composite_fmt.md` R170). -/
  fmt_conv : s.phase = .conv → opField s.cmd = 3 → 0 < s.wLen
  fmt_rend : s.phase = .rend → opField s.cmd = 3 → 2 ≤ s.digLen
  /-- Inside the loop (R108). -/
  loop : s.phase = .dd → s.LoopInv

/-- What every engine step leaves alone: the command word, the straps, the host's buffer IN (by its read of each element) and IN_LEN,
and the host's own fields. -/
structure SameOutside (s t : State) : Prop where
  cmd : t.cmd = s.cmd
  cfg : t.cfg = s.cfg
  lmaxr : t.lmaxr = s.lmaxr
  inLen : t.inLen = s.inLen
  inBuf : ∀ i, t.inBuf.read? i = s.inBuf.read? i
  script : t.script = s.script
  seen : t.seen = s.seen

/-- The hidden registers of unit DD are as before (`10_state.md` R30). -/
structure SameHidden (s t : State) : Prop where
  sBuf : t.sBuf = s.sBuf
  accBuf : t.accBuf = s.accBuf
  carry : t.carry = s.carry
  it : t.it = s.it

/-- The stage NRM's registers are as before. -/
structure SameW (s t : State) : Prop where
  wLen : t.wLen = s.wLen
  wBuf : t.wBuf = s.wBuf

/-- The stages DD and RX's registers are as before. -/
structure SameDig (s t : State) : Prop where
  digLen : t.digLen = s.digLen
  digBuf : t.digBuf = s.digBuf
  digRadix : t.digRadix = s.digRadix

/-- The stage RND's registers are as before. -/
structure SameTxt (s t : State) : Prop where
  txtLen : t.txtLen = s.txtLen
  txtBuf : t.txtBuf = s.txtBuf

/-- A command has ended without an error of its own: idle, BUSY 0, DONE 1, ERR as it was (`10_state.md` R23 `finish`). -/
def Finished (s t : State) : Prop := t.phase = .idle ∧ t.status = ⟨false, true, s.status.err⟩

/-- A command has ended with error `e` (`60_exceptions.md` R184). -/
def EndedWith (e : Err) (t : State) : Prop := t.phase = .idle ∧ t.status = ⟨false, true, some e⟩

/-- The result registers of a command, all equal (`44_composite_fmt.md` R171's list, IN among them). -/
structure SameResults (s t : State) : Prop where
  inLen : t.inLen = s.inLen
  inBuf : t.inBuf = s.inBuf
  w : SameW s t
  dig : SameDig s t
  txt : SameTxt s t
  err : t.status.err = s.status.err

/-- `k` steps of the whole, host and engine, stopping at the first fault or refusal. -/
def stepTimes : Nat → State → Result
  | 0, s => .next s
  | k + 1, s =>
    match step s with
    | .next t => stepTimes k t
    | .fault r => .fault r
    | .refused r => .refused r

/-- The numeral of a value in a radix: its digits, most significant first, in the alphabet; `"0"` for 0
(`44_composite_fmt.md` R172). -/
def numeral (r : Radix) (v : Nat) : List Byte :=
  if v = 0 then [0x30] else (Nat.digits r.base v).reverse.map (fun d => alpha (BitVec.ofNat 4 d))

/-- The value an input byte sequence stands for under a byte order (`40_normalizer.md` R82, result law). -/
def valueIn (order : ByteOrder) (bytes : List Byte) : Nat := valLE (orient order bytes)

/-- The CONV command of a radix (`30_encoding.md` R62). -/
def convOf : Radix → Instr
  | .dec => .convDec
  | .hex => .convHex
  | .oct => .convOct
  | .bin => .convBin

/-- The FMT command of a radix (`30_encoding.md` R62). -/
def fmtOf (r : Radix) (ordv : Bool) (ord : ByteOrder) (kind : InputKind) : Instr :=
  match r with
  | .dec => .fmtDec ordv ord kind
  | .hex => .fmtHex ordv ord kind
  | .oct => .fmtOct ordv ord kind
  | .bin => .fmtBin ordv ord kind

/-- The NORM command of an input kind (`30_encoding.md` R62, R72). -/
def normOf (ordv : Bool) (ord : ByteOrder) (kind : InputKind) : Instr :=
  match kind with
  | .buffer => .normB ordv ord .buffer
  | .array => .normB ordv ord .array
  | .hexstr => .normX
  | .other => .normK3

/-- An address of the host port at which nothing is mapped (`20_memory.md` R42, R47). -/
abbrev Unmapped (lmax : Nat) (space : BitVec 3) (index : Nat) : Prop :=
  5 ≤ space.toNat ∨ (space = 0 ∧ 9 ≤ index) ∨ (space = 1 ∧ 2 * lmax + 2 ≤ index) ∨ (space = 2 ∧ lmax ≤ index) ∨
    (space = 3 ∧ 8 * lmax ≤ index) ∨ (space = 4 ∧ 8 * lmax ≤ index)

end Sys2Proof.Machine
end

