-- ==== Sys2Proof/Certificates/Slice0/Obligations.lean ====
section
/-! DEFINITION. The statements for the provers. Each docstring names the rules of spec/ it formalises. -/

open Sys2Proof Sys2Proof.Machine

/-! ### Reset and the invariant -/

/-- `70_reset_and_hazards.md` R200: reset at any time, from any state, leaves the table of `10_state.md` R32; every buffer element
is unspecified, the straps stay, and the engine executes nothing until CMD is written. The host's own fields stay (log 7). -/
def Obligations.ResetGivesTheResetTable : Prop :=
  ∀ (s : State) (rest : List HostAct), s.script = .reset :: rest →
    ∃ t, step s = .next t ∧
      t.phase = .idle ∧ t.it = 0 ∧ t.carry = false ∧ t.cmd = 0 ∧ t.status = ⟨false, false, none⟩ ∧
      t.inLen = 0 ∧ t.wLen = 0 ∧ t.digLen = 0 ∧ t.txtLen = 0 ∧ t.digRadix.code = 0 ∧
      t.cfg = s.cfg ∧ t.lmaxr = s.lmaxr ∧
      (∀ space index loc, space ≠ 0 → portLoc t space index = some loc → ∃ width, readDatum t space index = .unspecified width) ∧
      t.sBytes = [] ∧ t.sBuf = [] ∧ t.accBuf = [] ∧
      t.script = rest ∧ t.seen = s.seen ∧
      engineTurn t = .next t

/-- The state right after reset has every value `10_state.md` R32 gives (its straps are the model's choice, log 1, 2), and it
satisfies the invariant, as does the reset state for any straps with LMAX ≥ 1. -/
def Obligations.ResetStateSatisfiesInvariant : Prop :=
  (∀ (cfg : Cfg) (lmax : Nat), 1 ≤ lmax → (State.resetWith cfg lmax).Inv) ∧
  State.reset.Inv ∧
  State.reset.phase = .idle ∧ State.reset.it = 0 ∧ State.reset.carry = false ∧ State.reset.cmd = 0 ∧
  State.reset.status = ⟨false, false, none⟩ ∧ State.reset.inLen = 0 ∧ State.reset.wLen = 0 ∧ State.reset.digLen = 0 ∧
  State.reset.txtLen = 0 ∧ State.reset.digRadix = .dec ∧ State.reset.cfg.bfw = false

/-- Every step, the host's or the engine's, keeps the invariant. -/
def Obligations.StepKeepsInvariant : Prop :=
  ∀ s t : State, s.Inv → step s = .next t → t.Inv

/-- From a state that satisfies the invariant no step faults, and the only refusal is a second host's access (`60_exceptions.md`
R193, `20_memory.md` R41). -/
def Obligations.InvariantStatesNeverStop : Prop :=
  ∀ s : State, s.Inv →
    (∀ f, step s ≠ .fault f) ∧
    (∀ r, step s = .refused r ↔ r = .secondHost ∧ ∃ rest, s.script = .otherHost :: rest)

/-- `10_state.md` R28 and R25: CFG and LMAXR are straps; no step changes them. -/
def Obligations.StrapsNeverChange : Prop :=
  ∀ s t : State, step s = .next t → t.cfg = s.cfg ∧ t.lmaxr = s.lmaxr

/-! ### Decoding -/

/-- Decode of encode gives back every well-formed command, with every field bit its row passes; and every word decodes to a
well-formed command, whose encoding is the word with its ignored bits cleared (`30_encoding.md`, sections 3 and 5). -/
def Obligations.DecodeEncodeRoundTrip : Prop :=
  (∀ i : Instr, i.wellFormed = true → decodeTableWord 8 (encode i).toNat = some i) ∧
  (∀ w : Byte, (decodeWord w).wellFormed = true ∧
    encode (decodeWord w) = w &&& ((decodeWord w).rowMask ||| (decodeWord w).passedMask))

/-- `30_encoding.md` R62: the twelve rows partition all 256 words, each word selects exactly one row, and it is the row of the
command it decodes to. -/
def Obligations.EveryWordSelectsItsRow : Prop :=
  opcodeTable =
    [⟨"NORM.B", 0x00, 0x23⟩, ⟨"NORM.X", 0x20, 0x33⟩, ⟨"NORM.K3", 0x30, 0x33⟩, ⟨"CONV.DEC", 0x01, 0x0F⟩,
     ⟨"CONV.HEX", 0x05, 0x0F⟩, ⟨"CONV.OCT", 0x09, 0x0F⟩, ⟨"CONV.BIN", 0x0D, 0x0F⟩, ⟨"REND", 0x02, 0x03⟩,
     ⟨"FMT.DEC", 0x03, 0x0F⟩, ⟨"FMT.HEX", 0x07, 0x0F⟩, ⟨"FMT.OCT", 0x0B, 0x0F⟩, ⟨"FMT.BIN", 0x0F, 0x0F⟩] ∧
  ∀ w : Byte, opcodeTable.filter (fun r => r.selects w) =
    [⟨(decodeWord w).mnemonic, (decodeWord w).rowMatch, (decodeWord w).rowMask⟩]

/-- A few words of `30_encoding.md` section 5, written out, decode to the commands they stand for; one of each family. -/
def Obligations.SampleWordsDecode : Prop :=
  decodeWord 0b10000011 = .fmtDec true .bigEndian .buffer ∧
  decodeWord 0b11000011 = .fmtDec true .littleEndian .buffer ∧
  decodeWord 0b00100111 = .fmtHex false .bigEndian .hexstr ∧
  decodeWord 0b10001011 = .fmtOct true .bigEndian .buffer ∧
  decodeWord 0b10001111 = .fmtBin true .bigEndian .buffer ∧
  decodeWord 0b10010000 = .normB true .bigEndian .array ∧
  decodeWord 0b00100000 = .normX ∧
  decodeWord 0b00110000 = .normK3 ∧
  decodeWord 0b00000001 = .convDec ∧
  decodeWord 0b00001101 = .convBin ∧
  decodeWord 0b00000010 = .rend

/-- `30_encoding.md` R67: a field a command does not use changes nothing, and an assembler writes 0 in it. -/
def Obligations.IgnoredFieldsChangeNothing : Prop :=
  (∀ w : Byte, opField w = 0 → decodeWord w = decodeWord (w &&& 0xF3)) ∧
  (∀ w : Byte, opField w = 0 → 2 ≤ (kindField w).toNat → decodeWord w = decodeWord (w &&& 0x33)) ∧
  (∀ (w : Byte) (s : State), opField w = 3 → 2 ≤ (kindField w).toNat →
    exec (decodeWord w) s = exec (decodeWord (w &&& 0x3F)) s) ∧
  (∀ w : Byte, opField w = 1 → decodeWord w = decodeWord (w &&& 0x0F)) ∧
  (∀ w : Byte, opField w = 2 → decodeWord w = decodeWord 0x02) ∧
  (∀ i : Instr, i.wellFormed = true → encode i &&& ~~~(i.rowMask ||| i.passedMask) = 0) ∧
  (∀ (r : Radix) (kind : InputKind) (o : Bool × ByteOrder), 2 ≤ kind.code.toNat → encode (fmtLine r kind o) &&& 0xC0 = 0)

/-- `30_encoding.md` R65: the two order codes; and the effective order of a NORM or FMT command is ORD when ORDV = 1, else
CFG.DORD: W is the operand reversed when that order is BigEndian and copied when it is LittleEndian; with ORDV = 0 the command is
the one that declares CFG.DORD, with ORDV = 1 the strap changes nothing. -/
def Obligations.EffectiveOrderRule : Prop :=
  (ByteOrder.bigEndian.code = false ∧ ByteOrder.littleEndian.code = true ∧ ∀ c, (ByteOrder.ofCode c).code = c) ∧
  (∀ (ordv : Bool) (ord : ByteOrder) (kind : InputKind) (s : State), s.phase = .norm → kind.isBytes = true →
    0 < s.inLen → s.inLen ≤ s.lmaxr →
    let order := if ordv then ord else s.cfg.dord
    let w := match order with
      | .bigEndian => (s.inBytes s.inLen).reverse
      | .littleEndian => s.inBytes s.inLen
    (∃ t, exec (.normB ordv ord kind) s = .next t ∧ t.wBuf = w) ∧
    (∀ r, ∃ t, exec (fmtOf r ordv ord kind) s = .next t ∧ t.wBuf = w)) ∧
  ∀ (ord ord' : ByteOrder) (kind : InputKind) (s : State),
    exec (.normB false ord kind) s = exec (.normB true s.cfg.dord kind) s ∧
    (∀ r, exec (fmtOf r false ord kind) s = exec (fmtOf r true s.cfg.dord kind) s) ∧
    (∀ t, exec (.normB true ord kind) s = .next t →
      exec (.normB true ord kind) { s with cfg := { s.cfg with dord := ord' } } =
        .next { t with cfg := { s.cfg with dord := ord' } }) ∧
    (∀ r t, exec (fmtOf r true ord kind) s = .next t →
      exec (fmtOf r true ord kind) { s with cfg := { s.cfg with dord := ord' } } =
        .next { t with cfg := { s.cfg with dord := ord' } })

/-! ### The step and the host port -/

/-- `10_state.md` R23: with no host action pending, or the engine given the turn, or WAIT not yet seeing DONE, a step is the
engine's step of the command CMD holds; an idle engine takes no step. -/
def Obligations.StepRunsTheLatchedCommand : Prop :=
  (∀ s : State, s.script = [] → step s = exec (decodeWord s.cmd) s) ∧
  (∀ (s : State) (rest : List HostAct), s.script = .engine :: rest → step s = exec (decodeWord s.cmd) { s with script := rest }) ∧
  (∀ (s : State) (rest : List HostAct), s.script = .wait :: rest → s.status.done = false → step s = exec (decodeWord s.cmd) s) ∧
  (∀ (i : Instr) (s : State), s.phase = .idle → exec i s = .next s)

/-- A word placed by `withFetchWord` is the command the very next step runs, from the state an accepted CMD write gives
(`20_memory.md` R46; log 11). -/
def Obligations.FetchedWordRunsNext : Prop :=
  ∀ (s : State) (w : Nat), step (s.withFetchWord 8 w) = exec (decodeWord (BitVec.ofNat 8 w)) (acceptCommand (BitVec.ofNat 8 w) s)

/-- `20_memory.md`, section 1 (the accepted CMD write): it latches the word, sets BUSY, clears DONE and ERR and enters the phase
of its OP; nothing else changes. Each of the 256 words does. -/
def Obligations.AcceptedWriteStartsCommand : Prop :=
  ∀ (s : State) (index v : Nat) (rest : List HostAct), s.script = .write 0 index v :: rest →
    index % 2 ^ lenw s.lmaxr = 0 → s.status.busy = false →
    ∃ t, step s = .next t ∧ t.cmd = BitVec.ofNat 8 v ∧ t.status = ⟨true, false, none⟩ ∧
      (opField t.cmd = 0 ∨ opField t.cmd = 3 → t.phase = .norm) ∧
      (opField t.cmd = 1 → t.phase = .conv) ∧
      (opField t.cmd = 2 → t.phase = .rend) ∧
      t = { s with script := rest, cmd := t.cmd, status := t.status, phase := t.phase }

/-- `20_memory.md`, section 1 (accesses while BUSY): every write is ignored, STATUS reads `BUSY = 1, DONE = 0, ERR = 0`, and any
other mapped location reads an unspecified value (a free one, log 3, 8). -/
def Obligations.BusyPortIgnoresAndHides : Prop :=
  ∀ (s : State) (space : BitVec 3) (index v : Nat) (rest : List HostAct), s.Inv → s.status.busy = true →
    (s.script = .write space index v :: rest → step s = .next { s with script := rest }) ∧
    (s.script = .read space index :: rest → space = 0 → index % 2 ^ lenw s.lmaxr = 1 →
      step s = .next { s with script := rest, seen := s.seen ++ [1] }) ∧
    (s.script = .read space index :: rest → ¬ (space = 0 ∧ index % 2 ^ lenw s.lmaxr = 1) →
      ¬ Unmapped s.lmaxr space (index % 2 ^ lenw s.lmaxr) →
      step s = .next { s with
        script := rest, seen := s.seen ++ [(Config.freeBits (lenw s.lmaxr) s.draws 0).toNat], draws := s.draws + 1 })

/-- `20_memory.md` R47: an unmapped address reads as 0 and ignores writes, BUSY or not, with no error and no status bit. -/
def Obligations.UnmappedReadsZeroIgnoresWrites : Prop :=
  ∀ (s : State) (space : BitVec 3) (index v : Nat) (rest : List HostAct),
    Unmapped s.lmaxr space (index % 2 ^ lenw s.lmaxr) →
    (s.script = .read space index :: rest → step s = .next { s with script := rest, seen := s.seen ++ [0] }) ∧
    (s.script = .write space index v :: rest → step s = .next { s with script := rest })

/-- `20_memory.md` R44: with BUSY = 0 a write to IN stores the low 8 bits in that element alone, a write to IN_LEN the low LENW
bits, a write to a read-only location nothing; only the CMD write (R46) does more than store. -/
def Obligations.HostWriteStoresWhatFits : Prop :=
  ∀ (s : State) (space : BitVec 3) (index v : Nat) (rest : List HostAct), s.script = .write space index v :: rest →
    s.status.busy = false →
    (space = 1 → index % 2 ^ lenw s.lmaxr < 2 * s.lmaxr + 2 →
      ∃ t, step s = .next t ∧
        (∀ a, t.inBuf.read? a = if a = index % 2 ^ lenw s.lmaxr then some (BitVec.ofNat 8 (v % 256)) else s.inBuf.read? a) ∧
        t = { s with script := rest, inBuf := t.inBuf }) ∧
    (space = 0 → index % 2 ^ lenw s.lmaxr = 4 →
      step s = .next { s with script := rest, inLen := v % 2 ^ lenw s.lmaxr }) ∧
    (space = 0 → index % 2 ^ lenw s.lmaxr = 0 →
      step s = .next (acceptCommand (BitVec.ofNat 8 (v % 256)) { s with script := rest })) ∧
    (space ≠ 1 → ¬ (space = 0 ∧ (index % 2 ^ lenw s.lmaxr = 0 ∨ index % 2 ^ lenw s.lmaxr = 4)) →
      step s = .next { s with script := rest })

/-- `20_memory.md`, section 1 (reads with BUSY = 0): a read returns the current value of the mapped location, zero-extended, and
changes nothing in the block; an element at or beyond the valid length of W, DIG or TXT, or an element of IN never written,
returns a free value. The model's choices: for IN it follows `10_state.md` R20's words (log 4), and BUSY alone decides, also
before the host has seen DONE = 1 (log 19). -/
def Obligations.IdleReadReturnsCurrentValue : Prop :=
  ∀ (s : State) (space : BitVec 3) (index : Nat) (rest : List HostAct), s.Inv → s.script = .read space index :: rest →
    s.status.busy = false →
    let j := index % 2 ^ lenw s.lmaxr
    let returns (v : Nat) := step s = .next { s with script := rest, seen := s.seen ++ [v] }
    let returnsFree (width : Nat) := step s = .next
      { s with script := rest, seen := s.seen ++ [(Config.freeBits width s.draws 0).toNat], draws := s.draws + 1 }
    (space = 0 → j = 0 → returns s.cmd.toNat) ∧
    (space = 0 → j = 1 → returns ((errCode s.status.err).toNat * 4 + s.status.done.toNat * 2)) ∧
    (space = 0 → j = 2 → returns (s.cfg.bfw.toNat * 2 + s.cfg.dord.code.toNat)) ∧
    (space = 0 → j = 3 → returns s.lmaxr) ∧
    (space = 0 → j = 4 → returns s.inLen) ∧
    (space = 0 → j = 5 → returns s.wLen) ∧
    (space = 0 → j = 6 → returns s.digLen) ∧
    (space = 0 → j = 7 → returns s.txtLen) ∧
    (space = 0 → j = 8 → returns s.digRadix.code.toNat) ∧
    (space = 1 → j < 2 * s.lmaxr + 2 → ∀ b, s.inBuf.read? j = some b → returns b.toNat) ∧
    (space = 1 → j < 2 * s.lmaxr + 2 → s.inBuf.read? j = none → returnsFree 8) ∧
    (space = 2 → ∀ b, s.wBuf[j]? = some b → returns b.toNat) ∧
    (space = 2 → s.wLen ≤ j → j < s.lmaxr → returnsFree 8) ∧
    (space = 3 → ∀ d, s.digBuf[j]? = some d → returns d.toNat) ∧
    (space = 3 → s.digLen ≤ j → j < 8 * s.lmaxr → returnsFree 4) ∧
    (space = 4 → ∀ b, s.txtBuf[j]? = some b → returns b.toNat) ∧
    (space = 4 → s.txtLen ≤ j → j < 8 * s.lmaxr → returnsFree 8)

/-- `30_encoding.md`, section 5 (`LOAD`, `LOADS`): after the actions of a LOAD of at most IN_MAX bytes on an idle engine, IN_LEN
is their number and the engine reads exactly those bytes; no other element of IN and no other register changes. LOADS of a string
of ASCII characters is the LOAD of their codes (log 14). -/
def Obligations.LoadPutsTheOperand : Prop :=
  (∀ (s : State) (bytes : List Byte), s.Inv → s.status.busy = false → bytes.length ≤ 2 * s.lmaxr + 2 → s.script = load bytes →
    ∃ t, stepTimes (bytes.length + 1) s = .next t ∧ t.inLen = bytes.length ∧ t.inBytes bytes.length = bytes ∧
      (∀ a, bytes.length ≤ a → t.inBuf.read? a = s.inBuf.read? a) ∧
      t = { s with script := [], inLen := t.inLen, inBuf := t.inBuf }) ∧
  (∀ cs : List Char, (∀ c ∈ cs, c.toNat < 128) → loadString cs = some (load (cs.map fun c => BitVec.ofNat 8 c.toNat))) ∧
  (∀ cs : List Char, (∃ c ∈ cs, 128 ≤ c.toNat) → loadString cs = none)

/-- `30_encoding.md`, section 5 (`GETW`, `GETD`, `GETT`): on an idle engine the host reads the length, then exactly the valid
elements, and nothing in the block changes. (That BUSY alone decides, also before the host has seen DONE = 1, is the model's
choice, log 19.) -/
def Obligations.GetReadsTheValidElements : Prop :=
  ∀ (s : State) (buf : ResultBuf), s.Inv → s.status.busy = false → s.script = [.get buf] →
    let held : List Nat := match buf with
      | .w => s.wBuf.map BitVec.toNat
      | .dig => s.digBuf.map BitVec.toNat
      | .txt => s.txtBuf.map BitVec.toNat
    stepTimes (held.length + 1) s = .next { s with script := [], seen := s.seen ++ held.length :: held }

/-- `30_encoding.md`, section 5 (`WAIT`): it notes STATUS and goes on when DONE is 1, and otherwise stays while the engine moves.
-/
def Obligations.WaitPollsUntilDone : Prop :=
  ∀ (s : State) (rest : List HostAct), s.Inv → s.script = .wait :: rest →
    (s.status.done = true → step s = .next
      { s with script := rest, seen := s.seen ++ [(errCode s.status.err).toNat * 4 + 2] }) ∧
    (s.status.done = false → ∃ t, step s = .next t ∧ engineTurn s = .next t ∧ t.script = .wait :: rest ∧ t.seen = s.seen)

/-! ### Unit NRM -/

/-- `40_normalizer.md` R82 (NORM.B): its encoding, its two errors, W in canonical order with its value, and what it leaves
unchanged. -/
def Obligations.NormBWritesCanonicalBytes : Prop :=
  (∀ w : Byte, w &&& 0x23 = 0x00 ↔ ∃ ordv ord kind, kind.isBytes = true ∧ decodeWord w = .normB ordv ord kind) ∧
  ∀ (ordv : Bool) (ord : ByteOrder) (kind : InputKind) (s : State), s.phase = .norm →
    let n := s.inLen
    let order := if ordv then ord else s.cfg.dord
    ∃ t, exec (.normB ordv ord kind) s = .next t ∧
      SameOutside s t ∧ SameHidden s t ∧ t.digRadix = s.digRadix ∧ t.digLen = 0 ∧ t.txtLen = 0 ∧
      (n = 0 → EndedWith .emptyInput t ∧ t.wLen = 0) ∧
      (n ≠ 0 → n > s.lmaxr → EndedWith .capacity t ∧ t.wLen = 0) ∧
      (n ≠ 0 → n ≤ s.lmaxr → Finished s t ∧ t.wLen = n ∧ t.wBuf.length = n ∧
        (∀ i < n, t.wBuf[i]? = some (s.inByte (if order = .bigEndian then n - 1 - i else i))) ∧
        (order = .bigEndian → valLE t.wBuf = ∑ i ∈ Finset.range n, (s.inByte i).toNat * 256 ^ (n - 1 - i)) ∧
        (order = .littleEndian → valLE t.wBuf = ∑ i ∈ Finset.range n, (s.inByte i).toNat * 256 ^ i))

/-- `40_normalizer.md` R89: a schedule that swaps each mirrored pair once, from the high half down to the midpoint, is the
reversal. -/
def Obligations.SwapScheduleIsReversal : Prop :=
  ∀ l : List Byte, reverseBySwaps l = l.reverse ∧ ∀ i < l.length, (reverseBySwaps l)[i]? = l[l.length - 1 - i]?

/-- `40_normalizer.md`, section 3 (prefix): it is recognised only at position 0, only once, only with two characters present. (The
codes of `0`, `x` and `X` are ASCII, the spec's own general knowledge, log 14.) -/
def Obligations.HexPrefixRule : Prop :=
  ∀ (s : State) (n : Nat),
    prefixLen (s.inBytes n) =
      if 2 ≤ n ∧ s.inByte 0 = 0x30 ∧ (s.inByte 1 = 0x78 ∨ s.inByte 1 = 0x58) then 2 else 0

/-- `40_normalizer.md`, section 3 (character check): exactly the 22 hexadecimal digit characters have a value, and it is the
digit's. -/
def Obligations.HexCharacterValues : Prop :=
  ∀ c : Byte,
    (0x30 ≤ c.toNat → c.toNat ≤ 0x39 → ∃ d, hexval c = some d ∧ d.toNat + 0x30 = c.toNat) ∧
    (0x61 ≤ c.toNat → c.toNat ≤ 0x66 → ∃ d, hexval c = some d ∧ d.toNat + 0x61 = c.toNat + 10) ∧
    (0x41 ≤ c.toNat → c.toNat ≤ 0x46 → ∃ d, hexval c = some d ∧ d.toNat + 0x41 = c.toNat + 10) ∧
    (¬ (0x30 ≤ c.toNat ∧ c.toNat ≤ 0x39) → ¬ (0x61 ≤ c.toNat ∧ c.toNat ≤ 0x66) → ¬ (0x41 ≤ c.toNat ∧ c.toNat ≤ 0x46) →
      hexval c = none)

/-- `40_normalizer.md` R83 (NORM.X): its encoding, its errors in order, W as the value of the digit string read most significant
first, `ceil(m/2)` bytes, and what it leaves unchanged. -/
def Obligations.NormXReadsHexString : Prop :=
  (∀ w : Byte, w &&& 0x33 = 0x20 ↔ decodeWord w = .normX) ∧
  ∀ s : State, s.phase = .norm →
    let n := s.inLen
    let p := prefixLen (s.inBytes n)
    let m := n - p
    let bad := ∃ q < m, hexval (s.inByte (p + q)) = none
    ∃ t, exec .normX s = .next t ∧
      SameOutside s t ∧ SameHidden s t ∧ t.digRadix = s.digRadix ∧ t.digLen = 0 ∧ t.txtLen = 0 ∧
      (n > 2 * s.lmaxr + 2 ∨ m > 2 * s.lmaxr → EndedWith .capacity t ∧ t.wLen = 0) ∧
      (n ≤ 2 * s.lmaxr + 2 → m ≤ 2 * s.lmaxr → bad → EndedWith .invalidInputKind t ∧ t.wLen = 0) ∧
      (n ≤ 2 * s.lmaxr + 2 → m ≤ 2 * s.lmaxr → ¬ bad → m = 0 → EndedWith .emptyInput t ∧ t.wLen = 0) ∧
      (n ≤ 2 * s.lmaxr + 2 → m ≤ 2 * s.lmaxr → ¬ bad → m ≠ 0 → Finished s t ∧
        t.wLen = (m + 1) / 2 ∧ t.wBuf.length = t.wLen ∧
        ∃ ds : List Nibble, ds.length = m ∧ (∀ q < m, hexval (s.inByte (p + q)) = ds[q]?) ∧ valLE t.wBuf = valMS 16 ds)

/-- `40_normalizer.md` R90 (NORM.K3): always InvalidInputKind, whatever IN and IN_LEN hold; its encoding and what it leaves
unchanged. -/
def Obligations.NormK3AlwaysInvalid : Prop :=
  (∀ w : Byte, w &&& 0x33 = 0x30 ↔ decodeWord w = .normK3) ∧
  ∀ s : State, s.phase = .norm →
    ∃ t, exec .normK3 s = .next t ∧ EndedWith .invalidInputKind t ∧ t.wLen = 0 ∧ t.digLen = 0 ∧ t.txtLen = 0 ∧
      SameOutside s t ∧ SameHidden s t ∧ t.digRadix = s.digRadix

/-- `40_normalizer.md` R81: a NORM phase discards the results of every later stage, and leaves W_LEN = 0 unless it succeeds; after
a failed one every CONV and REND raises EmptyInput. -/
def Obligations.NormDiscardsEarlierResults : Prop :=
  ∀ (i : Instr) (s t : State), s.phase = .norm → s.status.err = none → exec i s = .next t →
    t.digLen = 0 ∧ t.txtLen = 0 ∧
    (t.status.err ≠ none → t.wLen = 0 ∧
      (∀ w : Byte, opField w = 1 ∨ opField w = 2 → ∃ u, runCommand w t = .next u ∧ EndedWith .emptyInput u)) ∧
    (t.status.err = none → 0 < t.wLen)

/-! ### Unit DD -/

/-- `41_decimal_double_dabble.md` R101 (entry step, CONV.DEC and FMT.DEC): clear, raise EmptyInput without a ByteSequence, else
copy W to S, clear ACC and IT and enter the loop; nothing else changes. -/
def Obligations.DecimalEntryStep : Prop :=
  ∀ (i : Instr) (s : State), s.phase = .conv → (i = .convDec ∨ ∃ ordv ord kind, i = .fmtDec ordv ord kind) →
    ∃ t, exec i s = .next t ∧ t.digLen = 0 ∧ t.txtLen = 0 ∧ SameOutside s t ∧ t.wLen = s.wLen ∧ t.digRadix = s.digRadix ∧
      t.carry = s.carry ∧
      (s.wLen = 0 → EndedWith .emptyInput t ∧ SameHidden s t) ∧
      (s.wLen ≠ 0 → SameW s t ∧ t.phase = .dd ∧ t.status = s.status ∧ t.it = 0 ∧ t.sBuf = s.wBytes ∧
        t.accBuf.length = 8 * s.wLen / 3 + 2 ∧ ∀ d ∈ t.accBuf, d = 0)

/-- `41_decimal_double_dabble.md`, section 2 (iteration step, CONV.DEC and FMT.DEC): capture, then shift, then double, then `IT +
1`, and nothing else changes. -/
def Obligations.DecimalIterationStep : Prop :=
  ∀ (i : Instr) (s : State), s.phase = .dd → s.it < 8 * s.wLen → (i = .convDec ∨ ∃ ordv ord kind, i = .fmtDec ordv ord kind) →
    ∃ t, exec i s = .next t ∧ t.sBuf = shiftLeft1 s.sBytes ∧
      (t.accBuf, t.carry) = doubleSlots s.accSlots (topBit s.sBytes) ∧ t.it = s.it + 1 ∧
      t.phase = s.phase ∧ t.status = s.status ∧ SameOutside s t ∧ SameW s t ∧ SameDig s t ∧ SameTxt s t

/-- `41_decimal_double_dabble.md`, section 2 (step 2a): the captured bit is bit 7 of the highest byte, the top bit of the value.
-/
def Obligations.CapturedBitIsTopBit : Prop :=
  ∀ bs : List Byte, bs ≠ [] →
    (∃ b, bs[bs.length - 1]? = some b ∧ topBit bs = b.getLsbD 7) ∧
    (topBit bs).toNat = valLE bs / 2 ^ (8 * bs.length - 1)

/-- `41_decimal_double_dabble.md` R105: every byte takes in the old top bit of the next lower one, the lowest byte a 0; as a
value, doubling modulo `2^n`. -/
def Obligations.ShiftDoublesTheValue : Prop :=
  ∀ bs : List Byte, (shiftLeft1 bs).length = bs.length ∧
    (∀ b : Byte, bs[0]? = some b → (shiftLeft1 bs)[0]? = some ((b <<< 1) &&& 0xFF)) ∧
    (∀ (j : Nat) (b a : Byte), 1 ≤ j → bs[j]? = some b → bs[j - 1]? = some a →
      (shiftLeft1 bs)[j]? = some (((b <<< 1) &&& 0xFF) ||| (a >>> 7))) ∧
    valLE (shiftLeft1 bs) = 2 * valLE bs % 2 ^ (8 * bs.length)

/-- `41_decimal_double_dabble.md`, section 2 (step 2c) with section 3's digit range: on decimal digits the update keeps decimal
digits, and as a value it doubles and adds the captured bit, the carry left over weighing `10^slots`. The range and the leftover
carry are the spec's own derivation ("[derived: from rule R106]"). -/
def Obligations.DigitUpdateDoublesTheValue : Prop :=
  ∀ (ds : List Nibble) (c : Bool), (∀ d ∈ ds, d.toNat ≤ 9) →
    (doubleSlots ds c).1.length = ds.length ∧ (∀ d ∈ (doubleSlots ds c).1, d.toNat ≤ 9) ∧
    valMS 10 (doubleSlots ds c).1 + (doubleSlots ds c).2.toNat * 10 ^ ds.length = 2 * valMS 10 ds + c.toNat

/-- `41_decimal_double_dabble.md` R107 (commit step, CONV.DEC and FMT.DEC): the slots are the digits, index for index; then REND
(FMT) or finish (CONV.DEC). -/
def Obligations.DecimalCommitStep : Prop :=
  ∀ s : State, s.phase = .dd → 8 * s.wLen ≤ s.it →
    (∃ t, exec .convDec s = .next t ∧ Finished s t ∧ t.digBuf = s.accSlots ∧ t.digLen = 8 * s.wLen / 3 + 2 ∧
      t.digRadix.code = 0 ∧ SameOutside s t ∧ SameW s t ∧ SameTxt s t ∧ SameHidden s t) ∧
    (∀ ordv ord kind, ∃ t, exec (.fmtDec ordv ord kind) s = .next t ∧ t.phase = .rend ∧ t.status = s.status ∧
      t.digBuf = s.accSlots ∧ t.digLen = 8 * s.wLen / 3 + 2 ∧ t.digRadix.code = 0 ∧
      SameOutside s t ∧ SameW s t ∧ SameTxt s t ∧ SameHidden s t)

/-- `41_decimal_double_dabble.md`, section 3 (loop invariant, digit range, no overflow; the spec's own derivation): after the
entry step and `k` iterations ACC holds the top `k` bits of V and S the rest, the slots are decimal digits, the carry is 0 and
slot 0 is 0. -/
def Obligations.DoubleDabbleLoopInvariant : Prop :=
  ∀ (s : State) (k : Nat), s.phase = .conv → 0 < s.wLen → k ≤ 8 * s.wLen →
    let v := valLE s.wBytes
    let n := 8 * s.wLen
    ∃ t, execTimes .convDec (k + 1) s = .next t ∧ t.phase = .dd ∧ t.it = k ∧
      valMS 10 t.accSlots = v / 2 ^ (n - k) ∧ valLE t.sBytes = v * 2 ^ k % 2 ^ n ∧
      (∀ d ∈ t.accSlots, d.toNat ≤ 9) ∧ (1 ≤ k → t.carry = false) ∧ t.accSlots[0]? = some 0 ∧
      valMS 10 t.accSlots ≤ 2 ^ k - 1 ∧ SameW s t

/-- `41_decimal_double_dabble.md`, sections 1 and 3 (the command CONV.DEC whole; the result is the spec's own derivation): after
`8·L + 2` engine steps the command has finished, DIG holds the `CAP(L)` decimal digits of the value of W, most significant first,
with `DIG[0] = 0`; W is unchanged, S is all zero and C is 0. -/
def Obligations.DecimalConversionResult : Prop :=
  ∀ s : State, s.phase = .conv → 0 < s.wLen →
    ∃ t, execTimes .convDec (8 * s.wLen + 2) s = .next t ∧ Finished s t ∧
      t.digLen = 8 * s.wLen / 3 + 2 ∧ t.digBuf.length = t.digLen ∧ t.digRadix = .dec ∧
      valMS 10 t.digBuf = valLE s.wBytes ∧ (∀ d ∈ t.digBuf, d.toNat ≤ 9) ∧ t.digBuf[0]? = some 0 ∧
      t.txtLen = 0 ∧ SameOutside s t ∧ SameW s t ∧ (∀ b ∈ t.sBuf, b = 0) ∧ t.carry = false

/-- `41_decimal_double_dabble.md`, section 1 (capacity): `CAP(L) = floor(8L/3) + 2` slots hold every value of `L` bytes with one
slot to spare, and all raw digit counts fit DIG (`10_state.md`, section 2). -/
def Obligations.CapacityIsSufficient : Prop :=
  ∀ (len : Nat) (bs : List Byte), 1 ≤ len → bs.length = len →
    valLE bs < 2 ^ (8 * len) ∧ 2 ^ (8 * len) < 10 ^ (8 * len / 3 + 2 - 1) ∧ cap len = 8 * len / 3 + 2 ∧
    cap len ≤ digMax len ∧ 2 * len ≤ digMax len ∧ octCount (8 * len) ≤ digMax len

/-- `41_decimal_double_dabble.md`, section 3 (the spec's own derivation): on decimal digits the parallel add-3 form is the digit
update. -/
def Obligations.AddThreeFormIsEqual : Prop :=
  ∀ (ds : List Nibble) (c : Bool), (∀ d ∈ ds, d.toNat ≤ 9) → add3Slots ds c = (doubleSlots ds c).1

/-- `41_decimal_double_dabble.md`, section 3 (freedom of implementation (b)): stopping the slot loop once C = 0 and every
remaining more significant slot is 0 changes no result. -/
def Obligations.EarlyExitIsSound : Prop :=
  ∀ (ds : List Nibble) (c : Bool), doubleSlotsEarly ds c = doubleSlots ds c

/-! ### Unit RX -/

/-- `42_radix_pow2.md` R131 (CONV.HEX): its encoding, EmptyInput, the nibbles, the value, and what it leaves unchanged. -/
def Obligations.ConvHexWritesNibbles : Prop :=
  (∀ w : Byte, w &&& 0x0F = 0x05 ↔ decodeWord w = .convHex) ∧
  ∀ s : State, s.phase = .conv →
    let len := s.wLen
    ∃ t, exec .convHex s = .next t ∧ t.txtLen = 0 ∧ SameOutside s t ∧ t.wLen = len ∧ SameHidden s t ∧
      (len = 0 → EndedWith .emptyInput t ∧ t.digLen = 0 ∧ t.digRadix = s.digRadix) ∧
      (len ≠ 0 → Finished s t ∧ SameW s t ∧ t.digRadix.code = 1 ∧ t.digLen = 2 * len ∧ t.digBuf.length = 2 * len ∧
        valMS 16 t.digBuf = valLE s.wBytes ∧
        ∀ k < len, ∃ b, s.wBytes[len - 1 - k]? = some b ∧
          t.digBuf[2 * k]? = some ((b >>> 4).setWidth 4) ∧ t.digBuf[2 * k + 1]? = some ((b &&& 0xF).setWidth 4))

/-- `42_radix_pow2.md` R132 (CONV.BIN): its encoding, EmptyInput, the bits, the value, and what it leaves unchanged. -/
def Obligations.ConvBinWritesBits : Prop :=
  (∀ w : Byte, w &&& 0x0F = 0x0D ↔ decodeWord w = .convBin) ∧
  ∀ s : State, s.phase = .conv →
    let len := s.wLen
    ∃ t, exec .convBin s = .next t ∧ t.txtLen = 0 ∧ SameOutside s t ∧ t.wLen = len ∧ SameHidden s t ∧
      (len = 0 → EndedWith .emptyInput t ∧ t.digLen = 0 ∧ t.digRadix = s.digRadix) ∧
      (len ≠ 0 → Finished s t ∧ SameW s t ∧ t.digRadix.code = 3 ∧ t.digLen = 8 * len ∧ t.digBuf.length = 8 * len ∧
        valMS 2 t.digBuf = valLE s.wBytes ∧
        ∀ k < len, ∀ j < 8, ∃ b d, s.wBytes[len - 1 - k]? = some b ∧ t.digBuf[8 * k + j]? = some d ∧
          d.toNat = (b.getLsbD (7 - j)).toNat ∧ d.toNat = valLE s.wBytes / 2 ^ (8 * len - 1 - (8 * k + j)) % 2)

/-- `42_radix_pow2.md` R133 (CONV.OCT): its encoding, EmptyInput, the groups of three bits, the value, and what it leaves
unchanged. -/
def Obligations.ConvOctWritesTriples : Prop :=
  (∀ w : Byte, w &&& 0x0F = 0x09 ↔ decodeWord w = .convOct) ∧
  ∀ s : State, s.phase = .conv →
    let len := s.wLen
    let g := (8 * len + 2) / 3
    ∃ t, exec .convOct s = .next t ∧ t.txtLen = 0 ∧ SameOutside s t ∧ t.wLen = len ∧ SameHidden s t ∧
      (len = 0 → EndedWith .emptyInput t ∧ t.digLen = 0 ∧ t.digRadix = s.digRadix) ∧
      (len ≠ 0 → Finished s t ∧ SameW s t ∧ t.digRadix.code = 2 ∧ t.digLen = g ∧ t.digBuf.length = g ∧
        valMS 8 t.digBuf = valLE s.wBytes ∧
        ∀ k < g, ∃ d, t.digBuf[k]? = some d ∧ d.toNat = valLE s.wBytes / 8 ^ (g - 1 - k) % 8)

/-! ### Unit RND -/

/-- `43_renderer.md` R150 (REND): its encoding, EmptyInput without a DigitSequence, else TXT as the digits from the first kept one
on through the alphabet; what it leaves unchanged (of W the length, and on success the bytes: after an error R184 leaves them
unspecified). -/
def Obligations.RendWritesTrimmedText : Prop :=
  (∀ w : Byte, w &&& 0x03 = 0x02 ↔ decodeWord w = .rend) ∧
  ∀ s : State, s.phase = .rend →
    let n := s.digLen
    let first := if s.cfg.bfw = true ∧ s.digRadix.code = 3 then 0 else trimIndex s.digits
    ∃ t, exec .rend s = .next t ∧ SameOutside s t ∧ t.wLen = s.wLen ∧ SameDig s t ∧ SameHidden s t ∧
      (n = 0 → EndedWith .emptyInput t ∧ t.txtLen = 0) ∧
      (n ≠ 0 → Finished s t ∧ SameW s t ∧ first < n ∧ t.txtLen = n - first ∧ t.txtBuf.length = n - first ∧ 1 ≤ t.txtLen ∧ t.txtLen ≤ n ∧
        ∀ j < n - first, ∃ d, s.digits[first + j]? = some d ∧ t.txtBuf[j]? = some (alpha d))

/-- `43_renderer.md` R151: the trim index is the least index of a non-zero digit; the last index when all digits are 0. -/
def Obligations.TrimIndexRule : Prop :=
  ∀ ds : List Nibble, ds ≠ [] →
    ((∀ d ∈ ds, d = 0) → trimIndex ds = ds.length - 1) ∧
    (∀ k d, ds[k]? = some d → d ≠ 0 → (∀ j < k, ds[j]? = some 0) → trimIndex ds = k)

/-- `43_renderer.md`, section 1 (alphabet): `0123456789abcdef`. The ASCII codes are the spec's own general knowledge, not the
source's (log 14). -/
def Obligations.AlphabetCodes : Prop :=
  (∀ v : Nibble, v.toNat ≤ 9 → (alpha v).toNat = 0x30 + v.toNat) ∧
  (∀ v : Nibble, 10 ≤ v.toNat → (alpha v).toNat = 0x61 + v.toNat - 10) ∧
  (List.range 16).map (fun v => Char.ofNat (alpha (BitVec.ofNat 4 v)).toNat) =
    ['0', '1', '2', '3', '4', '5', '6', '7', '8', '9', 'a', 'b', 'c', 'd', 'e', 'f']

/-- `43_renderer.md` R152: a DigitSequence of zeros renders as exactly one `0`, in every radix and of every length; under the
fixed-width policy that fails in radix 2 (there every digit is rendered). -/
def Obligations.ZeroRendersAsOneZero : Prop :=
  ∀ s : State, s.phase = .rend → 0 < s.digLen → (∀ d ∈ s.digits, d = 0) →
    (¬ (s.cfg.bfw = true ∧ s.digRadix = .bin) →
      ∃ t, exec .rend s = .next t ∧ Finished s t ∧ t.txtLen = 1 ∧ t.txtBuf = [0x30]) ∧
    (s.cfg.bfw = true ∧ s.digRadix = .bin →
      ∃ t, exec .rend s = .next t ∧ Finished s t ∧ t.txtLen = s.digLen ∧ t.txtBuf = List.replicate s.digLen 0x30)

/-- `43_renderer.md`, section 2 (laws (a) to (d), the spec's own derivation): the trimmed text of a digit sequence is the numeral
of its value. (ASCII codes: log 14.) -/
def Obligations.TrimmedTextIsNumeral : Prop :=
  ∀ (r : Radix) (ds : List Nibble), ds ≠ [] → (∀ d ∈ ds, d.toNat < r.base) →
    renderText false r ds = numeral r (valMS r.base ds) ∧
    (renderText false r ds)[0]? ≠ none ∧
    ((renderText false r ds)[0]? = some 0x30 → renderText false r ds = [0x30] ∧ valMS r.base ds = 0)

/-! ### Errors -/

/-- `60_exceptions.md`, section 4 (error entry): an error ends the command as one action, in any phase, with the lengths of the
failed and later stages 0 and the elements of W, DIG and TXT unspecified: those of W below a W_LEN that stays (a failed REND) are
free values of a new draw (log 5), all others are none or read as unspecified. IN, IN_LEN, CMD, CFG, the hidden registers and
DIG_RADIX are unchanged. -/
def Obligations.ErrorEntry : Prop :=
  ∀ (i : Instr) (s t : State) (e : Err), s.status.err = none → exec i s = .next t → t.status.err = some e →
    EndedWith e t ∧ SameOutside s t ∧ SameHidden s t ∧ t.digRadix = s.digRadix ∧
    (s.phase = .norm → t.wLen = 0 ∧ t.digLen = 0 ∧ t.txtLen = 0) ∧
    (s.phase = .conv → t.wLen = 0 ∧ s.wLen = 0 ∧ t.digLen = 0 ∧ t.txtLen = 0) ∧
    (s.phase = .rend → t.wLen = s.wLen ∧ t.digLen = 0 ∧ s.digLen = 0 ∧ t.txtLen = 0 ∧
      s.draws < t.draws ∧ ∀ j < s.wLen, t.wBuf[j]? = some (Config.freeBits 8 s.draws j)) ∧
    (∀ j, (t.wLen ≤ j → elemDatum t.wBuf t.wLen j = .unspecified 8) ∧
      elemDatum t.digBuf t.digLen j = .unspecified 4 ∧ elemDatum t.txtBuf t.txtLen j = .unspecified 8)

/-- `60_exceptions.md`, sections 1 and 3: which command raises which error in which phase; InvalidInputKind and Capacity arise in
a NORM phase only, and CONV and REND raise EmptyInput only, for an absent operand. -/
def Obligations.ErrorsByPhase : Prop :=
  ∀ (i : Instr) (s t : State) (e : Err), s.status.err = none → exec i s = .next t → t.status.err = some e →
    (s.phase = .norm ∨ e = .emptyInput) ∧
    (e = .capacity → s.phase = .norm ∧ s.inLen > s.lmaxr) ∧
    (s.phase = .conv → s.wLen = 0) ∧ (s.phase = .rend → s.digLen = 0) ∧ s.phase ≠ .idle ∧ s.phase ≠ .dd ∧
    (∀ ordv ord kind, i = .normB ordv ord kind → e ≠ .invalidInputKind)

/-- `60_exceptions.md`, section 3 (priority): a KIND of 3 is InvalidInputKind before IN or IN_LEN is looked at; a string too long
that also holds a bad character is Capacity; in FMT as in NORM. -/
def Obligations.ErrorPriority : Prop :=
  ∀ (r : Radix) (ordv : Bool) (ord : ByteOrder) (kind : InputKind) (s : State), s.phase = .norm →
    (kind.code = 3 →
      (∃ t, exec (normOf ordv ord kind) s = .next t ∧ EndedWith .invalidInputKind t) ∧
      (∃ t, exec (fmtOf r ordv ord kind) s = .next t ∧ EndedWith .invalidInputKind t)) ∧
    (kind.code = 2 → s.inLen > 2 * s.lmaxr + 2 ∨ s.inLen - prefixLen (s.inBytes s.inLen) > 2 * s.lmaxr →
      (∃ t, exec (normOf ordv ord kind) s = .next t ∧ EndedWith .capacity t) ∧
      (∃ t, exec (fmtOf r ordv ord kind) s = .next t ∧ EndedWith .capacity t))

/-- `60_exceptions.md`, section 5: ERR keeps its code until the next accepted CMD write or reset, which clears it. -/
def Obligations.ErrorPersistsUntilNextCommand : Prop :=
  ∀ (s t : State) (e : Err), s.Inv → s.status.err = some e → step s = .next t →
    t.status = s.status ∨
    (∃ index v rest, s.script = .write 0 index v :: rest ∧ index % 2 ^ lenw s.lmaxr = 0 ∧ t.status = ⟨true, false, none⟩) ∨
    (∃ rest, s.script = .reset :: rest ∧ t.status = ⟨false, false, none⟩)

/-! ### Every command -/

/-- `10_state.md`, section 2 (R14's "no command ever writes IN") with `40_normalizer.md` R93(a): no engine step of any command
changes IN, IN_LEN, CMD, the straps, or anything of the host's. Outside NORM, W_LEN stays, and W too unless the step raises (then
its elements are unspecified, log 5); REND steps leave DIG alone. Only the decimal unit (CONV.DEC and FMT.DEC, in P_CONV and P_DD)
touches S, ACC, C and IT. -/
def Obligations.CommandsLeaveOperandsAlone : Prop :=
  ∀ (i : Instr) (s t : State), exec i s = .next t →
    SameOutside s t ∧
    (s.phase ≠ .norm → t.wLen = s.wLen) ∧
    (s.phase = .idle ∨ s.phase = .dd ∨ (s.phase = .conv ∧ s.wLen ≠ 0) ∨ (s.phase = .rend ∧ s.digLen ≠ 0) → SameW s t) ∧
    (s.phase = .rend ∨ s.phase = .idle → SameDig s t) ∧
    (s.phase ≠ .conv ∧ s.phase ≠ .dd → SameHidden s t) ∧
    (i ≠ .convDec → (∀ ordv ord kind, i ≠ .fmtDec ordv ord kind) → SameHidden s t)

/-- `44_composite_fmt.md` R170, the NORM phase of an FMT command: exactly what the NORM command of its kind does, but that on
success it goes on to P_CONV. -/
def Obligations.FmtNormPhaseIsNorm : Prop :=
  ∀ (r : Radix) (ordv : Bool) (ord : ByteOrder) (kind : InputKind) (s : State), s.phase = .norm → s.status.err = none →
    ∃ t u, exec (normOf ordv ord kind) s = .next t ∧ exec (fmtOf r ordv ord kind) s = .next u ∧
      (t.status.err ≠ none → u = t) ∧
      (t.status.err = none → u = { t with phase := .conv, status := s.status })

/-- `44_composite_fmt.md` R170, the later phases of an FMT command: the CONV phase does what the CONV command of its radix does
and goes on, the REND phase does what REND does. (FMT.DEC's iteration and commit are stated with the decimal unit.) -/
def Obligations.FmtLaterPhasesAreConvAndRend : Prop :=
  ∀ (r : Radix) (ordv : Bool) (ord : ByteOrder) (kind : InputKind) (s : State), s.status.err = none →
    (s.phase = .conv → 0 < s.wLen → r ≠ .dec →
      ∃ t, exec (convOf r) s = .next t ∧
        exec (fmtOf r ordv ord kind) s = .next { t with phase := .rend, status := s.status }) ∧
    (s.phase = .conv → 0 < s.wLen → r = .dec → exec (fmtOf r ordv ord kind) s = exec .convDec s) ∧
    (s.phase = .rend → 0 < s.digLen → ∃ t, exec .rend s = .next t ∧ exec (fmtOf r ordv ord kind) s = .next t ∧ Finished s t)

/-- `44_composite_fmt.md`, R172 and R173 (the spec's own derivation): an FMT command on `1 ≤ n ≤ LMAX` bytes ends without error
after exactly its number of steps, with TXT the numeral of the input's value in its radix, W the canonical bytes and DIG its
digits. (ASCII codes: log 14.) -/
def Obligations.FmtTextIsNumeralOfInput : Prop :=
  ∀ (r : Radix) (ordv : Bool) (ord : ByteOrder) (kind : InputKind) (s : State), s.phase = .norm → kind.isBytes = true →
    0 < s.inLen → s.inLen ≤ s.lmaxr → ¬ (s.cfg.bfw = true ∧ r = .bin) →
    let order := if ordv then ord else s.cfg.dord
    let v := valueIn order (s.inBytes s.inLen)
    ∃ t, execTimes (fmtOf r ordv ord kind) (stepCount s.inLen (fmtOf r ordv ord kind)) s = .next t ∧ Finished s t ∧
      t.txtBuf = numeral r v ∧ t.txtLen = (numeral r v).length ∧
      t.wBuf = orient order (s.inBytes s.inLen) ∧ t.wLen = s.inLen ∧
      t.digRadix = r ∧ valMS r.base t.digBuf = v ∧ t.digBuf.length = t.digLen ∧ SameOutside s t

/-- `44_composite_fmt.md`, R171 (the spec's own derivation): FMT leaves exactly what NORM, CONV and REND leave when the host stops
at the first error; a host that does not stop gets EmptyInput from the later commands. -/
def Obligations.FmtEqualsStagedCommands : Prop :=
  ∀ (r : Radix) (ordv : Bool) (ord : ByteOrder) (kind : InputKind) (s : State), s.Inv → s.status.busy = false →
    ∃ a b c t, runCommand (encode (normOf ordv ord kind)) s = .next a ∧ runCommand (encode (convOf r)) a = .next b ∧
      runCommand (encode .rend) b = .next c ∧ runCommand (encode (fmtOf r ordv ord kind)) s = .next t ∧
      (a.status.err = none → b.status.err = none ∧ c.status.err = none ∧ SameResults c t) ∧
      (a.status.err ≠ none → SameResults a t ∧ b.status.err = some .emptyInput ∧ c.status.err = some .emptyInput)

/-- `44_composite_fmt.md`, R173 (round trip, the spec's own derivation): the hexadecimal text of a value, given back as a HEXSTR
input that fits, is read by NORM.X as that value, in `ceil(length/2)` bytes. (ASCII codes: log 14.) -/
def Obligations.HexTextRoundTrip : Prop :=
  ∀ (s : State) (v : Nat), s.phase = .norm → s.inBytes s.inLen = numeral .hex v → s.inLen ≤ 2 * s.lmaxr →
    ∃ t, exec .normX s = .next t ∧ Finished s t ∧ valLE t.wBuf = v ∧ t.wLen = (s.inLen + 1) / 2

/-- `44_composite_fmt.md`, R173 (byte-order symmetry, the spec's own derivation): BigEndian on a byte sequence and LittleEndian on
its reverse give the same W, and the same text in every radix. -/
def Obligations.ByteOrderSymmetry : Prop :=
  ∀ (s s' : State) (kind : InputKind) (r : Radix), kind.isBytes = true → s.phase = .norm → s'.phase = .norm →
    s'.inLen = s.inLen → 0 < s.inLen → s.inLen ≤ s.lmaxr → s'.lmaxr = s.lmaxr → s'.cfg.bfw = s.cfg.bfw →
    s'.inBytes s'.inLen = (s.inBytes s.inLen).reverse →
    (∃ t t', exec (.normB true .bigEndian kind) s = .next t ∧ exec (.normB true .littleEndian kind) s' = .next t' ∧ SameW t t') ∧
    (∃ t t' k, execTimes (fmtOf r true .bigEndian kind) k s = .next t ∧ execTimes (fmtOf r true .littleEndian kind) k s' = .next t' ∧
      t.phase = .idle ∧ t'.phase = .idle ∧ SameTxt t t' ∧ SameDig t t')

/-- `70_reset_and_hazards.md`, section 4 (R211, the spec's own derivation): every command ends, after exactly the number of engine
steps of its kind, or after one when it raises. -/
def Obligations.CommandStepCounts : Prop :=
  ∀ s : State, s.Inv → s.status.busy = true → s.phase = startPhase s.cmd →
    let i := decodeWord s.cmd
    ∃ n t, execTimes i n s = .next t ∧ t.phase = .idle ∧ t.status.done = true ∧
      n = (if t.status.err = none then stepCount t.wLen i else 1) ∧
      ∀ k < n, ∃ u, execTimes i k s = .next u ∧ u.phase ≠ .idle

/-- `70_reset_and_hazards.md`, section 4 (R211, R213): from every state that satisfies the invariant, with no host action pending,
BUSY is 0 after at most `8·LMAX + 4` steps. -/
def Obligations.BusyClearsWithinBound : Prop :=
  ∀ s : State, s.Inv → s.script = [] →
    ∃ t, stepTimes (8 * s.lmaxr + 4) s = .next t ∧ t.status.busy = false ∧ (s.status.busy = true → t.status.done = true)

/-- `10_state.md`, section 7 (R31, the spec's own derivation): what a command writes depends on its word, CFG and its own
operands, never on TXT, on the hidden registers, on an earlier STATUS or on how many commands ran before. A NORM or FMT command's
operand is one the host has written whole. -/
def Obligations.ResultsDependOnOperandsOnly : Prop :=
  ∀ (w : Byte) (s s' : State), s.Inv → s'.Inv → s.status.busy = false → s'.status.busy = false →
    s'.cfg = s.cfg → s'.lmaxr = s.lmaxr →
    ∃ t t', runCommand w s = .next t ∧ runCommand w s' = .next t' ∧
      (opField w = 0 ∨ opField w = 3 → s'.inLen = s.inLen → s'.inBuf = s.inBuf → (∀ i < s.inLen, s.inBuf.read? i ≠ none) →
        SameW t t' ∧ t'.digLen = t.digLen ∧ t'.digBuf = t.digBuf ∧ SameTxt t t' ∧ t'.status = t.status ∧
          (opField w = 3 → t.status.err = none → t'.digRadix = t.digRadix)) ∧
      (opField w = 1 → SameW s s' →
        t'.digLen = t.digLen ∧ t'.digBuf = t.digBuf ∧ t'.txtLen = t.txtLen ∧ t'.txtBuf = t.txtBuf ∧ t'.status = t.status ∧
          (t.status.err = none → t'.digRadix = t.digRadix)) ∧
      (opField w = 2 → SameDig s s' → SameTxt t t' ∧ t'.status = t.status)
end

