-- ==== Sys2Proof/Laws/Elems.lean ====
section
/-! SUPPORT. The elements in use: their number, and that a buffer that holds them all is read as it is. -/

namespace Sys2Proof.Machine

@[simp] theorem elems_length {k : Nat} (buf : List (BitVec k)) (n draw : Nat) : (elems buf n draw).length = n := by
  simp only [elems, List.length_append, List.length_take, List.length_map, List.length_range]
  omega

/-- A buffer that holds exactly the elements in use is read as it is; no free value is drawn. -/
theorem elems_eq_self {k : Nat} {buf : List (BitVec k)} {n : Nat} (h : buf.length = n) (draw : Nat) : elems buf n draw = buf := by
  subst h
  simp [elems]

/-- With no element in use there is none. -/
@[simp] theorem elems_zero {k : Nat} (buf : List (BitVec k)) (draw : Nat) : elems buf 0 draw = [] :=
  List.length_eq_zero_iff.mp (elems_length ..)

/-- Elements drawn anew are the free values of that draw, one for each index (log 3). -/
theorem elems_nil_getElem? {k n j : Nat} (draw : Nat) (h : j < n) :
    (elems ([] : List (BitVec k)) n draw)[j]? = some (Config.freeBits k draw j) := by
  simp [elems, h]

/-- An operand the host has written whole is read without a free value. -/
theorem inByte_written {s : State} {i : Nat} {b : Byte} (h : s.inBuf.read? i = some b) : s.inByte i = b := by
  simp [State.inByte, h]

@[simp] theorem inBytes_length (s : State) (n : Nat) : (s.inBytes n).length = n := by simp [State.inBytes]

theorem inBytes_getElem? (s : State) {n i : Nat} (h : i < n) : (s.inBytes n)[i]? = some (s.inByte i) := by
  simp [State.inBytes, h]

@[simp] theorem wBytes_length (s : State) : s.wBytes.length = s.wLen := elems_length ..
@[simp] theorem digits_length (s : State) : s.digits.length = s.digLen := elems_length ..
@[simp] theorem sBytes_length (s : State) : s.sBytes.length = s.wLen := elems_length ..
@[simp] theorem accSlots_length (s : State) : s.accSlots.length = cap s.wLen := elems_length ..
@[simp] theorem orient_length (o : ByteOrder) (bs : List Byte) : (orient o bs).length = bs.length := by
  cases o <;> simp [orient]

end Sys2Proof.Machine
end

