-- ==== Sys2Proof/Laws/State.lean ====
section
/-! SUPPORT. One lemma per field of State for each named update, true by `rfl`, so that no later proof unfolds a record update. -/

namespace Sys2Proof.Machine

/-! ### `finish` (`10_state.md` R23) -/

@[simp] theorem finish_cmd (s : State) : (finish s).cmd = s.cmd := rfl
@[simp] theorem finish_status (s : State) : (finish s).status = { s.status with busy := false, done := true } := rfl
@[simp] theorem finish_cfg (s : State) : (finish s).cfg = s.cfg := rfl
@[simp] theorem finish_lmaxr (s : State) : (finish s).lmaxr = s.lmaxr := rfl
@[simp] theorem finish_inLen (s : State) : (finish s).inLen = s.inLen := rfl
@[simp] theorem finish_wLen (s : State) : (finish s).wLen = s.wLen := rfl
@[simp] theorem finish_digLen (s : State) : (finish s).digLen = s.digLen := rfl
@[simp] theorem finish_txtLen (s : State) : (finish s).txtLen = s.txtLen := rfl
@[simp] theorem finish_digRadix (s : State) : (finish s).digRadix = s.digRadix := rfl
@[simp] theorem finish_inBuf (s : State) : (finish s).inBuf = s.inBuf := rfl
@[simp] theorem finish_wBuf (s : State) : (finish s).wBuf = s.wBuf := rfl
@[simp] theorem finish_digBuf (s : State) : (finish s).digBuf = s.digBuf := rfl
@[simp] theorem finish_txtBuf (s : State) : (finish s).txtBuf = s.txtBuf := rfl
@[simp] theorem finish_sBuf (s : State) : (finish s).sBuf = s.sBuf := rfl
@[simp] theorem finish_accBuf (s : State) : (finish s).accBuf = s.accBuf := rfl
@[simp] theorem finish_carry (s : State) : (finish s).carry = s.carry := rfl
@[simp] theorem finish_it (s : State) : (finish s).it = s.it := rfl
@[simp] theorem finish_phase (s : State) : (finish s).phase = .idle := rfl
@[simp] theorem finish_script (s : State) : (finish s).script = s.script := rfl
@[simp] theorem finish_seen (s : State) : (finish s).seen = s.seen := rfl
@[simp] theorem finish_draws (s : State) : (finish s).draws = s.draws := rfl

/-! ### `raiseError` (`60_exceptions.md` R184) -/

@[simp] theorem raiseError_cmd (e : Err) (s : State) : (raiseError e s).cmd = s.cmd := rfl
@[simp] theorem raiseError_status (e : Err) (s : State) : (raiseError e s).status = ⟨false, true, some e⟩ := rfl
@[simp] theorem raiseError_cfg (e : Err) (s : State) : (raiseError e s).cfg = s.cfg := rfl
@[simp] theorem raiseError_lmaxr (e : Err) (s : State) : (raiseError e s).lmaxr = s.lmaxr := rfl
@[simp] theorem raiseError_inLen (e : Err) (s : State) : (raiseError e s).inLen = s.inLen := rfl
@[simp] theorem raiseError_wLen (e : Err) (s : State) : (raiseError e s).wLen = s.wLen := rfl
@[simp] theorem raiseError_digLen (e : Err) (s : State) : (raiseError e s).digLen = s.digLen := rfl
@[simp] theorem raiseError_txtLen (e : Err) (s : State) : (raiseError e s).txtLen = s.txtLen := rfl
@[simp] theorem raiseError_digRadix (e : Err) (s : State) : (raiseError e s).digRadix = s.digRadix := rfl
@[simp] theorem raiseError_inBuf (e : Err) (s : State) : (raiseError e s).inBuf = s.inBuf := rfl
@[simp] theorem raiseError_wBuf (e : Err) (s : State) : (raiseError e s).wBuf = elems [] s.wLen s.draws := rfl
@[simp] theorem raiseError_digBuf (e : Err) (s : State) : (raiseError e s).digBuf = s.digBuf := rfl
@[simp] theorem raiseError_txtBuf (e : Err) (s : State) : (raiseError e s).txtBuf = s.txtBuf := rfl
@[simp] theorem raiseError_sBuf (e : Err) (s : State) : (raiseError e s).sBuf = s.sBuf := rfl
@[simp] theorem raiseError_accBuf (e : Err) (s : State) : (raiseError e s).accBuf = s.accBuf := rfl
@[simp] theorem raiseError_carry (e : Err) (s : State) : (raiseError e s).carry = s.carry := rfl
@[simp] theorem raiseError_it (e : Err) (s : State) : (raiseError e s).it = s.it := rfl
@[simp] theorem raiseError_phase (e : Err) (s : State) : (raiseError e s).phase = .idle := rfl
@[simp] theorem raiseError_script (e : Err) (s : State) : (raiseError e s).script = s.script := rfl
@[simp] theorem raiseError_seen (e : Err) (s : State) : (raiseError e s).seen = s.seen := rfl
@[simp] theorem raiseError_draws (e : Err) (s : State) : (raiseError e s).draws = s.draws + 1 := rfl

/-! ### `acceptCommand` (`20_memory.md` R46) -/

@[simp] theorem acceptCommand_cmd (w : Byte) (s : State) : (acceptCommand w s).cmd = w := rfl
@[simp] theorem acceptCommand_status (w : Byte) (s : State) : (acceptCommand w s).status = ⟨true, false, none⟩ := rfl
@[simp] theorem acceptCommand_cfg (w : Byte) (s : State) : (acceptCommand w s).cfg = s.cfg := rfl
@[simp] theorem acceptCommand_lmaxr (w : Byte) (s : State) : (acceptCommand w s).lmaxr = s.lmaxr := rfl
@[simp] theorem acceptCommand_inLen (w : Byte) (s : State) : (acceptCommand w s).inLen = s.inLen := rfl
@[simp] theorem acceptCommand_wLen (w : Byte) (s : State) : (acceptCommand w s).wLen = s.wLen := rfl
@[simp] theorem acceptCommand_digLen (w : Byte) (s : State) : (acceptCommand w s).digLen = s.digLen := rfl
@[simp] theorem acceptCommand_txtLen (w : Byte) (s : State) : (acceptCommand w s).txtLen = s.txtLen := rfl
@[simp] theorem acceptCommand_digRadix (w : Byte) (s : State) : (acceptCommand w s).digRadix = s.digRadix := rfl
@[simp] theorem acceptCommand_inBuf (w : Byte) (s : State) : (acceptCommand w s).inBuf = s.inBuf := rfl
@[simp] theorem acceptCommand_wBuf (w : Byte) (s : State) : (acceptCommand w s).wBuf = s.wBuf := rfl
@[simp] theorem acceptCommand_digBuf (w : Byte) (s : State) : (acceptCommand w s).digBuf = s.digBuf := rfl
@[simp] theorem acceptCommand_txtBuf (w : Byte) (s : State) : (acceptCommand w s).txtBuf = s.txtBuf := rfl
@[simp] theorem acceptCommand_sBuf (w : Byte) (s : State) : (acceptCommand w s).sBuf = s.sBuf := rfl
@[simp] theorem acceptCommand_accBuf (w : Byte) (s : State) : (acceptCommand w s).accBuf = s.accBuf := rfl
@[simp] theorem acceptCommand_carry (w : Byte) (s : State) : (acceptCommand w s).carry = s.carry := rfl
@[simp] theorem acceptCommand_it (w : Byte) (s : State) : (acceptCommand w s).it = s.it := rfl
@[simp] theorem acceptCommand_phase (w : Byte) (s : State) : (acceptCommand w s).phase = startPhase w := rfl
@[simp] theorem acceptCommand_script (w : Byte) (s : State) : (acceptCommand w s).script = s.script := rfl
@[simp] theorem acceptCommand_seen (w : Byte) (s : State) : (acceptCommand w s).seen = s.seen := rfl
@[simp] theorem acceptCommand_draws (w : Byte) (s : State) : (acceptCommand w s).draws = s.draws := rfl

/-! ### `beginNorm` (`40_normalizer.md` R80) -/

@[simp] theorem beginNorm_cmd (s : State) : (beginNorm s).cmd = s.cmd := rfl
@[simp] theorem beginNorm_status (s : State) : (beginNorm s).status = s.status := rfl
@[simp] theorem beginNorm_cfg (s : State) : (beginNorm s).cfg = s.cfg := rfl
@[simp] theorem beginNorm_lmaxr (s : State) : (beginNorm s).lmaxr = s.lmaxr := rfl
@[simp] theorem beginNorm_inLen (s : State) : (beginNorm s).inLen = s.inLen := rfl
@[simp] theorem beginNorm_wLen (s : State) : (beginNorm s).wLen = 0 := rfl
@[simp] theorem beginNorm_digLen (s : State) : (beginNorm s).digLen = 0 := rfl
@[simp] theorem beginNorm_txtLen (s : State) : (beginNorm s).txtLen = 0 := rfl
@[simp] theorem beginNorm_digRadix (s : State) : (beginNorm s).digRadix = s.digRadix := rfl
@[simp] theorem beginNorm_inBuf (s : State) : (beginNorm s).inBuf = s.inBuf := rfl
@[simp] theorem beginNorm_wBuf (s : State) : (beginNorm s).wBuf = [] := rfl
@[simp] theorem beginNorm_digBuf (s : State) : (beginNorm s).digBuf = [] := rfl
@[simp] theorem beginNorm_txtBuf (s : State) : (beginNorm s).txtBuf = [] := rfl
@[simp] theorem beginNorm_sBuf (s : State) : (beginNorm s).sBuf = s.sBuf := rfl
@[simp] theorem beginNorm_accBuf (s : State) : (beginNorm s).accBuf = s.accBuf := rfl
@[simp] theorem beginNorm_carry (s : State) : (beginNorm s).carry = s.carry := rfl
@[simp] theorem beginNorm_it (s : State) : (beginNorm s).it = s.it := rfl
@[simp] theorem beginNorm_phase (s : State) : (beginNorm s).phase = s.phase := rfl
@[simp] theorem beginNorm_script (s : State) : (beginNorm s).script = s.script := rfl
@[simp] theorem beginNorm_seen (s : State) : (beginNorm s).seen = s.seen := rfl
@[simp] theorem beginNorm_draws (s : State) : (beginNorm s).draws = s.draws + 1 := rfl

/-! ### `beginConv` (`42_radix_pow2.md` R130) -/

@[simp] theorem beginConv_cmd (s : State) : (beginConv s).cmd = s.cmd := rfl
@[simp] theorem beginConv_status (s : State) : (beginConv s).status = s.status := rfl
@[simp] theorem beginConv_cfg (s : State) : (beginConv s).cfg = s.cfg := rfl
@[simp] theorem beginConv_lmaxr (s : State) : (beginConv s).lmaxr = s.lmaxr := rfl
@[simp] theorem beginConv_inLen (s : State) : (beginConv s).inLen = s.inLen := rfl
@[simp] theorem beginConv_wLen (s : State) : (beginConv s).wLen = s.wLen := rfl
@[simp] theorem beginConv_digLen (s : State) : (beginConv s).digLen = 0 := rfl
@[simp] theorem beginConv_txtLen (s : State) : (beginConv s).txtLen = 0 := rfl
@[simp] theorem beginConv_digRadix (s : State) : (beginConv s).digRadix = s.digRadix := rfl
@[simp] theorem beginConv_inBuf (s : State) : (beginConv s).inBuf = s.inBuf := rfl
@[simp] theorem beginConv_wBuf (s : State) : (beginConv s).wBuf = s.wBuf := rfl
@[simp] theorem beginConv_digBuf (s : State) : (beginConv s).digBuf = [] := rfl
@[simp] theorem beginConv_txtBuf (s : State) : (beginConv s).txtBuf = [] := rfl
@[simp] theorem beginConv_sBuf (s : State) : (beginConv s).sBuf = s.sBuf := rfl
@[simp] theorem beginConv_accBuf (s : State) : (beginConv s).accBuf = s.accBuf := rfl
@[simp] theorem beginConv_carry (s : State) : (beginConv s).carry = s.carry := rfl
@[simp] theorem beginConv_it (s : State) : (beginConv s).it = s.it := rfl
@[simp] theorem beginConv_phase (s : State) : (beginConv s).phase = s.phase := rfl
@[simp] theorem beginConv_script (s : State) : (beginConv s).script = s.script := rfl
@[simp] theorem beginConv_seen (s : State) : (beginConv s).seen = s.seen := rfl
@[simp] theorem beginConv_draws (s : State) : (beginConv s).draws = s.draws := rfl

/-! ### `beginRend` (`43_renderer.md` R150) -/

@[simp] theorem beginRend_cmd (s : State) : (beginRend s).cmd = s.cmd := rfl
@[simp] theorem beginRend_status (s : State) : (beginRend s).status = s.status := rfl
@[simp] theorem beginRend_cfg (s : State) : (beginRend s).cfg = s.cfg := rfl
@[simp] theorem beginRend_lmaxr (s : State) : (beginRend s).lmaxr = s.lmaxr := rfl
@[simp] theorem beginRend_inLen (s : State) : (beginRend s).inLen = s.inLen := rfl
@[simp] theorem beginRend_wLen (s : State) : (beginRend s).wLen = s.wLen := rfl
@[simp] theorem beginRend_digLen (s : State) : (beginRend s).digLen = s.digLen := rfl
@[simp] theorem beginRend_txtLen (s : State) : (beginRend s).txtLen = 0 := rfl
@[simp] theorem beginRend_digRadix (s : State) : (beginRend s).digRadix = s.digRadix := rfl
@[simp] theorem beginRend_inBuf (s : State) : (beginRend s).inBuf = s.inBuf := rfl
@[simp] theorem beginRend_wBuf (s : State) : (beginRend s).wBuf = s.wBuf := rfl
@[simp] theorem beginRend_digBuf (s : State) : (beginRend s).digBuf = s.digBuf := rfl
@[simp] theorem beginRend_txtBuf (s : State) : (beginRend s).txtBuf = [] := rfl
@[simp] theorem beginRend_sBuf (s : State) : (beginRend s).sBuf = s.sBuf := rfl
@[simp] theorem beginRend_accBuf (s : State) : (beginRend s).accBuf = s.accBuf := rfl
@[simp] theorem beginRend_carry (s : State) : (beginRend s).carry = s.carry := rfl
@[simp] theorem beginRend_it (s : State) : (beginRend s).it = s.it := rfl
@[simp] theorem beginRend_phase (s : State) : (beginRend s).phase = s.phase := rfl
@[simp] theorem beginRend_script (s : State) : (beginRend s).script = s.script := rfl
@[simp] theorem beginRend_seen (s : State) : (beginRend s).seen = s.seen := rfl
@[simp] theorem beginRend_draws (s : State) : (beginRend s).draws = s.draws := rfl

/-! ### `loadW` (`40_normalizer.md` R80) -/

@[simp] theorem loadW_cmd (bs : List Byte) (s : State) : (loadW bs s).cmd = s.cmd := rfl
@[simp] theorem loadW_status (bs : List Byte) (s : State) : (loadW bs s).status = s.status := rfl
@[simp] theorem loadW_cfg (bs : List Byte) (s : State) : (loadW bs s).cfg = s.cfg := rfl
@[simp] theorem loadW_lmaxr (bs : List Byte) (s : State) : (loadW bs s).lmaxr = s.lmaxr := rfl
@[simp] theorem loadW_inLen (bs : List Byte) (s : State) : (loadW bs s).inLen = s.inLen := rfl
@[simp] theorem loadW_wLen (bs : List Byte) (s : State) : (loadW bs s).wLen = bs.length := rfl
@[simp] theorem loadW_digLen (bs : List Byte) (s : State) : (loadW bs s).digLen = s.digLen := rfl
@[simp] theorem loadW_txtLen (bs : List Byte) (s : State) : (loadW bs s).txtLen = s.txtLen := rfl
@[simp] theorem loadW_digRadix (bs : List Byte) (s : State) : (loadW bs s).digRadix = s.digRadix := rfl
@[simp] theorem loadW_inBuf (bs : List Byte) (s : State) : (loadW bs s).inBuf = s.inBuf := rfl
@[simp] theorem loadW_wBuf (bs : List Byte) (s : State) : (loadW bs s).wBuf = bs := rfl
@[simp] theorem loadW_digBuf (bs : List Byte) (s : State) : (loadW bs s).digBuf = s.digBuf := rfl
@[simp] theorem loadW_txtBuf (bs : List Byte) (s : State) : (loadW bs s).txtBuf = s.txtBuf := rfl
@[simp] theorem loadW_sBuf (bs : List Byte) (s : State) : (loadW bs s).sBuf = s.sBuf := rfl
@[simp] theorem loadW_accBuf (bs : List Byte) (s : State) : (loadW bs s).accBuf = s.accBuf := rfl
@[simp] theorem loadW_carry (bs : List Byte) (s : State) : (loadW bs s).carry = s.carry := rfl
@[simp] theorem loadW_it (bs : List Byte) (s : State) : (loadW bs s).it = s.it := rfl
@[simp] theorem loadW_phase (bs : List Byte) (s : State) : (loadW bs s).phase = s.phase := rfl
@[simp] theorem loadW_script (bs : List Byte) (s : State) : (loadW bs s).script = s.script := rfl
@[simp] theorem loadW_seen (bs : List Byte) (s : State) : (loadW bs s).seen = s.seen := rfl
@[simp] theorem loadW_draws (bs : List Byte) (s : State) : (loadW bs s).draws = s.draws := rfl

/-! ### `loadDigits` (`10_state.md` R18) -/

@[simp] theorem loadDigits_cmd (r : Radix) (ds : List Nibble) (s : State) : (loadDigits r ds s).cmd = s.cmd := rfl
@[simp] theorem loadDigits_status (r : Radix) (ds : List Nibble) (s : State) : (loadDigits r ds s).status = s.status := rfl
@[simp] theorem loadDigits_cfg (r : Radix) (ds : List Nibble) (s : State) : (loadDigits r ds s).cfg = s.cfg := rfl
@[simp] theorem loadDigits_lmaxr (r : Radix) (ds : List Nibble) (s : State) : (loadDigits r ds s).lmaxr = s.lmaxr := rfl
@[simp] theorem loadDigits_inLen (r : Radix) (ds : List Nibble) (s : State) : (loadDigits r ds s).inLen = s.inLen := rfl
@[simp] theorem loadDigits_wLen (r : Radix) (ds : List Nibble) (s : State) : (loadDigits r ds s).wLen = s.wLen := rfl
@[simp] theorem loadDigits_digLen (r : Radix) (ds : List Nibble) (s : State) : (loadDigits r ds s).digLen = ds.length := rfl
@[simp] theorem loadDigits_txtLen (r : Radix) (ds : List Nibble) (s : State) : (loadDigits r ds s).txtLen = s.txtLen := rfl
@[simp] theorem loadDigits_digRadix (r : Radix) (ds : List Nibble) (s : State) : (loadDigits r ds s).digRadix = r := rfl
@[simp] theorem loadDigits_inBuf (r : Radix) (ds : List Nibble) (s : State) : (loadDigits r ds s).inBuf = s.inBuf := rfl
@[simp] theorem loadDigits_wBuf (r : Radix) (ds : List Nibble) (s : State) : (loadDigits r ds s).wBuf = s.wBuf := rfl
@[simp] theorem loadDigits_digBuf (r : Radix) (ds : List Nibble) (s : State) : (loadDigits r ds s).digBuf = ds := rfl
@[simp] theorem loadDigits_txtBuf (r : Radix) (ds : List Nibble) (s : State) : (loadDigits r ds s).txtBuf = s.txtBuf := rfl
@[simp] theorem loadDigits_sBuf (r : Radix) (ds : List Nibble) (s : State) : (loadDigits r ds s).sBuf = s.sBuf := rfl
@[simp] theorem loadDigits_accBuf (r : Radix) (ds : List Nibble) (s : State) : (loadDigits r ds s).accBuf = s.accBuf := rfl
@[simp] theorem loadDigits_carry (r : Radix) (ds : List Nibble) (s : State) : (loadDigits r ds s).carry = s.carry := rfl
@[simp] theorem loadDigits_it (r : Radix) (ds : List Nibble) (s : State) : (loadDigits r ds s).it = s.it := rfl
@[simp] theorem loadDigits_phase (r : Radix) (ds : List Nibble) (s : State) : (loadDigits r ds s).phase = s.phase := rfl
@[simp] theorem loadDigits_script (r : Radix) (ds : List Nibble) (s : State) : (loadDigits r ds s).script = s.script := rfl
@[simp] theorem loadDigits_seen (r : Radix) (ds : List Nibble) (s : State) : (loadDigits r ds s).seen = s.seen := rfl
@[simp] theorem loadDigits_draws (r : Radix) (ds : List Nibble) (s : State) : (loadDigits r ds s).draws = s.draws := rfl

/-! ### `loadText` (`10_state.md` R19) -/

@[simp] theorem loadText_cmd (cs : List Byte) (s : State) : (loadText cs s).cmd = s.cmd := rfl
@[simp] theorem loadText_status (cs : List Byte) (s : State) : (loadText cs s).status = s.status := rfl
@[simp] theorem loadText_cfg (cs : List Byte) (s : State) : (loadText cs s).cfg = s.cfg := rfl
@[simp] theorem loadText_lmaxr (cs : List Byte) (s : State) : (loadText cs s).lmaxr = s.lmaxr := rfl
@[simp] theorem loadText_inLen (cs : List Byte) (s : State) : (loadText cs s).inLen = s.inLen := rfl
@[simp] theorem loadText_wLen (cs : List Byte) (s : State) : (loadText cs s).wLen = s.wLen := rfl
@[simp] theorem loadText_digLen (cs : List Byte) (s : State) : (loadText cs s).digLen = s.digLen := rfl
@[simp] theorem loadText_txtLen (cs : List Byte) (s : State) : (loadText cs s).txtLen = cs.length := rfl
@[simp] theorem loadText_digRadix (cs : List Byte) (s : State) : (loadText cs s).digRadix = s.digRadix := rfl
@[simp] theorem loadText_inBuf (cs : List Byte) (s : State) : (loadText cs s).inBuf = s.inBuf := rfl
@[simp] theorem loadText_wBuf (cs : List Byte) (s : State) : (loadText cs s).wBuf = s.wBuf := rfl
@[simp] theorem loadText_digBuf (cs : List Byte) (s : State) : (loadText cs s).digBuf = s.digBuf := rfl
@[simp] theorem loadText_txtBuf (cs : List Byte) (s : State) : (loadText cs s).txtBuf = cs := rfl
@[simp] theorem loadText_sBuf (cs : List Byte) (s : State) : (loadText cs s).sBuf = s.sBuf := rfl
@[simp] theorem loadText_accBuf (cs : List Byte) (s : State) : (loadText cs s).accBuf = s.accBuf := rfl
@[simp] theorem loadText_carry (cs : List Byte) (s : State) : (loadText cs s).carry = s.carry := rfl
@[simp] theorem loadText_it (cs : List Byte) (s : State) : (loadText cs s).it = s.it := rfl
@[simp] theorem loadText_phase (cs : List Byte) (s : State) : (loadText cs s).phase = s.phase := rfl
@[simp] theorem loadText_script (cs : List Byte) (s : State) : (loadText cs s).script = s.script := rfl
@[simp] theorem loadText_seen (cs : List Byte) (s : State) : (loadText cs s).seen = s.seen := rfl
@[simp] theorem loadText_draws (cs : List Byte) (s : State) : (loadText cs s).draws = s.draws := rfl

/-! ### `applyReset` (`10_state.md` R32) -/

@[simp] theorem applyReset_cmd (s : State) : (applyReset s).cmd = 0 := rfl
@[simp] theorem applyReset_status (s : State) : (applyReset s).status = ⟨false, false, none⟩ := rfl
@[simp] theorem applyReset_cfg (s : State) : (applyReset s).cfg = s.cfg := rfl
@[simp] theorem applyReset_lmaxr (s : State) : (applyReset s).lmaxr = s.lmaxr := rfl
@[simp] theorem applyReset_inLen (s : State) : (applyReset s).inLen = 0 := rfl
@[simp] theorem applyReset_wLen (s : State) : (applyReset s).wLen = 0 := rfl
@[simp] theorem applyReset_digLen (s : State) : (applyReset s).digLen = 0 := rfl
@[simp] theorem applyReset_txtLen (s : State) : (applyReset s).txtLen = 0 := rfl
@[simp] theorem applyReset_digRadix (s : State) : (applyReset s).digRadix = .dec := rfl
@[simp] theorem applyReset_inBuf (s : State) : (applyReset s).inBuf = [] := rfl
@[simp] theorem applyReset_wBuf (s : State) : (applyReset s).wBuf = [] := rfl
@[simp] theorem applyReset_digBuf (s : State) : (applyReset s).digBuf = [] := rfl
@[simp] theorem applyReset_txtBuf (s : State) : (applyReset s).txtBuf = [] := rfl
@[simp] theorem applyReset_sBuf (s : State) : (applyReset s).sBuf = [] := rfl
@[simp] theorem applyReset_accBuf (s : State) : (applyReset s).accBuf = [] := rfl
@[simp] theorem applyReset_carry (s : State) : (applyReset s).carry = false := rfl
@[simp] theorem applyReset_it (s : State) : (applyReset s).it = 0 := rfl
@[simp] theorem applyReset_phase (s : State) : (applyReset s).phase = .idle := rfl
@[simp] theorem applyReset_script (s : State) : (applyReset s).script = s.script := rfl
@[simp] theorem applyReset_seen (s : State) : (applyReset s).seen = s.seen := rfl
@[simp] theorem applyReset_draws (s : State) : (applyReset s).draws = s.draws := rfl

/-! ### `note` (log 7) -/

@[simp] theorem note_cmd (v : Nat) (s : State) : (note v s).cmd = s.cmd := rfl
@[simp] theorem note_status (v : Nat) (s : State) : (note v s).status = s.status := rfl
@[simp] theorem note_cfg (v : Nat) (s : State) : (note v s).cfg = s.cfg := rfl
@[simp] theorem note_lmaxr (v : Nat) (s : State) : (note v s).lmaxr = s.lmaxr := rfl
@[simp] theorem note_inLen (v : Nat) (s : State) : (note v s).inLen = s.inLen := rfl
@[simp] theorem note_wLen (v : Nat) (s : State) : (note v s).wLen = s.wLen := rfl
@[simp] theorem note_digLen (v : Nat) (s : State) : (note v s).digLen = s.digLen := rfl
@[simp] theorem note_txtLen (v : Nat) (s : State) : (note v s).txtLen = s.txtLen := rfl
@[simp] theorem note_digRadix (v : Nat) (s : State) : (note v s).digRadix = s.digRadix := rfl
@[simp] theorem note_inBuf (v : Nat) (s : State) : (note v s).inBuf = s.inBuf := rfl
@[simp] theorem note_wBuf (v : Nat) (s : State) : (note v s).wBuf = s.wBuf := rfl
@[simp] theorem note_digBuf (v : Nat) (s : State) : (note v s).digBuf = s.digBuf := rfl
@[simp] theorem note_txtBuf (v : Nat) (s : State) : (note v s).txtBuf = s.txtBuf := rfl
@[simp] theorem note_sBuf (v : Nat) (s : State) : (note v s).sBuf = s.sBuf := rfl
@[simp] theorem note_accBuf (v : Nat) (s : State) : (note v s).accBuf = s.accBuf := rfl
@[simp] theorem note_carry (v : Nat) (s : State) : (note v s).carry = s.carry := rfl
@[simp] theorem note_it (v : Nat) (s : State) : (note v s).it = s.it := rfl
@[simp] theorem note_phase (v : Nat) (s : State) : (note v s).phase = s.phase := rfl
@[simp] theorem note_script (v : Nat) (s : State) : (note v s).script = s.script := rfl
@[simp] theorem note_seen (v : Nat) (s : State) : (note v s).seen = s.seen ++ [v] := rfl
@[simp] theorem note_draws (v : Nat) (s : State) : (note v s).draws = s.draws := rfl

/-! ### `State.withScript` (log 7) -/

@[simp] theorem State.withScript_cmd (acts : List HostAct) (s : State) : (s.withScript acts).cmd = s.cmd := rfl
@[simp] theorem State.withScript_status (acts : List HostAct) (s : State) : (s.withScript acts).status = s.status := rfl
@[simp] theorem State.withScript_cfg (acts : List HostAct) (s : State) : (s.withScript acts).cfg = s.cfg := rfl
@[simp] theorem State.withScript_lmaxr (acts : List HostAct) (s : State) : (s.withScript acts).lmaxr = s.lmaxr := rfl
@[simp] theorem State.withScript_inLen (acts : List HostAct) (s : State) : (s.withScript acts).inLen = s.inLen := rfl
@[simp] theorem State.withScript_wLen (acts : List HostAct) (s : State) : (s.withScript acts).wLen = s.wLen := rfl
@[simp] theorem State.withScript_digLen (acts : List HostAct) (s : State) : (s.withScript acts).digLen = s.digLen := rfl
@[simp] theorem State.withScript_txtLen (acts : List HostAct) (s : State) : (s.withScript acts).txtLen = s.txtLen := rfl
@[simp] theorem State.withScript_digRadix (acts : List HostAct) (s : State) : (s.withScript acts).digRadix = s.digRadix := rfl
@[simp] theorem State.withScript_inBuf (acts : List HostAct) (s : State) : (s.withScript acts).inBuf = s.inBuf := rfl
@[simp] theorem State.withScript_wBuf (acts : List HostAct) (s : State) : (s.withScript acts).wBuf = s.wBuf := rfl
@[simp] theorem State.withScript_digBuf (acts : List HostAct) (s : State) : (s.withScript acts).digBuf = s.digBuf := rfl
@[simp] theorem State.withScript_txtBuf (acts : List HostAct) (s : State) : (s.withScript acts).txtBuf = s.txtBuf := rfl
@[simp] theorem State.withScript_sBuf (acts : List HostAct) (s : State) : (s.withScript acts).sBuf = s.sBuf := rfl
@[simp] theorem State.withScript_accBuf (acts : List HostAct) (s : State) : (s.withScript acts).accBuf = s.accBuf := rfl
@[simp] theorem State.withScript_carry (acts : List HostAct) (s : State) : (s.withScript acts).carry = s.carry := rfl
@[simp] theorem State.withScript_it (acts : List HostAct) (s : State) : (s.withScript acts).it = s.it := rfl
@[simp] theorem State.withScript_phase (acts : List HostAct) (s : State) : (s.withScript acts).phase = s.phase := rfl
@[simp] theorem State.withScript_script (acts : List HostAct) (s : State) : (s.withScript acts).script = acts := rfl
@[simp] theorem State.withScript_seen (acts : List HostAct) (s : State) : (s.withScript acts).seen = s.seen := rfl
@[simp] theorem State.withScript_draws (acts : List HostAct) (s : State) : (s.withScript acts).draws = s.draws := rfl

/-! ### `proceed` (`10_state.md` R23), by the kind of command -/

@[simp] theorem proceed_fmt (p : Phase) (s : State) : proceed true p s = { s with phase := p } := rfl
@[simp] theorem proceed_single (p : Phase) (s : State) : proceed false p s = finish s := rfl

end Sys2Proof.Machine
end

