-- ==== Sys2Proof/Laws/Exec.lean ====
section
/-! SUPPORT. What the phases and the shared step of each unit can do, said once: a next state is one of the named cases, and an error
of a NORM phase has a named cause. -/

namespace Sys2Proof.Machine

/-- The NORM phase: either the error entry, or W loaded and the flow gone on (`40_normalizer.md` R80). -/
theorem normPhase_cases (r : Except Err (List Byte)) (fmt : Bool) (s : State) :
    (∃ e, r = .error e ∧ normPhase r fmt s = raiseError e (beginNorm s)) ∨
    (∃ bs, r = .ok bs ∧ normPhase r fmt s = proceed fmt .conv (loadW bs (beginNorm s))) := by
  cases r with
  | error e => exact .inl ⟨e, rfl, rfl⟩
  | ok bs => exact .inr ⟨bs, rfl, rfl⟩

/-- NORM.B's operand: EmptyInput, Capacity, or the oriented bytes (`40_normalizer.md` R82). -/
theorem normBytes_cases (o : ByteOrder) (s : State) :
    (s.inLen = 0 ∧ normBytes o s = .error .emptyInput) ∨
    (s.inLen ≠ 0 ∧ s.lmaxr < s.inLen ∧ normBytes o s = .error .capacity) ∨
    (s.inLen ≠ 0 ∧ s.inLen ≤ s.lmaxr ∧ normBytes o s = .ok (orient o (s.inBytes s.inLen))) := by
  unfold normBytes
  split
  · exact .inl ⟨‹_›, rfl⟩
  · split
    · exact .inr (.inl ⟨‹_›, ‹_›, rfl⟩)
    · exact .inr (.inr ⟨‹_›, not_lt.mp ‹_›, rfl⟩)

/-- The characters of a HEXSTR operand after its prefix (`40_normalizer.md` R84). -/
def State.hexBody (s : State) : List Byte := (s.inBytes s.inLen).drop (prefixLen (s.inBytes s.inLen))

/-- NORM.X's operand: Capacity, InvalidInputKind, EmptyInput in this order, or the bytes (`40_normalizer.md` R83). -/
theorem normHex_cases (s : State) :
    ((inMax s.lmaxr < s.inLen ∨ 2 * s.lmaxr < s.hexBody.length) ∧ normHex s = .error .capacity) ∨
    (s.inLen ≤ inMax s.lmaxr ∧ s.hexBody.length ≤ 2 * s.lmaxr ∧
      ((hexvals s.hexBody = none ∧ normHex s = .error .invalidInputKind) ∨
       (hexvals s.hexBody = some [] ∧ normHex s = .error .emptyInput) ∨
       (∃ d ds, hexvals s.hexBody = some (d :: ds) ∧ normHex s = .ok (hexBytes (d :: ds))))) := by
  unfold normHex
  split
  · exact .inl ⟨.inl ‹_›, rfl⟩
  · rename_i h1
    simp only
    split
    · exact .inl ⟨.inr ‹_›, rfl⟩
    · rename_i h2
      refine .inr ⟨not_lt.mp h1, not_lt.mp h2, ?_⟩
      cases h : hexvals s.hexBody with
      | none => exact .inl ⟨rfl, by simp only [State.hexBody] at h; rw [h]⟩
      | some ds =>
        refine .inr ?_
        simp only [State.hexBody] at h
        cases ds with
        | nil => exact .inl ⟨rfl, by rw [h]; rfl⟩
        | cons d ds => exact .inr ⟨d, ds, rfl, by rw [h]; rfl⟩

/-- The CONV phase in radix 16, 8 or 2: EmptyInput, or the digits loaded (`42_radix_pow2.md` R130). -/
theorem radixPhase_cases (r : Radix) (ds : List Nibble) (fmt : Bool) (s : State) :
    (s.wLen = 0 ∧ radixPhase r ds fmt s = raiseError .emptyInput (beginConv s)) ∨
    (s.wLen ≠ 0 ∧ radixPhase r ds fmt s = proceed fmt .rend (loadDigits r ds (beginConv s))) := by
  unfold radixPhase
  split
  · exact .inl ⟨‹_›, rfl⟩
  · exact .inr ⟨‹_›, rfl⟩

/-- The REND phase: EmptyInput, or the text loaded (`43_renderer.md` R150). -/
theorem rendPhase_cases (s : State) :
    (s.digLen = 0 ∧ rendPhase s = raiseError .emptyInput (beginRend s)) ∨
    (s.digLen ≠ 0 ∧ rendPhase s = finish (loadText (renderText s.cfg.bfw s.digRadix s.digits) (beginRend s))) := by
  unfold rendPhase
  split
  · exact .inl ⟨‹_›, rfl⟩
  · exact .inr ⟨‹_›, rfl⟩

/-- A NORM command's step answers a next state in two ways only (`10_state.md` R23). -/
theorem normStep_next {r : Except Err (List Byte)} {s t : State} (h : normStep r s = .next t) :
    (s.phase = .idle ∧ t = s) ∨ (s.phase = .norm ∧ t = normPhase r false s) := by
  unfold normStep at h
  split at h <;> cases h
  · exact .inl ⟨‹_›, rfl⟩
  · exact .inr ⟨‹_›, rfl⟩

/-- The step of a CONV command in radix 16, 8 or 2 answers a next state in two ways only. -/
theorem radixStep_next {r : Radix} {ds : List Nibble} {s t : State} (h : radixStep r ds s = .next t) :
    (s.phase = .idle ∧ t = s) ∨ (s.phase = .conv ∧ t = radixPhase r ds false s) := by
  unfold radixStep at h
  split at h <;> cases h
  · exact .inl ⟨‹_›, rfl⟩
  · exact .inr ⟨‹_›, rfl⟩

/-- The step of CONV.DEC answers a next state in three ways only (`41_decimal_double_dabble.md` R100). -/
theorem execConvDec_next {s t : State} (h : execConvDec s = .next t) :
    (s.phase = .idle ∧ t = s) ∨ (s.phase = .conv ∧ t = ddEnter s) ∨ (s.phase = .dd ∧ t = ddStep false s) := by
  unfold execConvDec at h
  split at h <;> cases h
  · exact .inl ⟨‹_›, rfl⟩
  · exact .inr (.inl ⟨‹_›, rfl⟩)
  · exact .inr (.inr ⟨‹_›, rfl⟩)

/-- The step of REND answers a next state in two ways only. -/
theorem execRend_next {s t : State} (h : execRend s = .next t) :
    (s.phase = .idle ∧ t = s) ∨ (s.phase = .rend ∧ t = rendPhase s) := by
  unfold execRend at h
  split at h <;> cases h
  · exact .inl ⟨‹_›, rfl⟩
  · exact .inr ⟨‹_›, rfl⟩

/-- The step of an FMT command in radix 16, 8 or 2 answers a next state in four ways only (`44_composite_fmt.md` R170). -/
theorem fmtRadixStep_next {q : Radix} {ds : List Nibble} {r : Except Err (List Byte)} {s t : State}
    (h : fmtRadixStep q ds r s = .next t) :
    (s.phase = .idle ∧ t = s) ∨ (s.phase = .norm ∧ t = normPhase r true s) ∨
    (s.phase = .conv ∧ t = radixPhase q ds true s) ∨ (s.phase = .rend ∧ t = rendPhase s) := by
  unfold fmtRadixStep at h
  split at h <;> cases h
  · exact .inl ⟨‹_›, rfl⟩
  · exact .inr (.inl ⟨‹_›, rfl⟩)
  · exact .inr (.inr (.inl ⟨‹_›, rfl⟩))
  · exact .inr (.inr (.inr ⟨‹_›, rfl⟩))

/-- The step of FMT.DEC answers a next state in five ways only (`44_composite_fmt.md` R170). -/
theorem execFmtDec_next {v : Bool} {o : ByteOrder} {k : InputKind} {s t : State} (h : execFmtDec v o k s = .next t) :
    (s.phase = .idle ∧ t = s) ∨ (s.phase = .norm ∧ t = normPhase (normKind v o k s) true s) ∨
    (s.phase = .conv ∧ t = ddEnter s) ∨ (s.phase = .dd ∧ t = ddStep true s) ∨ (s.phase = .rend ∧ t = rendPhase s) := by
  unfold execFmtDec at h
  split at h <;> cases h
  · exact .inl ⟨‹_›, rfl⟩
  · exact .inr (.inl ⟨‹_›, rfl⟩)
  · exact .inr (.inr (.inl ⟨‹_›, rfl⟩))
  · exact .inr (.inr (.inr (.inl ⟨‹_›, rfl⟩)))
  · exact .inr (.inr (.inr (.inr ⟨‹_›, rfl⟩)))

end Sys2Proof.Machine
end

