-- ==== Sys2Proof/Laws/Invariant.lean ====
section
/-! SUPPORT. The invariant under the shared operations that touch little of the state. -/

namespace Sys2Proof.Machine

/-- The host's own fields and the draw counter are no part of the invariant (log 3, 7). -/
theorem State.Inv.withHost {s : State} (h : s.Inv) (acts : List HostAct) (seen : List Nat) (draws : Nat) :
    State.Inv { s with script := acts, seen := seen, draws := draws } :=
  { h with loop := fun e => { h.loop e with } }

theorem State.Inv.withScript {s : State} (h : s.Inv) (acts : List HostAct) : (s.withScript acts).Inv :=
  h.withHost acts s.seen s.draws

/-- In the invariant BUSY excludes DONE and an error code (`10_state.md` R26). -/
theorem State.Inv.status_of_busy {s : State} (h : s.Inv) (hb : s.status.busy = true) : s.status = ⟨true, false, none⟩ := by
  have hd : s.status.done = false := Bool.eq_false_iff.mpr fun e => h.not_both ⟨hb, e⟩
  have he : s.status.err = none := by
    by_contra e
    exact Bool.false_ne_true (hd.symm.trans (h.err_done e))
  rcases hs : s.status with ⟨b, d, e⟩
  simp_all

/-- In the invariant an idle engine is not BUSY, and the other way round (`10_state.md` R22, R26). -/
theorem State.Inv.idle_iff {s : State} (h : s.Inv) : s.phase = .idle ↔ s.status.busy = false := by
  have := h.busy_phase
  cases hp : s.phase <;> simp_all

end Sys2Proof.Machine
end

