-- ==== Sys2Proof/Laws/Memory.lean ====
section
/-! SUPPORT. The sparse buffer IN: every operation keeps its canonical form, a read after a write, and the range of its indices. -/

namespace Sys2Proof.Machine

theorem reset_inBuf_wf (cfg : Cfg) (lmax : Nat) : (State.resetWith cfg lmax).inBuf.wf := List.Pairwise.nil

/-- An index that `write` lists was listed before or is the one written. -/
theorem Memory.mem_write {m : Memory} {a : Nat} {b : Byte} {c : Host.Cell} (h : c ∈ m.write a b) : c = (a, b) ∨ c ∈ m := by
  induction m with
  | nil => simpa [Memory.write] using h
  | cons e m ih =>
    obtain ⟨k, v⟩ := e
    simp only [Memory.write] at h
    split at h
    · simpa using h
    · split at h
      · exact (List.mem_cons.mp h).imp id (List.mem_cons_of_mem _)
      · rcases List.mem_cons.mp h with rfl | h
        · exact .inr (List.mem_cons_self ..)
        · exact (ih h).imp id (List.mem_cons_of_mem _)

/-- A write keeps the canonical form. -/
theorem Memory.write_wf {m : Memory} (h : m.wf) (a : Nat) (b : Byte) : (m.write a b).wf := by
  induction m with
  | nil => simp [Memory.write, Memory.wf]
  | cons e m ih =>
    obtain ⟨k, v⟩ := e
    obtain ⟨hk, hm⟩ := List.pairwise_cons.mp h
    simp only [Memory.write]
    split
    · rename_i hlt
      refine List.pairwise_cons.mpr ⟨fun c hc => ?_, h⟩
      rcases List.mem_cons.mp hc with rfl | hc
      · exact hlt
      · exact hlt.trans (hk c hc)
    · split
      · rename_i heq
        exact List.pairwise_cons.mpr ⟨fun c hc => heq ▸ hk c hc, hm⟩
      · rename_i hlt hne
        refine List.pairwise_cons.mpr ⟨fun c hc => ?_, ih hm⟩
        rcases Memory.mem_write hc with rfl | hc
        · exact lt_of_le_of_ne (not_lt.mp hlt) (Ne.symm hne)
        · exact hk c hc

/-- In canonical form an index below every listed one is not listed. -/
theorem Memory.read?_of_lt {m : Memory} {a : Nat} (h : ∀ c ∈ m, a < c.1) : m.read? a = none := by
  induction m with
  | nil => rfl
  | cons e m ih =>
    have he := h e (List.mem_cons_self ..)
    simp only [Memory.read?, he.ne', if_false]
    exact ih fun c hc => h c (List.mem_cons_of_mem _ hc)

/-- A read after a write to the same index gives the value written, and a write leaves every other index alone. -/
theorem Memory.read?_write (m : Memory) (a i : Nat) (b : Byte) :
    (m.write a b).read? i = if i = a then some b else m.read? i := by
  induction m with
  | nil => simp [Memory.write, Memory.read?, eq_comm]
  | cons e m ih =>
    obtain ⟨k, v⟩ := e
    simp only [Memory.write]
    split
    · simp [Memory.read?, eq_comm]
    · split
      · rename_i heq
        subst heq
        by_cases hi : i = a
        · simp [Memory.read?, hi]
        · simp [Memory.read?, hi, Ne.symm hi]
      · rename_i hne
        by_cases hi : k = i
        · subst hi
          simp [Memory.read?, Ne.symm hne]
        · simp [Memory.read?, hi, ih]

/-- A write keeps every index in its range. -/
theorem Memory.write_range {m : Memory} {bound a : Nat} (b : Byte) (h : ∀ c ∈ m, c.1 < bound) (ha : a < bound) :
    ∀ c ∈ m.write a b, c.1 < bound := by
  intro c hc
  rcases Memory.mem_write hc with rfl | hc
  · exact ha
  · exact h c hc

/-- Every host write keeps IN in canonical form. -/
theorem hostWrite_inBuf_wf (s : State) (space : BitVec 3) (index v : Nat) (h : s.inBuf.wf) :
    (hostWrite s space index v).inBuf.wf := by
  unfold hostWrite
  split
  · exact h
  · split
    · exact h
    · rename_i loc _
      cases loc with
      | reg r => cases r <;> exact h
      | inElem i => exact Memory.write_wf h i _
      | wElem _ => exact h
      | digElem _ => exact h
      | txtElem _ => exact h

end Sys2Proof.Machine
end

