-- ==== Sys2Proof/Laws/PerInstr.lean ====
section
/-! SUPPORT. Facts about every command as syntax, one lemma per constructor. -/

namespace Sys2Proof.Laws.SelectsItsRow

/-- The word of a well-formed command has the fixed bits of its row and no bit the row ignores (`30_encoding.md` R62, R67). -/
def Statement (i : Instr) : Prop :=
  i.wellFormed = true → encode i &&& i.rowMask = i.rowMatch ∧ encode i &&& ~~~(i.rowMask ||| i.passedMask) = 0

theorem normB (ordv : Bool) (ord : ByteOrder) (kind : InputKind) : Statement (.normB ordv ord kind) := by
  cases ordv <;> cases ord <;> cases kind <;> simp [Statement, Instr.wellFormed, InputKind.isBytes] <;> decide
theorem normX : Statement .normX := fun _ => by decide
theorem normK3 : Statement .normK3 := fun _ => by decide
theorem convDec : Statement .convDec := fun _ => by decide
theorem convHex : Statement .convHex := fun _ => by decide
theorem convOct : Statement .convOct := fun _ => by decide
theorem convBin : Statement .convBin := fun _ => by decide
theorem rend : Statement .rend := fun _ => by decide
theorem fmtDec (ordv : Bool) (ord : ByteOrder) (kind : InputKind) : Statement (.fmtDec ordv ord kind) := by
  intro _; cases ordv <;> cases ord <;> cases kind <;> decide
theorem fmtHex (ordv : Bool) (ord : ByteOrder) (kind : InputKind) : Statement (.fmtHex ordv ord kind) := by
  intro _; cases ordv <;> cases ord <;> cases kind <;> decide
theorem fmtOct (ordv : Bool) (ord : ByteOrder) (kind : InputKind) : Statement (.fmtOct ordv ord kind) := by
  intro _; cases ordv <;> cases ord <;> cases kind <;> decide
theorem fmtBin (ordv : Bool) (ord : ByteOrder) (kind : InputKind) : Statement (.fmtBin ordv ord kind) := by
  intro _; cases ordv <;> cases ord <;> cases kind <;> decide

end Sys2Proof.Laws.SelectsItsRow
end

