-- ==== Sys2Proof/Laws/Step.lean ====
section
/-! SUPPORT. What one step can do, said once. -/

namespace Sys2Proof.Machine

theorem step_nil {s : State} (h : s.script = []) : step s = engineTurn s := by simp only [step, h]

theorem step_cons {s : State} {act : HostAct} {rest : List HostAct} (h : s.script = act :: rest) :
    step s = hostTurn act rest s := by simp only [step, h]

/-- A next state of a step comes from the engine's turn (no action pending, or the token `engine`, or WAIT before DONE) or from one
host action (`20_memory.md` R53; log 7). -/
theorem step_next {s t : State} (h : step s = .next t) :
    (s.script = [] ∧ engineTurn s = .next t) ∨
    (∃ rest, s.script = .engine :: rest ∧ engineTurn (s.withScript rest) = .next t) ∨
    (∃ rest, s.script = .wait :: rest ∧ s.status.done = false ∧ engineTurn s = .next t) ∨
    (∃ rest, s.script = .wait :: rest ∧ s.status.done = true ∧ t = pollDone (s.withScript rest)) ∨
    (∃ sp i rest, s.script = .read sp i :: rest ∧ t = hostReadNote (s.withScript rest) sp i) ∨
    (∃ sp i v rest, s.script = .write sp i v :: rest ∧ t = hostWrite (s.withScript rest) sp i v) ∨
    (∃ b rest, s.script = .get b :: rest ∧ t = hostGet (s.withScript rest) b) ∨
    (∃ rest, s.script = .reset :: rest ∧ t = applyReset (s.withScript rest)) := by
  cases hs : s.script with
  | nil => exact .inl ⟨rfl, by rwa [step_nil hs] at h⟩
  | cons act rest =>
    rw [step_cons hs] at h
    cases act with
    | read sp i => cases h; exact .inr (.inr (.inr (.inr (.inl ⟨sp, i, rest, rfl, rfl⟩))))
    | write sp i v => cases h; exact .inr (.inr (.inr (.inr (.inr (.inl ⟨sp, i, v, rest, rfl, rfl⟩)))))
    | wait =>
      simp only [hostTurn] at h
      split at h
      · cases h; exact .inr (.inr (.inr (.inl ⟨rest, rfl, ‹_›, rfl⟩)))
      · exact .inr (.inr (.inl ⟨rest, rfl, Bool.eq_false_iff.mpr ‹_›, h⟩))
    | get b => cases h; exact .inr (.inr (.inr (.inr (.inr (.inr (.inl ⟨b, rest, rfl, rfl⟩))))))
    | reset => cases h; exact .inr (.inr (.inr (.inr (.inr (.inr (.inr ⟨rest, rfl, rfl⟩))))))
    | otherHost => cases h
    | engine => exact .inr (.inl ⟨rest, rfl, h⟩)

/-- A host read changes at most the draw counter of the block's state (`20_memory.md` R43). -/
theorem hostRead_state (s : State) (sp : BitVec 3) (i : Nat) :
    (hostRead s sp i).2 = s ∨ (hostRead s sp i).2 = { s with draws := s.draws + 1 } := by
  unfold hostRead
  split
  · exact .inl rfl
  · exact .inr rfl

/-- A host read that finds a value notes it and changes nothing else (`20_memory.md` R43). -/
theorem hostReadNote_known {s : State} {sp : BitVec 3} {i v : Nat} (h : readDatum s sp i = .known v) :
    hostReadNote s sp i = note v s := by
  simp only [hostReadNote, hostRead, h]

/-- A host read that finds an unspecified value notes a free one and advances the draw counter (`10_state.md` R20; log 3). -/
theorem hostReadNote_unspecified {s : State} {sp : BitVec 3} {i width : Nat} (h : readDatum s sp i = .unspecified width) :
    hostReadNote s sp i = note (Config.freeBits width s.draws 0).toNat { s with draws := s.draws + 1 } := by
  simp only [hostReadNote, hostRead, h]

/-- An idle engine's read of a mapped location (`20_memory.md` R43). -/
theorem readDatum_idle {s : State} {sp : BitVec 3} {i : Nat} {loc : Loc} (hb : s.status.busy = false)
    (h : portLoc s sp i = some loc) : readDatum s sp i = locDatum s loc := by
  simp [readDatum, h, hb]

/-- An idle engine's write to a mapped location (`20_memory.md` R44). -/
theorem hostWrite_idle {s : State} {sp : BitVec 3} {i v : Nat} {loc : Loc} (hb : s.status.busy = false)
    (h : portLoc s sp i = some loc) : hostWrite s sp i v = writeLoc s v loc := by
  simp [hostWrite, h, hb]

/-- A host write, said once: nothing, an accepted command, IN_LEN, or one element of IN (`20_memory.md` R44 to R47). -/
theorem hostWrite_cases (s : State) (sp : BitVec 3) (i v : Nat) :
    hostWrite s sp i v = s ∨
    (s.status.busy = false ∧ portLoc s sp i = some (.reg .cmd) ∧ hostWrite s sp i v = acceptCommand (BitVec.ofNat 8 v) s) ∨
    (s.status.busy = false ∧ portLoc s sp i = some (.reg .inLen) ∧
      hostWrite s sp i v = { s with inLen := v % 2 ^ lenw s.lmaxr }) ∨
    (∃ j, s.status.busy = false ∧ portLoc s sp i = some (.inElem j) ∧
      hostWrite s sp i v = { s with inBuf := s.inBuf.write j (BitVec.ofNat 8 v) }) := by
  unfold hostWrite
  split
  · exact .inl rfl
  · have hb : s.status.busy = false := Bool.eq_false_iff.mpr ‹_›
    split
    · exact .inl rfl
    · rename_i loc hloc
      cases loc with
      | reg r =>
        cases r with
        | cmd => exact .inr (.inl ⟨hb, hloc, rfl⟩)
        | inLen => exact .inr (.inr (.inl ⟨hb, hloc, rfl⟩))
        | status => exact .inl rfl
        | cfg => exact .inl rfl
        | lmaxr => exact .inl rfl
        | wLen => exact .inl rfl
        | digLen => exact .inl rfl
        | txtLen => exact .inl rfl
        | digRadix => exact .inl rfl
      | inElem j => exact .inr (.inr (.inr ⟨j, hb, hloc, rfl⟩))
      | wElem _ => exact .inl rfl
      | digElem _ => exact .inl rfl
      | txtElem _ => exact .inl rfl

end Sys2Proof.Machine
end

