-- ==== Sys2Proof/Laws/Values.lean ====
section
/-! SUPPORT. The value functions of `00_scope.md` R10 over concatenation, their bounds, and the lengths of the units' sequences. -/

namespace Sys2Proof.Machine

@[simp] theorem valLE_nil : valLE [] = 0 := rfl
theorem valLE_cons (b : Byte) (bs : List Byte) : valLE (b :: bs) = b.toNat + 256 * valLE bs := rfl
@[simp] theorem valMS_nil (r : Nat) : valMS r [] = 0 := rfl
theorem valMS_cons (r : Nat) (d : Nibble) (ds : List Nibble) : valMS r (d :: ds) = d.toNat * r ^ ds.length + valMS r ds := rfl

theorem valLE_append (as bs : List Byte) : valLE (as ++ bs) = valLE as + 256 ^ as.length * valLE bs := by
  induction as with
  | nil => simp
  | cons a as ih => simp only [List.cons_append, valLE_cons, ih, List.length_cons, pow_succ]; ring

theorem valMS_append (r : Nat) (as bs : List Nibble) : valMS r (as ++ bs) = valMS r as * r ^ bs.length + valMS r bs := by
  induction as with
  | nil => simp
  | cons a as ih => simp only [List.cons_append, valMS_cons, ih, List.length_append, pow_add]; ring

theorem valLE_lt (bs : List Byte) : valLE bs < 256 ^ bs.length := by
  induction bs with
  | nil => simp
  | cons b bs ih =>
    have hb := b.isLt
    simp only [valLE_cons, List.length_cons, pow_succ]
    omega

theorem valMS_lt {r : Nat} {ds : List Nibble} (h : ∀ d ∈ ds, d.toNat < r) : valMS r ds < r ^ ds.length := by
  induction ds with
  | nil => simp
  | cons d ds ih =>
    have hd := h d (List.mem_cons_self ..)
    have ht := ih fun e he => h e (List.mem_cons_of_mem _ he)
    calc valMS r (d :: ds) < d.toNat * r ^ ds.length + r ^ ds.length := by simpa [valMS_cons] using ht
      _ = (d.toNat + 1) * r ^ ds.length := by ring
      _ ≤ r * r ^ ds.length := Nat.mul_le_mul_right _ hd
      _ = r ^ (d :: ds).length := by rw [List.length_cons, pow_succ, mul_comm]

theorem valMS_replicate_zero (r n : Nat) : valMS r (List.replicate n 0) = 0 := by
  induction n with
  | zero => rfl
  | succ n ih => rw [List.replicate_succ, valMS_cons, ih]; simp

@[simp] theorem shiftLeft1_length (bs : List Byte) : (shiftLeft1 bs).length = bs.length := by
  have h : ∀ (c : Bool) (l : List Byte), (shiftLeftFrom c l).length = l.length := by
    intro c l
    induction l generalizing c with
    | nil => rfl
    | cons b l ih => simp [shiftLeftFrom, ih]
  exact h false bs

@[simp] theorem doubleSlots_length (ds : List Nibble) (c : Bool) : (doubleSlots ds c).1.length = ds.length := by
  induction ds with
  | nil => rfl
  | cons d ds ih => simp [doubleSlots, ih]

theorem flatMap_length_const {α β : Type} (f : α → List β) (k : Nat) (h : ∀ a, (f a).length = k) (l : List α) :
    (l.flatMap f).length = k * l.length := by
  induction l with
  | nil => simp
  | cons a l ih => simp only [List.flatMap_cons, List.length_append, h, ih, List.length_cons]; ring

@[simp] theorem hexDigits_length (w : List Byte) : (hexDigits w).length = 2 * w.length := by
  rw [hexDigits, flatMap_length_const _ 2 (fun _ => rfl), List.length_reverse]

@[simp] theorem bitString_length (w : List Byte) : (bitString w).length = 8 * w.length := by
  rw [bitString, flatMap_length_const _ 8 (fun _ => rfl), List.length_reverse]

@[simp] theorem binDigits_length (w : List Byte) : (binDigits w).length = 8 * w.length := by
  rw [binDigits, List.length_map, bitString_length]

theorem tripleDigits_length {g : Nat} {bs : List Bool} (h : bs.length = 3 * g) : (tripleDigits bs).length = g := by
  induction g generalizing bs with
  | zero => rw [List.length_eq_zero_iff.mp (by omega : bs.length = 0)]; rfl
  | succ g ih =>
    match bs, h with
    | a :: b :: c :: bs, h =>
      simp only [tripleDigits, List.length_cons]
      rw [ih (by simp only [List.length_cons] at h; omega)]

@[simp] theorem octDigits_length (w : List Byte) : (octDigits w).length = octCount (8 * w.length) := by
  refine tripleDigits_length ?_
  simp only [List.length_append, List.length_replicate, bitString_length, octPad, octCount]
  omega

theorem trimIndex_lt : ∀ {ds : List Nibble}, ds ≠ [] → trimIndex ds < ds.length
  | [_], _ => by simp [trimIndex]
  | d :: e :: ds, _ => by
    have ih := trimIndex_lt (ds := e :: ds) (by simp)
    simp only [trimIndex, List.length_cons] at ih ⊢
    split <;> omega

end Sys2Proof.Machine
end

