-- ==== Sys2Proof/Tests/Slice0.lean ====
section
/-! SUPPORT. The model's own tests (expected values from `30_encoding.md` section 5 and `95_test_vectors.md`) and, for every statement with
hypotheses, a witness that meets them. -/

namespace Sys2Proof.Tests

open Sys2Proof Sys2Proof.Machine

/-! ### Small states -/

/-- A next state that passes a check. -/
def after (o : Result) (p : State → Bool) : Bool :=
  match o with
  | .next t => p t
  | .fault _ => false
  | .refused _ => false

/-- Bytes from their numbers. -/
def bytes (l : List Nat) : List Byte := l.map (BitVec.ofNat 8)
/-- Digits from their numbers. -/
def nibbles (l : List Nat) : List Nibble := l.map (BitVec.ofNat 4)
/-- IN holding these bytes from index 0. -/
def cells (l : List Nat) : Memory := (List.range l.length).zip (bytes l)

/-- Idle, LMAX = 16, BigEndian, after reset. -/
def idle : State := State.resetWith ⟨.bigEndian, false⟩ 16
/-- Idle with an operand in IN. -/
def loaded (l : List Nat) : State := { idle with inBuf := cells l, inLen := l.length }
/-- The command `w` accepted on an operand in IN. -/
def given (w : Byte) (l : List Nat) : State := acceptCommand w (loaded l)
/-- The command `w` accepted on a ByteSequence in W. -/
def onW (w : Byte) (l : List Nat) : State := acceptCommand w { idle with wBuf := bytes l, wLen := l.length }
/-- The command `w` accepted on a DigitSequence in DIG. -/
def onDig (w : Byte) (r : Radix) (l : List Nat) : State :=
  acceptCommand w { idle with digBuf := nibbles l, digLen := l.length, digRadix := r }
/-- Inside the loop of CONV.DEC on `W = [A5]` (vector T20). -/
def inLoop (w : Byte) (it : Nat) (sByte : Nat) (acc : List Nat) : State :=
  { onW w [0xA5] with phase := .dd, it := it, sBuf := bytes [sByte], accBuf := nibbles acc }
/-- A state with host actions pending. -/
def withActs (acts : List HostAct) (s : State) : State := { s with script := acts }

/-! ### Well-formedness -/

theorem test_normB_of_hex_string_is_ill_formed : (Instr.normB true .bigEndian .hexstr).wellFormed = false := by decide
theorem test_normB_of_no_kind_is_ill_formed : (Instr.normB false .littleEndian .other).wellFormed = false := by decide
theorem test_normB_of_array_is_well_formed : (Instr.normB true .littleEndian .array).wellFormed = true := by decide

/-! ### Decoding, from words written out bit by bit (`30_encoding.md` R61 to R66) -/

theorem test_decode_normB : decodeWord 0b10000000 = .normB true .bigEndian .buffer := by decide
theorem test_decode_normB_array_le : decodeWord 0b11010000 = .normB true .littleEndian .array := by decide
theorem test_decode_normX : decodeWord 0b00100000 = .normX := by decide
theorem test_decode_normK3 : decodeWord 0b00110000 = .normK3 := by decide
theorem test_decode_convDec : decodeWord 0b00000001 = .convDec := by decide
theorem test_decode_convHex : decodeWord 0b00000101 = .convHex := by decide
theorem test_decode_convOct : decodeWord 0b00001001 = .convOct := by decide
theorem test_decode_convBin : decodeWord 0b00001101 = .convBin := by decide
theorem test_decode_rend : decodeWord 0b00000010 = .rend := by decide
/-- T69a: REND ignores its RADIX field. -/
theorem test_decode_rend_radix_ignored : decodeWord 0b00001110 = .rend := by decide
theorem test_decode_fmtDec : decodeWord 0b11000011 = .fmtDec true .littleEndian .buffer := by decide
theorem test_decode_fmtHex : decodeWord 0b00100111 = .fmtHex false .bigEndian .hexstr := by decide
theorem test_decode_fmtOct : decodeWord 0b10001011 = .fmtOct true .bigEndian .buffer := by decide
theorem test_decode_fmtBin : decodeWord 0b10111111 = .fmtBin true .bigEndian .other := by decide
theorem test_decode_no_byte : decodeBytes [] = .error .noCommandWord := by rfl
theorem test_decode_two_bytes : decodeBytes [0x80, 0x01] = .error .longerThanOneWord := by rfl
theorem test_decode_table_word_too_long : decodeTableWord 8 256 = none := by decide

/-! ### The assembler's examples (`30_encoding.md` R75) -/

theorem test_assemble_fmt_dec_buf_be : assemble "FMT dec, buf, be".toList = some 0x83 := by decide
theorem test_assemble_fmt_dec_buf_le : assemble "fmt DEC, BUF, LE".toList = some 0xC3 := by decide
theorem test_assemble_fmt_hex_hexs : assemble "FMT hex, hexs".toList = some 0x27 := by decide
theorem test_assemble_norm_arr_be : assemble "NORM arr, be".toList = some 0x90 := by decide
theorem test_assemble_conv_bin : assemble "CONV bin".toList = some 0x0D := by decide
theorem test_assemble_rend : assemble "REND".toList = some 0x02 := by decide

/-! ### One step of each command -/

/-- T1: BigEndian reverses. -/
theorem test_normB_big : after (exec (decodeWord 0x80) (given 0x80 [0x27, 0xA7, 0x63])) (fun t =>
    t.wBuf = [0x63, 0xA7, 0x27] ∧ t.wLen = 3 ∧ statusWord t.status = 0x02 ∧ t.phase = .idle) = true := by decide
/-- T8: no declared order and `CFG.DORD = 0`. -/
theorem test_normB_default : after (exec (decodeWord 0x00) (given 0x00 [1, 2])) (fun t =>
    t.wBuf = [2, 1] ∧ statusWord t.status = 0x02) = true := by decide
/-- T10: a prefixed string. -/
theorem test_normX_prefix : after (exec .normX (given 0x20 [0x30, 0x78, 0x32, 0x37, 0x61, 0x37, 0x36, 0x33])) (fun t =>
    t.wBuf = [0x63, 0xA7, 0x27] ∧ t.wLen = 3 ∧ statusWord t.status = 0x02) = true := by decide
/-- T13: `"abc"`, an odd count. -/
theorem test_normX_odd : after (exec .normX (given 0x20 [0x61, 0x62, 0x63])) (fun t =>
    t.wBuf = [0xBC, 0x0A] ∧ t.wLen = 2 ∧ statusWord t.status = 0x02) = true := by decide
/-- T89: the kind is tested before the length. -/
theorem test_normK3_first : after (exec .normK3 (given 0x30 [])) (fun t => t.wLen = 0 ∧ statusWord t.status = 0x06) = true := by
  decide
/-- T19f. -/
theorem test_normK3_keeps_in : after (exec .normK3 (given 0x30 [1, 2, 3])) (fun t =>
    t.inLen = 3 ∧ t.inBuf = [(0, 1), (1, 2), (2, 3)] ∧ statusWord t.status = 0x06) = true := by decide
/-- T20, iteration 3: a carry from slot 3 into slot 2. -/
theorem test_convDec_iteration : after (exec .convDec (inLoop 0x01 3 0x28 [0, 0, 0, 5])) (fun t =>
    t.sBuf = [0x50] ∧ t.accBuf = [0, 0, 1, 0] ∧ t.carry = false ∧ t.it = 4) = true := by decide
/-- T20, the commit. -/
theorem test_convDec_commit : after (exec .convDec (inLoop 0x01 8 0 [0, 1, 6, 5])) (fun t =>
    t.digBuf = [0, 1, 6, 5] ∧ t.digLen = 4 ∧ t.digRadix = .dec ∧ t.wBuf = [0xA5] ∧ statusWord t.status = 0x02) = true := by decide
/-- T47. -/
theorem test_convHex : after (exec .convHex (onW 0x05 [0x10, 0x27])) (fun t =>
    t.digBuf = [2, 7, 1, 0] ∧ t.digLen = 4 ∧ t.digRadix.code = 1) = true := by decide
/-- T46: a digit that straddles a byte boundary. -/
theorem test_convOct : after (exec .convOct (onW 0x09 [0x00, 0x01])) (fun t =>
    t.digBuf = [0, 0, 0, 4, 0, 0] ∧ t.digLen = 6 ∧ t.digRadix.code = 2) = true := by decide
/-- T42. -/
theorem test_convBin : after (exec .convBin (onW 0x0D [0x09])) (fun t =>
    t.digBuf = [0, 0, 0, 0, 1, 0, 0, 1] ∧ t.digRadix.code = 3) = true := by decide
/-- T53: no ByteSequence. -/
theorem test_convBin_absent : after (exec .convBin (onW 0x0D [])) (fun t => t.digLen = 0 ∧ statusWord t.status = 0x0A) = true := by
  decide
/-- T62. -/
theorem test_rend : after (exec .rend (onDig 0x02 .hex [0, 1, 15, 15])) (fun t =>
    t.txtBuf = [0x31, 0x66, 0x66] ∧ t.txtLen = 3 ∧ statusWord t.status = 0x02) = true := by decide
/-- T65. -/
theorem test_rend_zero : after (exec .rend (onDig 0x02 .dec [0, 0, 0, 0])) (fun t => t.txtBuf = [0x30] ∧ t.txtLen = 1) = true := by
  decide
/-- T74: NORM succeeds and the flow goes on. -/
theorem test_fmtDec_goes_on : after (exec (decodeWord 0x83) (given 0x83 [0x31, 0x30])) (fun t =>
    t.wBuf = [0x30, 0x31] ∧ t.phase = .conv ∧ statusWord t.status = 0x01) = true := by decide
/-- T76: the characters "10" read as a hexadecimal string. -/
theorem test_fmtDec_hex_string : after (exec (decodeWord 0x23) (given 0x23 [0x31, 0x30])) (fun t => t.wBuf = [0x10]) = true := by
  decide
/-- T78: `"0xg1"`. -/
theorem test_fmtHex_bad_character : after (exec (decodeWord 0x27) (given 0x27 [0x30, 0x78, 0x67, 0x31])) (fun t =>
    t.wLen = 0 ∧ statusWord t.status = 0x06 ∧ t.phase = .idle) = true := by decide
/-- S1, whole, three engine steps. -/
theorem test_fmtHex_whole : after (execTimes (decodeWord 0x87) 3 (given 0x87 [0x27, 0xA7, 0x63])) (fun t =>
    t.txtBuf = [0x32, 0x37, 0x61, 0x37, 0x36, 0x33] ∧ t.txtLen = 6 ∧ statusWord t.status = 0x02) = true := by decide
/-- S4, whole: the octal text "777". -/
theorem test_fmtOct_whole : after (execTimes (decodeWord 0x8B) 3 (given 0x8B [0x01, 0xFF])) (fun t =>
    t.digBuf = [0, 0, 0, 7, 7, 7] ∧ t.txtBuf = [0x37, 0x37, 0x37]) = true := by decide
/-- T79. -/
theorem test_fmtBin_capacity : after (exec (decodeWord 0xCF) (given 0xCF (List.replicate 17 0))) (fun t =>
    t.wLen = 0 ∧ statusWord t.status = 0x0E) = true := by decide
/-- S4, whole: the binary text trimmed, and under the other policy not. -/
theorem test_fmtBin_whole : after (execTimes (decodeWord 0x8F) 3 (given 0x8F [0x01, 0xFF])) (fun t =>
    t.txtBuf = List.replicate 9 0x31) = true ∧
    after (execTimes (decodeWord 0x8F) 3 { given 0x8F [0x01, 0xFF] with cfg := ⟨.bigEndian, true⟩ }) (fun t =>
      t.txtLen = 16) = true := by decide

/-! ### The host port and the step -/

/-- T90, with LMAX = 32 so that `LENW = 9`. -/
theorem test_in_keeps_low_bits : after (step { idle with lmaxr := 32, script := [.write 1 0 0x1A5] }) (fun t =>
    t.inBuf = [(0, 0xA5)]) = true := by decide
/-- T91: W_LEN is read-only. -/
theorem test_w_len_read_only : after (step (withActs [.write 0 5 7] (onW 0x01 [1] |> finish))) (fun t => t.wLen = 1) = true := by
  decide
/-- T92: unmapped addresses read 0. -/
theorem test_unmapped : after (stepTimes 3 (withActs [.read 5 0, .read 0 9, .read 2 16] (loaded [7]))) (fun t =>
    t.seen = [0, 0, 0]) = true := by decide
/-- T93, T94: a write while BUSY is dropped, and STATUS reads 1. -/
theorem test_busy : after (stepTimes 2 (withActs [.write 0 0 0x83, .read 0 1] (inLoop 0x01 3 0x28 [0, 0, 0, 5]))) (fun t =>
    t.cmd = 0x01 ∧ t.it = 3 ∧ t.seen = [1]) = true := by decide
/-- T97. -/
theorem test_straps_read : after (stepTimes 2 (withActs [.read 0 2, .read 0 3] { idle with cfg := ⟨.littleEndian, false⟩ }))
    (fun t => t.seen = [1, 16]) = true := by decide
/-- T99: reset in the middle of a command. -/
theorem test_reset_while_busy : after (step (withActs [.reset] (inLoop 0x01 3 0x28 [0, 0, 0, 5]))) (fun t =>
    t.phase = .idle ∧ t.cmd = 0 ∧ statusWord t.status = 0 ∧ t.wLen = 0 ∧ t.wBuf = []) = true := by decide
/-- R41: a second host is refused. -/
theorem test_second_host : step (withActs [.otherHost] idle) = .refused .secondHost := rfl
/-- R184: after a REND that fails, W_LEN stays and the elements of W are free values of a new draw, not the bytes they were. -/
theorem test_failed_rend_loses_w : step { onW 0x02 [0x63] with draws := 5 } = .next { onW 0x02 [0x63] with
    phase := .idle, status := ⟨false, true, some .emptyInput⟩, wBuf := [Config.freeBits 8 5 0], draws := 6 } := by rfl
/-- R76: LOADS of the string of T14. -/
theorem test_loads : loadString "1ff".toList =
    some [.write 1 0 0x31, .write 1 1 0x66, .write 1 2 0x66, .write 0 4 3] := by decide
/-- A command word given after reset runs at the next step (T39). -/
theorem test_fetch_word_convDec : after (step (State.reset.withFetchWord 8 0x01)) (fun t => statusWord t.status = 0x0A) = true := by
  decide
/-- P2's read back: after REND of scenario 4 in hexadecimal, GETT returns 3 and "1ff". -/
theorem test_get_text : after (stepTimes 4 (withActs [.get .txt]
    { idle with txtBuf := bytes [0x31, 0x66, 0x66], txtLen := 3 })) (fun t => t.seen = [3, 0x31, 0x66, 0x66]) = true := by decide

/-- T20, iteration 7, in the add-3 form of R112. -/
theorem test_add3_form : add3Slots [0, 0, 8, 2] true = [0, 1, 6, 5] := by decide
/-- T20, iteration 7, with the early exit of R115(b). -/
theorem test_early_exit : doubleSlotsEarly [0, 0, 8, 2] true = ([0, 1, 6, 5], false) := by decide
/-- R89 on an odd count. -/
theorem test_swaps : reverseBySwaps [1, 2, 3, 4, 5] = [5, 4, 3, 2, 1] := by decide
/-- R6's sizes for LMAX = 16 (`95_test_vectors.md`, conventions). -/
theorem test_sizes : inMax 16 = 34 ∧ cap 16 = 44 ∧ digMax 16 = 128 ∧ txtMax 16 = 128 ∧ lenw 16 = 8 := by decide

/-! ### Witnesses: concrete states that satisfy the invariant -/

/-- REND accepted on `W = [FF, 01]` with its hexadecimal digits in DIG. -/
def onResult (w : Byte) : State :=
  acceptCommand w { idle with wBuf := bytes [0xFF, 0x01], wLen := 2, digBuf := nibbles [0, 1, 15, 15], digLen := 4, digRadix := .hex }
/-- Idle with a full set of results and an operand (end of P2's first half). -/
def finished : State :=
  { loaded [0x01, 0xFF] with
    wBuf := bytes [0xFF, 0x01], wLen := 2, digBuf := nibbles [0, 1, 15, 15], digLen := 4, digRadix := .hex,
    txtBuf := bytes [0x31, 0x66, 0x66], txtLen := 3, status := ⟨false, true, none⟩ }
/-- Idle after an error. -/
def failed : State := raiseError .emptyInput idle
/-- CONV.DEC on `W = [A5]` before iteration 3 (T20). -/
def looping : State := inLoop 0x01 3 0x28 [0, 0, 0, 5]

theorem witness_inv_idle : idle.Inv := by
  constructor <;> first | decide | exact fun h => absurd h (by decide)
theorem witness_inv_loaded : (loaded [0x01, 0xFF]).Inv := by
  constructor <;> first | decide | exact fun h => absurd h (by decide)
theorem witness_inv_norm : (given 0x80 [0x01, 0xFF]).Inv := by
  constructor <;> first | decide | exact fun h => absurd h (by decide)
theorem witness_inv_norm_empty : (given 0x80 []).Inv := by
  constructor <;> first | decide | exact fun h => absurd h (by decide)
theorem witness_inv_norm_full : (given 0x80 (List.replicate 16 1)).Inv := by
  constructor <;> first | decide | exact fun h => absurd h (by decide)
theorem witness_inv_fmt_norm : (given 0x83 [0x01, 0xFF]).Inv := by
  constructor <;> first | decide | exact fun h => absurd h (by decide)
theorem witness_inv_conv_hex : (onW 0x05 [0xFF, 0x01]).Inv := by
  constructor <;> first | decide | exact fun h => absurd h (by decide)
theorem witness_inv_conv_dec : (onW 0x01 [0xA5]).Inv := by
  constructor <;> first | decide | exact fun h => absurd h (by decide)
theorem witness_inv_conv_empty : (onW 0x01 []).Inv := by
  constructor <;> first | decide | exact fun h => absurd h (by decide)
theorem witness_inv_rend : (onResult 0x02).Inv := by
  constructor <;> first | decide | exact fun h => absurd h (by decide)
theorem witness_inv_finished : finished.Inv := by
  constructor <;> first | decide | exact fun h => absurd h (by decide)
theorem witness_inv_failed : failed.Inv := by
  constructor <;> first | decide | exact fun h => absurd h (by decide)
theorem witness_loopInv : looping.LoopInv := by constructor <;> decide
theorem witness_inv_looping : looping.Inv := by
  constructor <;> first | decide | exact fun _ => witness_loopInv
/-- The host's pending actions are no part of the invariant. -/
theorem witness_inv_withActs {s : State} (h : s.Inv) (acts : List HostAct) : (withActs acts s).Inv := h.withScript acts

/-! ### Witnesses: the hypotheses of each statement, met together (clause by clause, at the boundaries) -/

/-- That a result is a next state. -/
def isNext (o : Result) : Bool := after o fun _ => true
theorem exists_of_isNext {o : Result} (h : isNext o = true) : ∃ t, o = .next t := by
  cases o with
  | next t => exact ⟨t, rfl⟩
  | fault _ => cases h
  | refused _ => cases h
/-- A next state that passes a check. -/
theorem exists_of_after {o : Result} {p : State → Bool} (h : after o p = true) : ∃ t, o = .next t ∧ p t = true := by
  cases o with
  | next t => exact ⟨t, rfl, h⟩
  | fault _ => cases h
  | refused _ => cases h

theorem witness_ResetGivesTheResetTable :
    (withActs [.reset, .read 0 1] looping).script = .reset :: [.read 0 1] ∧
    portLoc looping 1 0 = some (.inElem 0) ∧ portLoc looping 1 33 = some (.inElem 33) ∧ portLoc looping 2 15 = some (.wElem 15) ∧
    portLoc looping 3 127 = some (.digElem 127) ∧ portLoc looping 4 127 = some (.txtElem 127) := by decide
theorem witness_ResetStateSatisfiesInvariant : (1 : Nat) ≤ 1 := by decide
/-- One state for each phase and for host actions, each with a next state. -/
theorem witness_StepKeepsInvariant :
    ∀ s ∈ [idle, given 0x80 [0x01, 0xFF], given 0x80 [], given 0x83 [0x01, 0xFF], onW 0x05 [0xFF, 0x01], onW 0x01 [0xA5], looping,
      onResult 0x02, withActs [.write 0 0 0x83] finished, withActs [.get .txt] finished, withActs [.reset] looping],
      ∃ t, step s = .next t := by
  intro s h
  simp only [List.mem_cons, List.not_mem_nil, or_false] at h
  rcases h with rfl | rfl | rfl | rfl | rfl | rfl | rfl | rfl | rfl | rfl | rfl <;> exact exists_of_isNext (by decide)
theorem witness_InvariantStatesNeverStop : idle.Inv ∧ (withActs [.otherHost] idle).Inv ∧ (withActs [.otherHost] idle).script = [.otherHost] :=
  ⟨witness_inv_idle, witness_inv_withActs witness_inv_idle _, rfl⟩
theorem witness_StrapsNeverChange : isNext (step looping) = true := by decide
theorem witness_DecodeEncodeRoundTrip :
    (Instr.normB true .littleEndian .array).wellFormed = true ∧ Instr.rend.wellFormed = true := by decide
theorem witness_IgnoredFieldsChangeNothing :
    opField 0x8C = 0 ∧ (opField 0xEC = 0 ∧ 2 ≤ (kindField 0xEC).toNat) ∧ (opField 0xF3 = 3 ∧ 2 ≤ (kindField 0xF3).toNat) ∧
    opField 0xF1 = 1 ∧ opField 0xFE = 2 ∧ Instr.normX.wellFormed = true ∧
    2 ≤ InputKind.hexstr.code.toNat ∧ 2 ≤ InputKind.other.code.toNat := by decide
theorem witness_EffectiveOrderRule :
    (InputKind.buffer.isBytes = true ∧ (given 0x80 [1]).phase = .norm ∧ 0 < (given 0x80 [1]).inLen ∧
      (given 0x80 (List.replicate 16 1)).inLen ≤ (given 0x80 (List.replicate 16 1)).lmaxr) ∧
    isNext (exec (.normB true .bigEndian .buffer) (given 0x80 [1, 2])) = true ∧
    isNext (exec (fmtOf .dec true .littleEndian .array) (given 0xD3 [1, 2])) = true := by decide
theorem witness_StepRunsTheLatchedCommand :
    looping.script = [] ∧ (withActs [.engine] looping).script = .engine :: [] ∧
    ((withActs [.wait] looping).script = .wait :: [] ∧ (withActs [.wait] looping).status.done = false) ∧ idle.phase = .idle := by decide
theorem witness_AcceptedWriteStartsCommand :
    (withActs [.write 0 0 0x83] idle).script = .write 0 0 0x83 :: [] ∧ 0 % 2 ^ lenw idle.lmaxr = 0 ∧ 256 % 2 ^ lenw idle.lmaxr = 0 ∧
    idle.status.busy = false := by decide
theorem witness_BusyPortIgnoresAndHides :
    (withActs [.write 0 0 0x83] looping).Inv ∧ (withActs [.read 0 1] looping).Inv ∧ (withActs [.read 1 0] looping).Inv ∧
    looping.status.busy = true ∧ 1 % 2 ^ lenw looping.lmaxr = 1 ∧ 257 % 2 ^ lenw looping.lmaxr = 1 ∧
    ¬ ((1 : BitVec 3) = 0 ∧ 0 % 2 ^ lenw looping.lmaxr = 1) ∧ ¬ Unmapped looping.lmaxr 1 (0 % 2 ^ lenw looping.lmaxr) := by
  refine ⟨witness_inv_withActs witness_inv_looping _, witness_inv_withActs witness_inv_looping _,
    witness_inv_withActs witness_inv_looping _, ?_⟩
  decide
theorem witness_UnmappedReadsZeroIgnoresWrites :
    Unmapped 16 0 9 ∧ Unmapped 16 1 34 ∧ Unmapped 16 2 16 ∧ Unmapped 16 3 128 ∧ Unmapped 16 4 128 ∧ Unmapped 16 5 0 ∧ Unmapped 16 7 255 ∧
    (withActs [.read 5 0] idle).script = .read 5 0 :: [] ∧ (withActs [.write 5 0 1] looping).script = .write 5 0 1 :: [] :=
  ⟨by decide, by decide, by decide, by decide, by decide, by decide, by decide, rfl, rfl⟩
theorem witness_HostWriteStoresWhatFits :
    idle.status.busy = false ∧ (withActs [.write 1 33 0x1A5] idle).script = .write 1 33 0x1A5 :: [] ∧
    (0 % 2 ^ lenw 16 < 2 * 16 + 2 ∧ 33 % 2 ^ lenw 16 < 2 * 16 + 2) ∧ 4 % 2 ^ lenw 16 = 4 ∧ 0 % 2 ^ lenw 16 = 0 ∧
    ((2 : BitVec 3) ≠ 1 ∧ ¬ ((2 : BitVec 3) = 0 ∧ (0 % 2 ^ lenw 16 = 0 ∨ 0 % 2 ^ lenw 16 = 4))) ∧
    ¬ ((0 : BitVec 3) = 0 ∧ (8 % 2 ^ lenw 16 = 0 ∨ 8 % 2 ^ lenw 16 = 4)) := by decide
/-- Every clause of the idle reads, on the state `finished`: W_LEN = 2, DIG_LEN = 4, TXT_LEN = 3, IN_LEN = 2. -/
theorem witness_IdleReadReturnsCurrentValue :
    (withActs [.read 0 0] finished).Inv ∧ finished.status.busy = false ∧ 0 % 2 ^ lenw finished.lmaxr = 0 ∧
    8 % 2 ^ lenw finished.lmaxr = 8 ∧
    finished.inBuf.read? 1 = some 0xFF ∧ finished.inBuf.read? 2 = none ∧ finished.inBuf.read? 33 = none ∧
    finished.wBuf[1]? = some 0x01 ∧ (finished.wLen ≤ 2 ∧ 15 % 2 ^ lenw finished.lmaxr < finished.lmaxr) ∧
    finished.digBuf[3]? = some 15 ∧ (finished.digLen ≤ 4 ∧ 127 % 2 ^ lenw finished.lmaxr < 8 * finished.lmaxr) ∧
    finished.txtBuf[2]? = some 0x66 ∧ finished.txtLen ≤ 3 :=
  ⟨witness_inv_withActs witness_inv_finished _, by decide⟩
theorem witness_LoadPutsTheOperand :
    (withActs (load (List.replicate 34 7)) idle).Inv ∧ idle.status.busy = false ∧
    (List.replicate 34 (7 : Byte)).length ≤ 2 * idle.lmaxr + 2 ∧ ([] : List Byte).length ≤ 2 * idle.lmaxr + 2 ∧
    load [] = [.write 0 4 0] ∧ (∀ c ∈ ['\x00', 'x', '\x7f'], c.toNat < 128) ∧
    (∃ c ∈ ['1', '\u0080'], 128 ≤ c.toNat) :=
  ⟨witness_inv_withActs witness_inv_idle _, by decide, by decide, by decide, rfl, by simp, '\u0080', by simp, by decide⟩
theorem witness_GetReadsTheValidElements :
    (withActs [.get .dig] finished).Inv ∧ finished.status.busy = false ∧ (withActs [.get .dig] finished).script = [.get .dig] :=
  ⟨witness_inv_withActs witness_inv_finished _, by decide⟩
theorem witness_WaitPollsUntilDone :
    ((withActs [.wait] finished).Inv ∧ finished.status.done = true) ∧ (withActs [.wait] looping).Inv ∧ looping.status.done = false :=
  ⟨⟨witness_inv_withActs witness_inv_finished _, by decide⟩, witness_inv_withActs witness_inv_looping _, by decide⟩

/-- NORM.B on 0, 1, 16 and 17 bytes, both orders. -/
theorem witness_NormBWritesCanonicalBytes :
    (given 0x80 []).phase = .norm ∧ (given 0x80 []).inLen = 0 ∧ (given 0x80 [5]).inLen = 1 ∧
    (given 0xC0 (List.replicate 16 5)).inLen ≤ (given 0xC0 (List.replicate 16 5)).lmaxr ∧
    (given 0xC0 (List.replicate 17 5)).inLen > (given 0xC0 (List.replicate 17 5)).lmaxr ∧
    decodeWord 0x80 = .normB true .bigEndian .buffer ∧ decodeWord 0xC0 = .normB true .littleEndian .buffer := by decide
theorem witness_HexCharacterValues :
    (0x30 ≤ (0x30 : Byte).toNat ∧ (0x39 : Byte).toNat ≤ 0x39) ∧ (0x61 ≤ (0x61 : Byte).toNat ∧ (0x66 : Byte).toNat ≤ 0x66) ∧
    (0x41 ≤ (0x41 : Byte).toNat ∧ (0x46 : Byte).toNat ≤ 0x46) ∧
    hexval 0x2F = none ∧ hexval 0x3A = none ∧ hexval 0x40 = none ∧ hexval 0x47 = none ∧ hexval 0x60 = none ∧ hexval 0x67 = none := by
  decide
/-- NORM.X: too long (35 and 33 characters), a bad character, no digit (`"0x"` and `""`), one digit, 32 digits after a prefix. -/
theorem witness_NormXReadsHexString :
    (given 0x20 []).phase = .norm ∧ (given 0x20 (List.replicate 35 0x30)).inLen > 2 * 16 + 2 ∧
    (given 0x20 (List.replicate 33 0x30)).inLen - prefixLen ((given 0x20 (List.replicate 33 0x30)).inBytes 33) > 2 * 16 ∧
    hexval ((given 0x20 [0x67]).inByte 0) = none ∧
    (given 0x20 [0x30, 0x78]).inLen - prefixLen ((given 0x20 [0x30, 0x78]).inBytes 2) = 0 ∧ (given 0x20 []).inLen = 0 ∧
    (hexval ((given 0x20 [0x61]).inByte 0)).isSome = true ∧
    (given 0x20 (0x30 :: 0x78 :: List.replicate 32 0x46)).inLen
      - prefixLen ((given 0x20 (0x30 :: 0x78 :: List.replicate 32 0x46)).inBytes 34) = 2 * 16 := by decide
theorem witness_NormK3AlwaysInvalid : (given 0x30 []).phase = .norm := by decide
theorem witness_NormDiscardsEarlierResults :
    (given 0x80 []).phase = .norm ∧ (given 0x80 []).status.err = none ∧
    after (exec (decodeWord 0x80) (given 0x80 [])) (fun t => t.status.err ≠ none) = true ∧
    after (exec (decodeWord 0x80) (given 0x80 [1])) (fun t => t.status.err = none) = true ∧
    opField 0x01 = 1 ∧ opField 0x02 = 2 := by decide

theorem witness_DecimalEntryStep :
    (onW 0x01 []).phase = .conv ∧ (onW 0x01 []).wLen = 0 ∧ (onW 0x01 [0xA5]).phase = .conv ∧ (onW 0x01 [0xA5]).wLen ≠ 0 := by decide
theorem witness_DecimalIterationStep :
    looping.phase = .dd ∧ looping.it < 8 * looping.wLen ∧
    (inLoop 0x01 0 0xA5 [0, 0, 0, 0]).it < 8 * looping.wLen ∧ (inLoop 0x01 7 0x80 [0, 0, 8, 2]).it < 8 * looping.wLen := by decide
theorem witness_CapturedBitIsTopBit : ([0x80] : List Byte) ≠ [] := by decide
theorem witness_ShiftDoublesTheValue :
    ([0xFF, 0x01] : List Byte)[0]? = some 0xFF ∧ 1 ≤ 1 ∧ ([0xFF, 0x01] : List Byte)[1]? = some 0x01 ∧
    ([0xFF, 0x01] : List Byte)[1 - 1]? = some 0xFF := by decide
theorem witness_DigitUpdateDoublesTheValue : ∀ d ∈ ([9, 9, 5] : List Nibble), d.toNat ≤ 9 := by decide
theorem witness_DecimalCommitStep :
    (inLoop 0x01 8 0 [0, 1, 6, 5]).phase = .dd ∧ 8 * (inLoop 0x01 8 0 [0, 1, 6, 5]).wLen ≤ (inLoop 0x01 8 0 [0, 1, 6, 5]).it := by decide
/-- Before the first iteration, and after the last. -/
theorem witness_DoubleDabbleLoopInvariant :
    (onW 0x01 [0xA5]).phase = .conv ∧ 0 < (onW 0x01 [0xA5]).wLen ∧ 0 ≤ 8 * (onW 0x01 [0xA5]).wLen ∧ 8 ≤ 8 * (onW 0x01 [0xA5]).wLen := by
  decide
theorem witness_DecimalConversionResult : (onW 0x01 [0xA5]).phase = .conv ∧ 0 < (onW 0x01 [0xA5]).wLen := by decide
theorem witness_CapacityIsSufficient : 1 ≤ 1 ∧ ([0xFF] : List Byte).length = 1 := by decide
theorem witness_AddThreeFormIsEqual : ∀ d ∈ ([0, 4, 5, 9] : List Nibble), d.toNat ≤ 9 := by decide
/-- A phase CONV without and with a ByteSequence, for the three commands of unit RX. -/
theorem witness_ConvHexWritesNibbles :
    (onW 0x05 []).phase = .conv ∧ (onW 0x05 []).wLen = 0 ∧ (onW 0x05 [1, 2]).wLen ≠ 0 ∧ 1 < (onW 0x05 [1, 2]).wLen := by decide
theorem witness_ConvBinWritesBits :
    (onW 0x0D []).phase = .conv ∧ (onW 0x0D []).wLen = 0 ∧ (onW 0x0D [1, 2]).wLen ≠ 0 ∧ 1 < (onW 0x0D [1, 2]).wLen ∧ 7 < 8 := by decide
theorem witness_ConvOctWritesTriples :
    (onW 0x09 []).phase = .conv ∧ (onW 0x09 []).wLen = 0 ∧ (onW 0x09 [1, 2]).wLen ≠ 0 ∧ 5 < (8 * (onW 0x09 [1, 2]).wLen + 2) / 3 := by
  decide
theorem witness_RendWritesTrimmedText :
    (onDig 0x02 .hex []).phase = .rend ∧ (onDig 0x02 .hex []).digLen = 0 ∧ (onDig 0x02 .hex [0, 10]).digLen ≠ 0 := by decide
theorem witness_TrimIndexRule :
    (∀ d ∈ ([0, 0] : List Nibble), d = 0) ∧ ([0, 5] : List Nibble) ≠ [] ∧ ([0, 5] : List Nibble)[1]? = some 5 ∧ (5 : Nibble) ≠ 0 ∧
    ∀ j < 1, ([0, 5] : List Nibble)[j]? = some 0 := by decide
theorem witness_AlphabetCodes : (9 : Nibble).toNat ≤ 9 ∧ 10 ≤ (10 : Nibble).toNat ∧ 10 ≤ (15 : Nibble).toNat := by decide
theorem witness_ZeroRendersAsOneZero :
    (onDig 0x02 .bin [0, 0]).phase = .rend ∧ 0 < (onDig 0x02 .bin [0, 0]).digLen ∧ (∀ d ∈ (onDig 0x02 .bin [0, 0]).digits, d = 0) ∧
    ¬ ((onDig 0x02 .bin [0, 0]).cfg.bfw = true ∧ (onDig 0x02 .bin [0, 0]).digRadix = .bin) ∧
    (let s := { onDig 0x02 .bin [0, 0] with cfg := ⟨.bigEndian, true⟩ }
     s.phase = .rend ∧ (∀ d ∈ s.digits, d = 0) ∧ s.cfg.bfw = true ∧ s.digRadix = .bin) := by decide
theorem witness_TrimmedTextIsNumeral :
    ([0, 7, 0] : List Nibble) ≠ [] ∧ (∀ d ∈ ([0, 7, 0] : List Nibble), d.toNat < Radix.oct.base) ∧
    (renderText false .oct [0, 0])[0]? = some 0x30 := by decide

/-- An error of each phase, of each kind. -/
theorem witness_ErrorEntry :
    ((given 0x80 []).status.err = none ∧ (given 0x80 []).phase = .norm ∧
      after (exec (decodeWord 0x80) (given 0x80 [])) (fun t => t.status.err = some .emptyInput) = true) ∧
    ((onW 0x05 []).status.err = none ∧ (onW 0x05 []).phase = .conv ∧
      after (exec .convHex (onW 0x05 [])) (fun t => t.status.err = some .emptyInput) = true) ∧
    ((onDig 0x02 .hex []).status.err = none ∧ (onDig 0x02 .hex []).phase = .rend ∧
      after (exec .rend (onDig 0x02 .hex [])) (fun t => t.status.err = some .emptyInput) = true) ∧
    ((onW 0x02 [0x63]).phase = .rend ∧ 0 < (onW 0x02 [0x63]).wLen ∧
      after (exec .rend (onW 0x02 [0x63])) (fun t => t.status.err = some .emptyInput ∧ t.wLen ≤ 1) = true) := by decide
theorem witness_ErrorsByPhase :
    (given 0x80 []).status.err = none ∧
    after (exec (decodeWord 0x80) (given 0x80 (List.replicate 17 0))) (fun t => t.status.err = some .capacity) = true ∧
    after (exec .normX (given 0x20 [0x67])) (fun t => t.status.err = some .invalidInputKind) = true := by decide
theorem witness_ErrorPriority :
    (given 0x30 []).phase = .norm ∧ InputKind.other.code = 3 ∧ InputKind.hexstr.code = 2 ∧
    (given 0x20 (List.replicate 35 0x67)).inLen > 2 * (given 0x20 (List.replicate 35 0x67)).lmaxr + 2 ∧
    (given 0x20 (List.replicate 33 0x67)).inLen - prefixLen ((given 0x20 (List.replicate 33 0x67)).inBytes 33)
      > 2 * (given 0x20 (List.replicate 33 0x67)).lmaxr := by decide
/-- A failed command, then nothing, a new command, or reset. -/
theorem witness_ErrorPersistsUntilNextCommand :
    failed.Inv ∧ (withActs [.write 0 0 0x80] failed).Inv ∧ (withActs [.reset] failed).Inv ∧ failed.status.err = some .emptyInput ∧
    isNext (step failed) = true ∧ isNext (step (withActs [.write 0 0 0x80] failed)) = true ∧
    isNext (step (withActs [.reset] failed)) = true :=
  ⟨witness_inv_failed, witness_inv_withActs witness_inv_failed _, witness_inv_withActs witness_inv_failed _, by decide⟩

theorem witness_CommandsLeaveOperandsAlone :
    isNext (exec .convDec looping) = true ∧ looping.phase ≠ .norm ∧
    isNext (exec .rend (onDig 0x02 .hex [0, 10])) = true ∧ (onDig 0x02 .hex [0, 10]).phase = .rend ∧
    (onDig 0x02 .hex [0, 10]).digLen ≠ 0 ∧ (onW 0x05 [1]).phase = .conv ∧ (onW 0x05 [1]).wLen ≠ 0 ∧
    isNext (exec .convHex (onW 0x05 [1])) = true ∧ Instr.convHex ≠ .convDec ∧
    (∀ ordv ord kind, Instr.convHex ≠ .fmtDec ordv ord kind) ∧
    isNext (exec (decodeWord 0x87) { onW 0x87 [1] with phase := .conv }) = true :=
  ⟨by decide, by decide, by decide, by decide, by decide, by decide, by decide, by decide, by decide, nofun, by decide⟩
theorem witness_FmtNormPhaseIsNorm :
    (given 0x87 [1]).phase = .norm ∧ (given 0x87 [1]).status.err = none ∧
    after (exec (normOf true .bigEndian .buffer) (given 0x87 [1])) (fun t => t.status.err = none) = true ∧
    after (exec (normOf true .bigEndian .buffer) (given 0x87 [])) (fun t => t.status.err ≠ none) = true := by decide
theorem witness_FmtLaterPhasesAreConvAndRend :
    (onW 0x07 [1]).status.err = none ∧ ({ onW 0x07 [1] with phase := .conv }).phase = .conv ∧ 0 < (onW 0x07 [1]).wLen ∧
    Radix.hex ≠ .dec ∧ ({ onDig 0x07 .hex [0, 1] with phase := .rend }).phase = .rend ∧ 0 < (onDig 0x07 .hex [0, 1]).digLen := by decide
/-- One byte and sixteen bytes, in radix 10 and 2. -/
theorem witness_FmtTextIsNumeralOfInput :
    (given 0x83 [5]).phase = .norm ∧ InputKind.array.isBytes = true ∧ 0 < (given 0x83 [5]).inLen ∧
    (given 0x83 (List.replicate 16 5)).inLen ≤ (given 0x83 (List.replicate 16 5)).lmaxr ∧
    ¬ ((given 0x8F [5]).cfg.bfw = true ∧ Radix.bin = .bin) := by decide
theorem witness_FmtEqualsStagedCommands :
    (loaded [0x01, 0xFF]).Inv ∧ (loaded [0x01, 0xFF]).status.busy = false ∧ idle.Inv ∧
    after (runCommand (encode (normOf true .bigEndian .buffer)) (loaded [0x01, 0xFF])) (fun t => t.status.err = none) = true ∧
    after (runCommand (encode (normOf true .bigEndian .buffer)) idle) (fun t => t.status.err ≠ none) = true :=
  ⟨witness_inv_loaded, by decide, witness_inv_idle, by decide⟩
/-- The text "1ff" of 511. -/
theorem witness_HexTextRoundTrip :
    (given 0x20 [0x31, 0x66, 0x66]).phase = .norm ∧ (given 0x20 [0x31, 0x66, 0x66]).inBytes 3 = numeral .hex 511 ∧
    (given 0x20 [0x31, 0x66, 0x66]).inLen ≤ 2 * 16 := by
  refine ⟨by decide, ?_, by decide⟩
  simp only [numeral, Radix.base, show Nat.digits 16 511 = [15, 15, 1] by norm_num]
  decide
theorem witness_ByteOrderSymmetry :
    InputKind.buffer.isBytes = true ∧ (given 0x80 [0x12, 0x34, 0x56]).phase = .norm ∧ (given 0xC0 [0x56, 0x34, 0x12]).phase = .norm ∧
    (given 0xC0 [0x56, 0x34, 0x12]).inLen = (given 0x80 [0x12, 0x34, 0x56]).inLen ∧
    (given 0xC0 [0x56, 0x34, 0x12]).inBytes 3 = ((given 0x80 [0x12, 0x34, 0x56]).inBytes 3).reverse := by decide
theorem witness_CommandStepCounts :
    (given 0x83 [0x01, 0xFF]).Inv ∧ (given 0x83 [0x01, 0xFF]).status.busy = true ∧
    (given 0x83 [0x01, 0xFF]).phase = startPhase (given 0x83 [0x01, 0xFF]).cmd ∧ (given 0x80 []).Inv ∧ (onW 0x01 [0xA5]).Inv ∧
    (onW 0x01 [0xA5]).phase = startPhase (onW 0x01 [0xA5]).cmd :=
  ⟨witness_inv_fmt_norm, by decide, by decide, witness_inv_norm_empty, witness_inv_conv_dec, by decide⟩
theorem witness_BusyClearsWithinBound : looping.Inv ∧ looping.script = [] ∧ looping.status.busy = true ∧ idle.Inv ∧ idle.script = [] :=
  ⟨witness_inv_looping, rfl, rfl, witness_inv_idle, rfl⟩
/-- `finished` and the same operand without its results agree on what a NORM or FMT command reads; with W and DIG given, on the rest. -/
theorem witness_ResultsDependOnOperandsOnly :
    finished.Inv ∧ (loaded [0x01, 0xFF]).Inv ∧ finished.status.busy = false ∧ (loaded [0x01, 0xFF]).status.busy = false ∧
    (loaded [0x01, 0xFF]).cfg = finished.cfg ∧ (loaded [0x01, 0xFF]).lmaxr = finished.lmaxr ∧
    (loaded [0x01, 0xFF]).inLen = finished.inLen ∧ (loaded [0x01, 0xFF]).inBuf = finished.inBuf ∧
    (∀ i < finished.inLen, finished.inBuf.read? i ≠ none) ∧ opField 0x83 = 3 ∧ opField 0x80 = 0 ∧
    (opField 0x01 = 1 ∧ SameW finished finished) ∧ opField 0x02 = 2 ∧ SameDig finished finished := by
  refine ⟨witness_inv_finished, witness_inv_loaded, rfl, rfl, rfl, rfl, rfl, rfl, ?_, ?_, ?_, ⟨?_, ⟨rfl, rfl⟩⟩, ?_, ⟨rfl, rfl, rfl⟩⟩ <;>
    decide

end Sys2Proof.Tests
end

section
/-! PROOF. The address map of `20_memory.md` R42, said once from each mapped location back to its address. -/

namespace Sys2Proof.Machine

/-- The index of a control register in space 0 (`20_memory.md` R42). -/
def Reg.index : Reg → Nat
  | .cmd => 0
  | .status => 1
  | .cfg => 2
  | .lmaxr => 3
  | .inLen => 4
  | .wLen => 5
  | .digLen => 6
  | .txtLen => 7
  | .digRadix => 8

theorem regAt_index (r : Reg) : regAt r.index = some r := by
  cases r <;> rfl

theorem regAt_of_nine_le {i : Nat} (h : 9 ≤ i) : regAt i = none := by
  obtain ⟨k, rfl⟩ := Nat.exists_eq_add_of_le' h
  rfl

theorem regAt_eq_some_iff (i : Nat) (r : Reg) : regAt i = some r ↔ i = r.index := by
  constructor
  · intro h
    have hi : i < 9 := by
      by_contra hge
      rw [regAt_of_nine_le (not_lt.mp hge)] at h
      cases h
    interval_cases i <;> cases h <;> rfl
  · rintro rfl
    exact regAt_index r

@[simp] theorem locate_space_zero (lmax i : Nat) : locate lmax 0#3 i = (regAt i).map .reg := rfl
@[simp] theorem locate_space_one (lmax i : Nat) : locate lmax 1#3 i = if i < 2 * lmax + 2 then some (.inElem i) else none := rfl
@[simp] theorem locate_space_two (lmax i : Nat) : locate lmax 2#3 i = if i < lmax then some (.wElem i) else none := rfl
@[simp] theorem locate_space_three (lmax i : Nat) : locate lmax 3#3 i = if i < 8 * lmax then some (.digElem i) else none := rfl
@[simp] theorem locate_space_four (lmax i : Nat) : locate lmax 4#3 i = if i < 8 * lmax then some (.txtElem i) else none := rfl

/-- A space is one of the five of `20_memory.md` R42, or 5, 6 or 7. -/
theorem space_cases (sp : BitVec 3) : sp = 0#3 ∨ sp = 1#3 ∨ sp = 2#3 ∨ sp = 3#3 ∨ sp = 4#3 ∨ 5 ≤ sp.toNat := by
  revert sp
  decide

theorem ne_of_five_le {sp k : BitVec 3} (h : 5 ≤ sp.toNat) (hk : k.toNat < 5) : sp ≠ k := by
  rintro rfl
  omega

theorem locate_of_five_le {sp : BitVec 3} (h : 5 ≤ sp.toNat) (lmax i : Nat) : locate lmax sp i = none := by
  simp [locate, ne_of_five_le h]

/-- The registers are in space 0, each at its own index. -/
theorem locate_eq_reg_iff (lmax : Nat) (sp : BitVec 3) (i : Nat) (r : Reg) :
    locate lmax sp i = some (.reg r) ↔ sp = 0 ∧ i = r.index := by
  rcases space_cases sp with rfl | rfl | rfl | rfl | rfl | h5
  · simp [regAt_eq_some_iff]
  · simp
  · simp
  · simp
  · simp
  · simp [locate_of_five_le h5, ne_of_five_le h5]

/-- The elements of IN are in space 1, each at its own index. -/
theorem locate_eq_inElem_iff (lmax : Nat) (sp : BitVec 3) (i j : Nat) :
    locate lmax sp i = some (.inElem j) ↔ sp = 1 ∧ i < 2 * lmax + 2 ∧ j = i := by
  rcases space_cases sp with rfl | rfl | rfl | rfl | rfl | h5
  · simp
  · simp [eq_comm]
  · simp
  · simp
  · simp
  · simp [locate_of_five_le h5, ne_of_five_le h5]

/-- `20_memory.md` R42 maps nothing at an unmapped address. -/
theorem locate_of_unmapped {lmax : Nat} {sp : BitVec 3} {i : Nat} (h : Unmapped lmax sp i) : locate lmax sp i = none := by
  rcases h with h | ⟨rfl, h⟩ | ⟨rfl, h⟩ | ⟨rfl, h⟩ | ⟨rfl, h⟩ | ⟨rfl, h⟩
  · exact locate_of_five_le h lmax i
  · simp [regAt_of_nine_le h]
  · simp [Nat.not_lt.mpr h]
  · simp [Nat.not_lt.mpr h]
  · simp [Nat.not_lt.mpr h]
  · simp [Nat.not_lt.mpr h]

/-! ### The port at an unmapped address (`20_memory.md` R47) -/

theorem hostReadNote_unmapped {s : State} {sp : BitVec 3} {i : Nat} (h : portLoc s sp i = none) : hostReadNote s sp i = note 0 s :=
  hostReadNote_known (by simp [readDatum, h])

theorem hostWrite_unmapped {s : State} {sp : BitVec 3} {i : Nat} (v : Nat) (h : portLoc s sp i = none) : hostWrite s sp i v = s := by
  simp [hostWrite, h]

/-! ### The port's writes with BUSY = 0 (`20_memory.md` R44) -/

/-- Outside CMD, IN_LEN and IN a write changes nothing, whether the location is read-only or there is none. -/
theorem hostWrite_of_not_writable {s : State} {sp : BitVec 3} {i : Nat} (v : Nat) (hcmd : portLoc s sp i ≠ some (.reg .cmd))
    (hlen : portLoc s sp i ≠ some (.reg .inLen)) (hin : ∀ j, portLoc s sp i ≠ some (.inElem j)) : hostWrite s sp i v = s := by
  rcases hostWrite_cases s sp i v with h | ⟨_, hl, _⟩ | ⟨_, hl, _⟩ | ⟨j, _, hl, _⟩
  · exact h
  · exact absurd hl hcmd
  · exact absurd hl hlen
  · exact absurd hl (hin j)

/-- An element of IN, and CMD, take the low 8 bits of the port's data. -/
theorem ofNat_eight_mod (v : Nat) : BitVec.ofNat 8 (v % 256) = BitVec.ofNat 8 v := BitVec.eq_of_toNat_eq (by simp)

/-! ### The host's turn -/

theorem step_read {s : State} {sp : BitVec 3} {i : Nat} {rest : List HostAct} (h : s.script = .read sp i :: rest) :
    step s = .next (hostReadNote (s.withScript rest) sp i) := step_cons h

theorem step_write {s : State} {sp : BitVec 3} {i v : Nat} {rest : List HostAct} (h : s.script = .write sp i v :: rest) :
    step s = .next (hostWrite (s.withScript rest) sp i v) := step_cons h

/-! ### The obligations -/

/-- Settles O15: at an unmapped address the map gives no location, so a read notes 0 and a write is dropped, both without a look
at BUSY. -/
theorem unmappedReadsZeroIgnoresWrites : Obligations.UnmappedReadsZeroIgnoresWrites := by
  intro s sp i v rest hu
  have hloc : portLoc (s.withScript rest) sp i = none := locate_of_unmapped hu
  constructor
  · intro hs
    rw [step_read hs, hostReadNote_unmapped hloc]
    rfl
  · intro hs
    rw [step_write hs, hostWrite_unmapped v hloc]
    rfl

/-- Settles O16, one location of the address map at a time. -/
theorem hostWriteStoresWhatFits : Obligations.HostWriteStoresWhatFits := by
  intro s sp i v rest hs hb
  have hidle : (s.withScript rest).status.busy = false := hb
  rw [step_write hs]
  refine ⟨fun hsp hi => ?inElem, fun hsp hi => ?inLen, fun hsp hi => ?cmd, fun hsp hi => ?ignored⟩
  case inElem =>
    have hloc : portLoc (s.withScript rest) sp i = some (.inElem (i % 2 ^ lenw s.lmaxr)) :=
      (locate_eq_inElem_iff ..).mpr ⟨hsp, hi, rfl⟩
    rw [hostWrite_idle hidle hloc]
    refine ⟨_, rfl, fun a => ?_, rfl⟩
    rw [ofNat_eight_mod]
    exact Memory.read?_write ..
  case inLen =>
    rw [hostWrite_idle hidle ((locate_eq_reg_iff _ _ _ .inLen).mpr ⟨hsp, hi⟩)]
    rfl
  case cmd =>
    rw [hostWrite_idle hidle ((locate_eq_reg_iff _ _ _ .cmd).mpr ⟨hsp, hi⟩), ofNat_eight_mod]
    rfl
  case ignored =>
    have hcmd : portLoc (s.withScript rest) sp i ≠ some (.reg .cmd) :=
      fun hl => hi (((locate_eq_reg_iff ..).mp hl).imp_right .inl)
    have hlen : portLoc (s.withScript rest) sp i ≠ some (.reg .inLen) :=
      fun hl => hi (((locate_eq_reg_iff ..).mp hl).imp_right .inr)
    have hin (j : Nat) : portLoc (s.withScript rest) sp i ≠ some (.inElem j) :=
      fun hl => hsp ((locate_eq_inElem_iff ..).mp hl).1
    rw [hostWrite_of_not_writable v hcmd hlen hin]
    rfl

end Sys2Proof.Machine
end

section
/-! PROOF. The decoder by the fields of the word (`30_encoding.md` R61, R72), and the fields of a masked word. -/

namespace Sys2Proof

open Sys2Proof.Machine

/-! ### The decoder, one equation for each value of OP (R72) -/

theorem decodeWord_norm {w : Byte} (h : opField w = 0) :
    decodeWord w = normOf (ordvField w) (.ofCode (ordField w)) (.ofCode (kindField w)) := by
  simp only [decodeWord, h, if_true]
  cases InputKind.ofCode (kindField w) <;> rfl

theorem decodeWord_conv {w : Byte} (h : opField w = 1) : decodeWord w = convOf (.ofCode (radixField w)) := by
  simp only [decodeWord, h]
  cases Radix.ofCode (radixField w) <;> rfl

theorem decodeWord_rend {w : Byte} (h : opField w = 2) : decodeWord w = .rend := by
  simp only [decodeWord, h]
  rfl

theorem decodeWord_fmt {w : Byte} (h : opField w = 3) :
    decodeWord w =
      fmtOf (.ofCode (radixField w)) (ordvField w) (.ofCode (ordField w)) (.ofCode (kindField w)) := by
  simp only [decodeWord, h]
  cases Radix.ofCode (radixField w) <;> rfl

/-! ### A mask keeps a field whose bits it has all set -/

theorem and_three (x : BitVec 2) : x &&& 3 = x := BitVec.and_allOnes

theorem opField_and {w m : Byte} (hm : opField m = 3) : opField (w &&& m) = opField w := by
  have h : opField (w &&& m) = opField w &&& opField m := BitVec.extractLsb'_and
  rw [h, hm, and_three]

theorem radixField_and {w m : Byte} (hm : radixField m = 3) : radixField (w &&& m) = radixField w := by
  have h : radixField (w &&& m) = radixField w &&& radixField m := BitVec.extractLsb'_and
  rw [h, hm, and_three]

theorem kindField_and {w m : Byte} (hm : kindField m = 3) : kindField (w &&& m) = kindField w := by
  have h : kindField (w &&& m) = kindField w &&& kindField m := BitVec.extractLsb'_and
  rw [h, hm, and_three]

theorem ordField_and {w m : Byte} (hm : ordField m = true) : ordField (w &&& m) = ordField w := by
  have h : ordField (w &&& m) = (ordField w && ordField m) := BitVec.getLsbD_and
  rw [h, hm, Bool.and_true]

theorem ordvField_and {w m : Byte} (hm : ordvField m = true) : ordvField (w &&& m) = ordvField w := by
  have h : ordvField (w &&& m) = (ordvField w && ordvField m) := BitVec.getLsbD_and
  rw [h, hm, Bool.and_true]

/-! ### The kinds without a byte order (R66 codes 2 and 3) -/

theorem isBytes_ofCode {c : BitVec 2} (h : 2 ≤ c.toNat) : (InputKind.ofCode c).isBytes = false := by
  revert c
  decide

theorem InputKind.ofCode_code (kind : InputKind) : InputKind.ofCode kind.code = kind := by
  cases kind <;> rfl

theorem isBytes_of_code {kind : InputKind} (h : 2 ≤ kind.code.toNat) : kind.isBytes = false :=
  kind.ofCode_code ▸ isBytes_ofCode h

/-- The model's law for each constructor, as one fact about every command (`30_encoding.md` R62, R67). -/
theorem selectsItsRow : ∀ i : Instr, Laws.SelectsItsRow.Statement i
  | .normB ordv ord kind => Laws.SelectsItsRow.normB ordv ord kind
  | .normX => Laws.SelectsItsRow.normX
  | .normK3 => Laws.SelectsItsRow.normK3
  | .convDec => Laws.SelectsItsRow.convDec
  | .convHex => Laws.SelectsItsRow.convHex
  | .convOct => Laws.SelectsItsRow.convOct
  | .convBin => Laws.SelectsItsRow.convBin
  | .rend => Laws.SelectsItsRow.rend
  | .fmtDec ordv ord kind => Laws.SelectsItsRow.fmtDec ordv ord kind
  | .fmtHex ordv ord kind => Laws.SelectsItsRow.fmtHex ordv ord kind
  | .fmtOct ordv ord kind => Laws.SelectsItsRow.fmtOct ordv ord kind
  | .fmtBin ordv ord kind => Laws.SelectsItsRow.fmtBin ordv ord kind

end Sys2Proof
end

section
/-! PROOF. The rows of the opcode table (`30_encoding.md` R62): pairwise disjoint, and a word's own row selects it. -/

namespace Sys2Proof

/-- The row of a command. -/
def Instr.row (i : Instr) : OpcodeRow := ⟨i.mnemonic, i.rowMatch, i.rowMask⟩

theorem Instr.row_mem_opcodeTable (i : Instr) : i.row ∈ opcodeTable := by
  cases i <;> simp [row, mnemonic, rowMatch, rowMask, opcodeTable]

/-- Two rows that fix a common bit to different values, so that no word is in both. -/
abbrev OpcodeRow.Disjoint (r q : OpcodeRow) : Prop := r.rowMatch &&& q.rowMask ≠ q.rowMatch &&& r.rowMask

theorem OpcodeRow.Disjoint.not_selects {r q : OpcodeRow} (h : r.Disjoint q) {w : Byte} (hr : r.selects w = true)
    (hq : q.selects w = true) : False := by
  simp only [selects, decide_eq_true_eq] at hr hq
  refine h ?_
  rw [← hr, ← hq, BitVec.and_assoc, BitVec.and_assoc, BitVec.and_comm r.rowMask]

theorem opcodeTable_disjoint : opcodeTable.Pairwise OpcodeRow.Disjoint := by
  decide

/-- A word has the fixed bits of the row of the command it decodes to. -/
theorem row_decodeWord_selects (w : Byte) : (decodeWord w).row.selects w = true := by
  revert w
  decide

/-- At most one row of pairwise disjoint ones selects a word. -/
theorem filter_selects_eq_singleton {rows : List OpcodeRow} (hd : rows.Pairwise OpcodeRow.Disjoint) {r : OpcodeRow} {w : Byte}
    (hmem : r ∈ rows) (hr : r.selects w = true) : rows.filter (fun q => q.selects w) = [r] := by
  have hsel (q : OpcodeRow) (hq : q ∈ rows.filter (fun q => q.selects w)) : q.selects w = true := (List.mem_filter.mp hq).2
  have hin : r ∈ rows.filter (fun q => q.selects w) := List.mem_filter.mpr ⟨hmem, hr⟩
  have hpair := hd.filter (fun q => q.selects w)
  match hf : rows.filter (fun q => q.selects w) with
  | [] => simp [hf] at hin
  | [q] => simpa [hf, eq_comm] using hin
  | q :: q' :: qs =>
    rw [hf] at hsel hpair
    have hqq' : q.Disjoint q' := List.rel_of_pairwise_cons hpair (List.mem_cons_self ..)
    exact (hqq'.not_selects (hsel q (by simp)) (hsel q' (by simp))).elim

/-- Settles O7: a word's own row selects it, and the rows are pairwise disjoint. -/
theorem everyWordSelectsItsRow : Obligations.EveryWordSelectsItsRow :=
  ⟨rfl, fun w =>
    filter_selects_eq_singleton opcodeTable_disjoint (Instr.row_mem_opcodeTable _) (row_decodeWord_selects w)⟩

end Sys2Proof
end

section
/-! PROOF. The fields NORM and FMT use: the kind, and for the byte kinds the effective order (`30_encoding.md` R65, R67). -/

namespace Sys2Proof.Machine

/-! ### The kind decides whether the order fields are used -/

theorem normKind_of_isBytes {kind : InputKind} (h : kind.isBytes = true) (ordv : Bool) (ord : ByteOrder) (s : State) :
    normKind ordv ord kind s = normBytes (effectiveOrder ordv ord s.cfg) s := by
  cases kind with
  | buffer => rfl
  | array => rfl
  | hexstr => cases h
  | other => cases h

theorem normKind_of_not_isBytes {kind : InputKind} (h : kind.isBytes = false) (ordv ordv' : Bool) (ord ord' : ByteOrder)
    (s : State) : normKind ordv ord kind s = normKind ordv' ord' kind s := by
  cases kind with
  | buffer => cases h
  | array => cases h
  | hexstr => rfl
  | other => rfl

theorem normOf_of_not_isBytes {kind : InputKind} (h : kind.isBytes = false) (ordv ordv' : Bool) (ord ord' : ByteOrder) :
    normOf ordv ord kind = normOf ordv' ord' kind := by
  cases kind with
  | buffer => cases h
  | array => cases h
  | hexstr => rfl
  | other => rfl

/-- An FMT command uses its order fields and its kind in nothing but the NORM phase's result (`44_composite_fmt.md` R170). -/
theorem exec_fmtOf_congr {ordv ordv' : Bool} {ord ord' : ByteOrder} {kind kind' : InputKind} {s : State}
    (h : normKind ordv ord kind s = normKind ordv' ord' kind' s) (r : Radix) :
    exec (fmtOf r ordv ord kind) s = exec (fmtOf r ordv' ord' kind') s := by
  cases r with
  | dec => simp only [fmtOf, exec, execFmtDec, h]
  | hex => simp only [fmtOf, exec, execFmtHex, h]
  | oct => simp only [fmtOf, exec, execFmtOct, h]
  | bin => simp only [fmtOf, exec, execFmtBin, h]

/-- An assembler's FMT line of a kind without an order declares none (`30_encoding.md` R75). -/
theorem fmtLine_of_not_isBytes {kind : InputKind} (h : kind.isBytes = false) (r : Radix) (o : Bool × ByteOrder) :
    fmtLine r kind o = fmtOf r false .bigEndian kind := by
  cases r <;> simp [fmtLine, fmtOf, h]

theorem encode_fmtOf_no_order (r : Radix) (kind : InputKind) : encode (fmtOf r false .bigEndian kind) &&& 0xC0 = 0 := by
  cases r <;> cases kind <;> decide

/-- Settles O9: for each OP the decoder's equation reads the used fields only, and the mask keeps those. -/
theorem ignoredFieldsChangeNothing : Obligations.IgnoredFieldsChangeNothing := by
  refine ⟨fun w hop => ?norm, fun w hop hkind => ?normNoOrder, fun w s hop hkind => ?fmtNoOrder, fun w hop => ?conv,
    fun w hop => ?rend, fun i hi => (selectsItsRow i hi).2,
    fun r kind o hkind => ?line⟩
  case norm =>
    rw [decodeWord_norm hop, decodeWord_norm ((opField_and rfl).trans hop), ordvField_and rfl, ordField_and rfl,
      kindField_and rfl]
  case normNoOrder =>
    rw [decodeWord_norm hop, decodeWord_norm ((opField_and rfl).trans hop), kindField_and rfl]
    exact normOf_of_not_isBytes (isBytes_ofCode hkind) ..
  case fmtNoOrder =>
    rw [decodeWord_fmt hop, decodeWord_fmt ((opField_and rfl).trans hop), kindField_and rfl, radixField_and rfl]
    exact exec_fmtOf_congr (normKind_of_not_isBytes (isBytes_ofCode hkind) ..) _
  case conv =>
    rw [decodeWord_conv hop, decodeWord_conv ((opField_and rfl).trans hop), radixField_and rfl]
  case rend =>
    rw [decodeWord_rend hop]
    rfl
  case line =>
    rw [fmtLine_of_not_isBytes (isBytes_of_code hkind)]
    exact encode_fmtOf_no_order r kind

/-! ### The NORM phase on a byte container (`40_normalizer.md` R80, R82) -/

theorem exec_normB_norm {s : State} (h : s.phase = .norm) (ordv : Bool) (ord : ByteOrder) (kind : InputKind) :
    exec (.normB ordv ord kind) s = .next (normPhase (normBytes (effectiveOrder ordv ord s.cfg) s) false s) := by
  simp only [exec, execNormB, normStep, h]

theorem exec_fmtOf_norm {s : State} (h : s.phase = .norm) (r : Radix) (ordv : Bool) (ord : ByteOrder) (kind : InputKind) :
    exec (fmtOf r ordv ord kind) s = .next (normPhase (normKind ordv ord kind s) true s) := by
  cases r with
  | dec => simp only [fmtOf, exec, execFmtDec, h]
  | hex => simp only [fmtOf, exec, execFmtHex, fmtRadixStep, h]
  | oct => simp only [fmtOf, exec, execFmtOct, fmtRadixStep, h]
  | bin => simp only [fmtOf, exec, execFmtBin, fmtRadixStep, h]

@[simp] theorem normPhase_ok_wBuf (bs : List Byte) (fmt : Bool) (s : State) : (normPhase (.ok bs) fmt s).wBuf = bs := by
  cases fmt <;> rfl

theorem normBytes_of_fits {s : State} (hpos : 0 < s.inLen) (hfit : s.inLen ≤ s.lmaxr) (o : ByteOrder) :
    normBytes o s = .ok (orient o (s.inBytes s.inLen)) := by
  rcases normBytes_cases o s with ⟨h, _⟩ | ⟨_, h, _⟩ | ⟨_, _, h⟩
  · omega
  · omega
  · exact h

/-! ### The phases under other straps: only REND reads one, and that is BFW -/

/-- The state with other straps. -/
def State.withCfg (c : Cfg) (s : State) : State := { s with cfg := c }

theorem normPhase_withCfg (r : Except Err (List Byte)) (fmt : Bool) (c : Cfg) (s : State) :
    normPhase r fmt (s.withCfg c) = (normPhase r fmt s).withCfg c := by
  rcases r with e | bs
  · rfl
  · cases fmt <;> rfl

theorem radixPhase_withCfg (r : Radix) (ds : List Nibble) (fmt : Bool) (c : Cfg) (s : State) :
    radixPhase r ds fmt (s.withCfg c) = (radixPhase r ds fmt s).withCfg c := by
  unfold radixPhase
  rw [apply_ite (State.withCfg c)]
  cases fmt <;> rfl

theorem ddEnter_withCfg (c : Cfg) (s : State) : ddEnter (s.withCfg c) = (ddEnter s).withCfg c := by
  unfold ddEnter
  rw [apply_ite (State.withCfg c)]
  rfl

theorem ddStep_withCfg (fmt : Bool) (c : Cfg) (s : State) : ddStep fmt (s.withCfg c) = (ddStep fmt s).withCfg c := by
  unfold ddStep
  rw [apply_ite (State.withCfg c)]
  cases fmt <;> rfl

/-- REND reads CFG.BFW, the other strap (`43_renderer.md` R154). -/
theorem rendPhase_withCfg {c : Cfg} {s : State} (hb : c.bfw = s.cfg.bfw) :
    rendPhase (s.withCfg c) = (rendPhase s).withCfg c := by
  obtain ⟨dord, bfw⟩ := c
  subst hb
  unfold rendPhase
  rw [apply_ite (State.withCfg _)]
  rfl

/-! ### With ORDV = 1 a step commutes with a change of CFG.DORD (R65) -/

/-- With ORDV = 1 the NORM phase's result reads no strap. -/
theorem normKind_declared_withCfg (ord : ByteOrder) (kind : InputKind) (c : Cfg) (s : State) :
    normKind true ord kind (s.withCfg c) = normKind true ord kind s := by
  cases kind <;> rfl

theorem exec_normB_declared_withCfg {ord : ByteOrder} {kind : InputKind} {s t : State} (c : Cfg)
    (h : exec (.normB true ord kind) s = .next t) :
    exec (.normB true ord kind) (s.withCfg c) = .next (t.withCfg c) := by
  have hp : (s.withCfg c).phase = s.phase := rfl
  rcases normStep_next h with ⟨hs, rfl⟩ | ⟨hs, rfl⟩
  · simp only [exec, execNormB, normStep, hp, hs]
  · rw [exec_normB_norm (hp.trans hs), normPhase_withCfg]
    rfl

theorem fmtRadixStep_declared_withCfg {r : Radix} {ds : List Nibble} {ord : ByteOrder} {kind : InputKind} {c : Cfg}
    {s t : State} (hb : c.bfw = s.cfg.bfw) (h : fmtRadixStep r ds (normKind true ord kind s) s = .next t) :
    fmtRadixStep r ds (normKind true ord kind (s.withCfg c)) (s.withCfg c) = .next (t.withCfg c) := by
  have hp : (s.withCfg c).phase = s.phase := rfl
  rcases fmtRadixStep_next h with ⟨hs, rfl⟩ | ⟨hs, rfl⟩ | ⟨hs, rfl⟩ | ⟨hs, rfl⟩
  · simp only [fmtRadixStep, hp, hs]
  · simp only [fmtRadixStep, hp, hs, normPhase_withCfg, normKind_declared_withCfg]
  · simp only [fmtRadixStep, hp, hs, radixPhase_withCfg]
  · simp only [fmtRadixStep, hp, hs, rendPhase_withCfg hb]

theorem execFmtDec_declared_withCfg {ord : ByteOrder} {kind : InputKind} {c : Cfg} {s t : State}
    (hb : c.bfw = s.cfg.bfw) (h : execFmtDec true ord kind s = .next t) :
    execFmtDec true ord kind (s.withCfg c) = .next (t.withCfg c) := by
  have hp : (s.withCfg c).phase = s.phase := rfl
  rcases execFmtDec_next h with ⟨hs, rfl⟩ | ⟨hs, rfl⟩ | ⟨hs, rfl⟩ | ⟨hs, rfl⟩ | ⟨hs, rfl⟩
  · simp only [execFmtDec, hp, hs]
  · simp only [execFmtDec, hp, hs, normPhase_withCfg, normKind_declared_withCfg]
  · simp only [execFmtDec, hp, hs, ddEnter_withCfg]
  · simp only [execFmtDec, hp, hs, ddStep_withCfg]
  · simp only [execFmtDec, hp, hs, rendPhase_withCfg hb]

theorem exec_fmtOf_declared_withCfg {r : Radix} {ord : ByteOrder} {kind : InputKind} {c : Cfg} {s t : State}
    (hb : c.bfw = s.cfg.bfw) (h : exec (fmtOf r true ord kind) s = .next t) :
    exec (fmtOf r true ord kind) (s.withCfg c) = .next (t.withCfg c) := by
  cases r with
  | dec => exact execFmtDec_declared_withCfg hb h
  | hex => exact fmtRadixStep_declared_withCfg hb h
  | oct => exact fmtRadixStep_declared_withCfg hb h
  | bin => exact fmtRadixStep_declared_withCfg hb h

/-! ### The effective order -/

/-- With ORDV = 0 an FMT command is the one that declares CFG.DORD. -/
theorem normKind_undeclared (ord : ByteOrder) (kind : InputKind) (s : State) :
    normKind false ord kind s = normKind true s.cfg.dord kind s := by
  cases kind <;> rfl

/-- Settles O10: W is the NORM phase's result, which reads the order fields and the strap through the effective order only. -/
theorem effectiveOrderRule : Obligations.EffectiveOrderRule := by
  refine ⟨⟨rfl, rfl, fun c => by cases c <;> rfl⟩, fun ordv ord kind s hp hk hpos hfit => ?operand,
    fun ord ord' kind s => ⟨rfl, exec_fmtOf_congr (normKind_undeclared ord kind s),
      fun t h => exec_normB_declared_withCfg _ h, fun r t h => exec_fmtOf_declared_withCfg rfl h⟩⟩
  case operand =>
    intro order w
    have hw : orient order (s.inBytes s.inLen) = w := by
      simp only [w]
      clear_value order
      cases order <;> rfl
    have hok : normBytes (effectiveOrder ordv ord s.cfg) s = .ok w := hw ▸ normBytes_of_fits hpos hfit order
    refine ⟨⟨_, exec_normB_norm hp .., ?_⟩, fun r => ⟨_, exec_fmtOf_norm hp .., ?_⟩⟩
    · rw [hok, normPhase_ok_wBuf]
    · rw [normKind_of_isBytes hk, hok, normPhase_ok_wBuf]

end Sys2Proof.Machine
end

section
/-! PROOF. The NORM phase whatever its result (`40_normalizer.md` R80, R81), and the encodings of the NORM commands
(`30_encoding.md` R62). -/

namespace Sys2Proof.Machine

/-! ### What the NORM phase changes and leaves unchanged -/

theorem normPhase_sameOutside (r : Except Err (List Byte)) (fmt : Bool) (s : State) : SameOutside s (normPhase r fmt s) := by
  rcases normPhase_cases r fmt s with ⟨e, _, h⟩ | ⟨bs, _, h⟩
  · exact h ▸ ⟨rfl, rfl, rfl, rfl, fun _ => rfl, rfl, rfl⟩
  · cases fmt <;> exact h ▸ ⟨rfl, rfl, rfl, rfl, fun _ => rfl, rfl, rfl⟩

theorem normPhase_sameHidden (r : Except Err (List Byte)) (fmt : Bool) (s : State) : SameHidden s (normPhase r fmt s) := by
  rcases normPhase_cases r fmt s with ⟨e, _, h⟩ | ⟨bs, _, h⟩
  · exact h ▸ ⟨rfl, rfl, rfl, rfl⟩
  · cases fmt <;> exact h ▸ ⟨rfl, rfl, rfl, rfl⟩

@[simp] theorem normPhase_digRadix (r : Except Err (List Byte)) (fmt : Bool) (s : State) :
    (normPhase r fmt s).digRadix = s.digRadix := by
  cases r <;> cases fmt <;> rfl

@[simp] theorem normPhase_digLen (r : Except Err (List Byte)) (fmt : Bool) (s : State) : (normPhase r fmt s).digLen = 0 := by
  cases r <;> cases fmt <;> rfl

@[simp] theorem normPhase_txtLen (r : Except Err (List Byte)) (fmt : Bool) (s : State) : (normPhase r fmt s).txtLen = 0 := by
  cases r <;> cases fmt <;> rfl

@[simp] theorem normPhase_error_wLen (e : Err) (fmt : Bool) (s : State) : (normPhase (.error e) fmt s).wLen = 0 := rfl

@[simp] theorem normPhase_ok_wLen (bs : List Byte) (fmt : Bool) (s : State) : (normPhase (.ok bs) fmt s).wLen = bs.length := by
  cases fmt <;> rfl

@[simp] theorem normPhase_ok_err (bs : List Byte) (fmt : Bool) (s : State) :
    (normPhase (.ok bs) fmt s).status.err = s.status.err := by
  cases fmt <;> rfl

theorem raiseError_endedWith (e : Err) (s : State) : EndedWith e (raiseError e s) := ⟨rfl, rfl⟩

theorem normPhase_fails {r : Except Err (List Byte)} {e : Err} (h : r = .error e) (fmt : Bool) (s : State) :
    EndedWith e (normPhase r fmt s) ∧ (normPhase r fmt s).wLen = 0 :=
  h ▸ ⟨raiseError_endedWith .., normPhase_error_wLen ..⟩

theorem normPhase_ok_finished (bs : List Byte) (s : State) : Finished s (normPhase (.ok bs) false s) := ⟨rfl, rfl⟩

theorem exec_normX_norm {s : State} (h : s.phase = .norm) : exec .normX s = .next (normPhase (normHex s) false s) := by
  simp only [exec, execNormX, normStep, h]

theorem exec_normK3_norm {s : State} (h : s.phase = .norm) :
    exec .normK3 s = .next (normPhase (.error .invalidInputKind) false s) := by
  simp only [exec, execNormK3, normStep, h]

end Sys2Proof.Machine

namespace Sys2Proof

/-! ### The encodings: a word has the fixed bits of one row only, that of the command it decodes to -/

theorem row_decodeWord_eq_iff (w : Byte) (i : Instr) : w &&& i.rowMask = i.rowMatch ↔ (decodeWord w).row = i.row := by
  constructor
  · intro h
    have hsel : i.row.selects w = true := decide_eq_true h
    have hi := filter_selects_eq_singleton opcodeTable_disjoint i.row_mem_opcodeTable hsel
    have hw := filter_selects_eq_singleton opcodeTable_disjoint (Instr.row_mem_opcodeTable _) (row_decodeWord_selects w)
    exact List.singleton_inj.mp (hw.symm.trans hi)
  · intro h
    exact of_decide_eq_true (h ▸ row_decodeWord_selects w : i.row.selects w = true)

theorem Instr.eq_normX_of_row {i : Instr} (h : i.row = Instr.normX.row) : i = .normX := by
  cases i with
  | normX => rfl
  | _ => simp [row, mnemonic] at h

theorem Instr.eq_normK3_of_row {i : Instr} (h : i.row = Instr.normK3.row) : i = .normK3 := by
  cases i with
  | normK3 => rfl
  | _ => simp [row, mnemonic] at h

theorem Instr.eq_normB_of_row {i : Instr} {ordv' : Bool} {ord' : ByteOrder} {kind' : InputKind}
    (h : i.row = (Instr.normB ordv' ord' kind').row) : ∃ ordv ord kind, i = .normB ordv ord kind := by
  cases i with
  | normB ordv ord kind => exact ⟨ordv, ord, kind, rfl⟩
  | _ => simp [row, mnemonic] at h

theorem decodeWord_wellFormed (w : Byte) : (decodeWord w).wellFormed = true := by
  revert w
  decide

theorem normX_encoding (w : Byte) : w &&& 0x33 = 0x20 ↔ decodeWord w = .normX :=
  (row_decodeWord_eq_iff w .normX).trans ⟨Instr.eq_normX_of_row, congrArg Instr.row⟩

theorem normK3_encoding (w : Byte) : w &&& 0x33 = 0x30 ↔ decodeWord w = .normK3 :=
  (row_decodeWord_eq_iff w .normK3).trans ⟨Instr.eq_normK3_of_row, congrArg Instr.row⟩

theorem normB_encoding (w : Byte) :
    w &&& 0x23 = 0x00 ↔ ∃ ordv ord kind, kind.isBytes = true ∧ decodeWord w = .normB ordv ord kind := by
  refine (row_decodeWord_eq_iff w (.normB false .bigEndian .buffer)).trans ⟨fun h => ?_, fun ⟨_, _, _, _, h⟩ => h ▸ rfl⟩
  obtain ⟨ordv, ord, kind, hw⟩ := Instr.eq_normB_of_row h
  have hk : (Instr.normB ordv ord kind).wellFormed = true := hw ▸ decodeWord_wellFormed w
  exact ⟨ordv, ord, kind, hk, hw⟩

end Sys2Proof

namespace Sys2Proof.Machine

/-- Settles O26: NORM.K3 is the NORM phase with a result that reads nothing. -/
theorem normK3AlwaysInvalid : Obligations.NormK3AlwaysInvalid :=
  ⟨normK3_encoding, fun _ hp =>
    ⟨_, exec_normK3_norm hp, raiseError_endedWith .., normPhase_error_wLen .., normPhase_digLen .., normPhase_txtLen ..,
      normPhase_sameOutside .., normPhase_sameHidden .., normPhase_digRadix ..⟩⟩

end Sys2Proof.Machine
end

section
/-! PROOF. NORM.B (`40_normalizer.md` R82): the index map, and the values that follow from it. -/

namespace Sys2Proof.Machine

/-- A value as the sum of `00_scope.md` R10, the bytes given by index. -/
theorem valLE_eq_sum {bs : List Byte} {n : Nat} {f : Nat → Byte} (hlen : bs.length = n) (h : ∀ i < n, bs[i]? = some (f i)) :
    valLE bs = ∑ i ∈ Finset.range n, (f i).toNat * 256 ^ i := by
  subst hlen
  induction bs generalizing f with
  | nil => rfl
  | cons b bs ih =>
    have hb : b = f 0 := by simpa using h 0 (by simp)
    have htail : ∀ i < bs.length, bs[i]? = some (f (i + 1)) := fun i hi => by simpa using h (i + 1) (by simpa using hi)
    rw [valLE_cons, ih htail, List.length_cons, Finset.sum_range_succ', Finset.mul_sum, hb, pow_zero, mul_one, add_comm]
    simp only [pow_succ]
    congr 1
    exact Finset.sum_congr rfl fun i _ => by ring

/-- R82's index map: BigEndian reverses, LittleEndian copies. -/
theorem orient_inBytes_getElem? (o : ByteOrder) (s : State) {n i : Nat} (h : i < n) :
    (orient o (s.inBytes n))[i]? = some (s.inByte (if o = .bigEndian then n - 1 - i else i)) := by
  cases o with
  | bigEndian =>
    rw [orient, List.getElem?_reverse (by simpa using h), inBytes_length, inBytes_getElem? s (by omega)]
    rfl
  | littleEndian => exact inBytes_getElem? s h

theorem valLE_orient_bigEndian (s : State) (n : Nat) :
    valLE (orient .bigEndian (s.inBytes n)) = ∑ i ∈ Finset.range n, (s.inByte i).toNat * 256 ^ (n - 1 - i) := by
  rw [valLE_eq_sum (by simp) fun i => orient_inBytes_getElem? .bigEndian s,
    ← Finset.sum_range_reflect (fun i => (s.inByte i).toNat * 256 ^ (n - 1 - i))]
  refine Finset.sum_congr rfl fun i hi => ?_
  have hi := Finset.mem_range.mp hi
  rw [if_pos rfl, show n - 1 - (n - 1 - i) = i by omega]

theorem valLE_orient_littleEndian (s : State) (n : Nat) :
    valLE (orient .littleEndian (s.inBytes n)) = ∑ i ∈ Finset.range n, (s.inByte i).toNat * 256 ^ i :=
  valLE_eq_sum (by simp) fun i => orient_inBytes_getElem? .littleEndian s

theorem normBytes_of_empty {s : State} (h : s.inLen = 0) (o : ByteOrder) : normBytes o s = .error .emptyInput := if_pos h

theorem normBytes_of_too_long {s : State} (h0 : s.inLen ≠ 0) (h : s.inLen > s.lmaxr) (o : ByteOrder) :
    normBytes o s = .error .capacity :=
  (if_neg h0).trans (if_pos h)

/-- Settles O21, one outcome of R82 at a time. -/
theorem normBWritesCanonicalBytes : Obligations.NormBWritesCanonicalBytes := by
  refine ⟨normB_encoding, fun ordv ord kind s hp => ?_⟩
  intro n order
  refine ⟨normPhase (normBytes order s) false s, exec_normB_norm hp .., normPhase_sameOutside .., normPhase_sameHidden ..,
    normPhase_digRadix .., normPhase_digLen .., normPhase_txtLen .., fun h0 => ?empty, fun h0 hn => ?capacity,
    fun h0 hn => ?success⟩
  case empty => exact normPhase_fails (normBytes_of_empty h0 order) ..
  case capacity => exact normPhase_fails (normBytes_of_too_long h0 hn order) ..
  case success =>
    rw [normBytes_of_fits (Nat.pos_of_ne_zero h0) hn, normPhase_ok_wBuf, normPhase_ok_wLen]
    have hlen : (orient order (s.inBytes s.inLen)).length = n := by simp [n]
    exact ⟨normPhase_ok_finished .., hlen, hlen, fun i => orient_inBytes_getElem? order s,
      fun ho => ho ▸ valLE_orient_bigEndian s n, fun ho => ho ▸ valLE_orient_littleEndian s n⟩

end Sys2Proof.Machine
end

section
/-! PROOF. The reversal as a schedule of swaps (`40_normalizer.md` R89): after `k` swaps the `k` outermost pairs are mirrored. -/

namespace Sys2Proof.Machine

theorem swapMirror_of_lt {l : List Byte} {i : Nat} (h : i < l.length) :
    swapMirror l i = (l.set i l[l.length - 1 - i]).set (l.length - 1 - i) l[i] := by
  simp only [swapMirror, List.getElem?_eq_getElem h, List.getElem?_eq_getElem (show l.length - 1 - i < l.length by omega)]

theorem swapMirror_length (l : List Byte) (i : Nat) : (swapMirror l i).length = l.length := by
  unfold swapMirror
  split <;> simp

/-- A swap exchanges an element with its mirror and leaves every other one alone. -/
theorem swapMirror_getElem? {l : List Byte} {i : Nat} (h : i < l.length) (j : Nat) :
    (swapMirror l i)[j]? = if j = i ∨ j = l.length - 1 - i then l[l.length - 1 - j]? else l[j]? := by
  have hm : l.length - 1 - i < l.length := by omega
  rw [swapMirror_of_lt h, List.getElem?_set, List.getElem?_set, List.length_set, if_pos hm, if_pos h]
  by_cases hjm : l.length - 1 - i = j
  · subst hjm
    rw [if_pos rfl, if_pos (.inr rfl), show l.length - 1 - (l.length - 1 - i) = i by omega, List.getElem?_eq_getElem h]
  · by_cases hji : i = j
    · subst hji
      rw [if_neg hjm, if_pos rfl, if_pos (.inl rfl), List.getElem?_eq_getElem hm]
    · rw [if_neg hjm, if_neg hji, if_neg (by omega)]

/-- The first `k` swaps of R89's schedule, from the high end on. -/
def firstSwaps (l : List Byte) (k : Nat) : List Byte :=
  ((List.range k).map (fun j => l.length - 1 - j)).foldl swapMirror l

theorem reverseBySwaps_eq (l : List Byte) : reverseBySwaps l = firstSwaps l (l.length - l.length / 2) := rfl

theorem firstSwaps_succ (l : List Byte) (k : Nat) : firstSwaps l (k + 1) = swapMirror (firstSwaps l k) (l.length - 1 - k) := by
  rw [firstSwaps, List.range_succ, List.map_append, List.map_singleton, List.foldl_concat]
  rfl

theorem firstSwaps_length (l : List Byte) (k : Nat) : (firstSwaps l k).length = l.length := by
  induction k with
  | zero => rfl
  | succ k ih => rw [firstSwaps_succ, swapMirror_length, ih]

/-- The schedule's invariant: up to the midpoint every pair is swapped at most once, and the first `k` pairs have been. -/
theorem firstSwaps_getElem? {l : List Byte} {k : Nat} (hk : k ≤ l.length - l.length / 2) {j : Nat} (hj : j < l.length) :
    (firstSwaps l k)[j]? = if j < k ∨ l.length - 1 - j < k then l[l.length - 1 - j]? else l[j]? := by
  induction k generalizing j with
  | zero => rfl
  | succ k ih =>
    have ih {j : Nat} := ih (by omega) (j := j)
    rw [firstSwaps_succ, swapMirror_getElem? (by rw [firstSwaps_length]; omega), firstSwaps_length]
    by_cases hnew : j = l.length - 1 - k ∨ j = l.length - 1 - (l.length - 1 - k)
    · rw [if_pos hnew, ih (by omega), if_neg (by omega), if_pos (by omega)]
    · rw [if_neg hnew, ih hj]
      exact if_congr (by omega) rfl rfl

theorem reverseBySwaps_eq_reverse (l : List Byte) : reverseBySwaps l = l.reverse := by
  refine List.ext_getElem? fun j => ?_
  rw [reverseBySwaps_eq]
  by_cases hj : j < l.length
  · rw [firstSwaps_getElem? le_rfl hj, if_pos (by omega), List.getElem?_reverse hj]
  · rw [List.getElem?_eq_none (by rw [firstSwaps_length]; omega), List.getElem?_eq_none (by rw [List.length_reverse]; omega)]

/-- Settles O22, by the invariant of the schedule at its end. -/
theorem swapScheduleIsReversal : Obligations.SwapScheduleIsReversal := fun l =>
  ⟨reverseBySwaps_eq_reverse l, fun _ hi => by rw [reverseBySwaps_eq_reverse, List.getElem?_reverse hi]⟩

end Sys2Proof.Machine
end

section
/-! PROOF. NORM.X (`40_normalizer.md` R83 to R88): the characters read, the digits' bytes, and the errors in their order. -/

namespace Sys2Proof.Machine

/-! ### The characters read as digits (R84, R85) -/

theorem hexBody_eq {s : State} {p : Nat} (hp : prefixLen (s.inBytes s.inLen) = p) :
    s.hexBody = (List.range (s.inLen - p)).map fun q => s.inByte (p + q) := by
  rw [State.hexBody, hp, State.inBytes, ← List.map_drop, List.range_eq_range', List.drop_range', List.range'_eq_map_range,
    List.map_map, List.range_eq_range']
  simp [Function.comp_def]

/-- The digits are the characters' values, one for one. -/
theorem hexvals_eq_some_iff {cs : List Byte} {ds : List Nibble} : hexvals cs = some ds ↔ cs.map hexval = ds.map some := by
  induction cs generalizing ds with
  | nil => cases ds <;> simp [hexvals]
  | cons c cs ih =>
    cases hc : hexval c with
    | none => cases ds <;> simp [hexvals, hc]
    | some d =>
      cases hcs : hexvals cs with
      | none => cases ds <;> simp [hexvals, hc, hcs, ← ih]
      | some es => cases ds <;> simp [hexvals, hc, hcs, ← ih]

theorem hexvals_eq_none_iff {cs : List Byte} : hexvals cs = none ↔ ∃ c ∈ cs, hexval c = none := by
  induction cs with
  | nil => simp [hexvals]
  | cons c cs ih =>
    cases hc : hexval c with
    | none => simp [hexvals, hc]
    | some d => cases hcs : hexvals cs <;> simp [hexvals, hc, hcs, ← ih]

theorem hexvals_length {cs : List Byte} {ds : List Nibble} (h : hexvals cs = some ds) : ds.length = cs.length := by
  simpa [eq_comm] using congrArg List.length (hexvals_eq_some_iff.mp h)

theorem hexvals_getElem? {cs : List Byte} {ds : List Nibble} (h : hexvals cs = some ds) {q : Nat} {c : Byte}
    (hq : cs[q]? = some c) : hexval c = ds[q]? := by
  have hmap := congrArg (·[q]?) (hexvals_eq_some_iff.mp h)
  simp only [List.getElem?_map, hq] at hmap
  cases hd : ds[q]? with
  | none => simp [hd] at hmap
  | some d => simpa [hd] using hmap

/-! ### The bytes of a digit string (R86 to R88) -/

theorem padEven_length (ds : List Nibble) : (padEven ds).length = 2 * ((ds.length + 1) / 2) := by
  unfold padEven
  split
  · rw [List.length_cons]
    omega
  · omega

theorem valMS_padEven (r : Nat) (ds : List Nibble) : valMS r (padEven ds) = valMS r ds := by
  unfold padEven
  split
  · simp [valMS_cons]
  · rfl

theorem pairBytes_length : ∀ ds : List Nibble, (pairBytes ds).length = ds.length / 2
  | [] => rfl
  | [_] => by simp [pairBytes]
  | _ :: _ :: ds => by
    rw [pairBytes, List.length_cons, pairBytes_length ds, List.length_cons, List.length_cons]
    omega

theorem hexBytes_length (ds : List Nibble) : (hexBytes ds).length = (ds.length + 1) / 2 := by
  rw [hexBytes, List.length_reverse, pairBytes_length, padEven_length]
  omega

/-- The first digit of a pair is the high nibble (R87). -/
theorem pair_toNat (a b : Nibble) : (a ++ b : BitVec (4 + 4)).toNat = a.toNat * 16 + b.toNat := by
  rw [BitVec.toNat_append, ← Nat.shiftLeft_add_eq_or_of_lt b.isLt, Nat.shiftLeft_eq]

/-- Two hexadecimal digits weigh as one byte. -/
theorem valLE_reverse_pairBytes : ∀ {n : Nat} {ds : List Nibble}, ds.length = 2 * n → valLE (pairBytes ds).reverse = valMS 16 ds
  | 0, [], _ => rfl
  | n + 1, a :: b :: ds, h => by
    have hn : ds.length = 2 * n := by
      simp only [List.length_cons] at h
      omega
    rw [pairBytes, List.reverse_cons, valLE_append, valLE_reverse_pairBytes hn, List.length_reverse, pairBytes_length, hn,
      valLE_cons, valLE_nil, pair_toNat, valMS_cons, valMS_cons, List.length_cons, hn, pow_succ, pow_mul,
      Nat.mul_div_cancel_left n two_pos]
    ring

theorem valLE_hexBytes (ds : List Nibble) : valLE (hexBytes ds) = valMS 16 ds := by
  rw [hexBytes, valLE_reverse_pairBytes (padEven_length ds), valMS_padEven]

/-! ### The result of NORM.X in the order of its tests (R83) -/

theorem normHex_of_too_long {s : State} (h : inMax s.lmaxr < s.inLen ∨ 2 * s.lmaxr < s.hexBody.length) :
    normHex s = .error .capacity := by
  rcases normHex_cases s with ⟨_, hr⟩ | ⟨hn, hm, _⟩
  · exact hr
  · omega

theorem normHex_of_bad {s : State} (hn : s.inLen ≤ inMax s.lmaxr) (hm : s.hexBody.length ≤ 2 * s.lmaxr)
    (h : hexvals s.hexBody = none) : normHex s = .error .invalidInputKind := by
  rcases normHex_cases s with ⟨_, _⟩ | ⟨_, _, ⟨_, hr⟩ | ⟨hv, _⟩ | ⟨d, ds, hv, _⟩⟩
  · omega
  · exact hr
  · cases h.symm.trans hv
  · cases h.symm.trans hv

theorem normHex_of_empty {s : State} (hn : s.inLen ≤ inMax s.lmaxr) (hm : s.hexBody.length ≤ 2 * s.lmaxr)
    (h : hexvals s.hexBody = some []) : normHex s = .error .emptyInput := by
  rcases normHex_cases s with ⟨_, _⟩ | ⟨_, _, ⟨hv, _⟩ | ⟨_, hr⟩ | ⟨d, ds, hv, _⟩⟩
  · omega
  · cases h.symm.trans hv
  · exact hr
  · cases h.symm.trans hv

theorem normHex_of_digits {s : State} (hn : s.inLen ≤ inMax s.lmaxr) (hm : s.hexBody.length ≤ 2 * s.lmaxr)
    {ds : List Nibble} (h : hexvals s.hexBody = some ds) (hne : ds ≠ []) : normHex s = .ok (hexBytes ds) := by
  rcases normHex_cases s with ⟨_, _⟩ | ⟨_, _, ⟨hv, _⟩ | ⟨hv, _⟩ | ⟨d, ds', hv, hr⟩⟩
  · omega
  · cases h.symm.trans hv
  · cases h.symm.trans hv
    exact absurd rfl hne
  · cases h.symm.trans hv
    exact hr

/-- Settles O25, one outcome of R83 at a time. -/
theorem normXReadsHexString : Obligations.NormXReadsHexString := by
  refine ⟨normX_encoding, fun s hp => ?_⟩
  intro n p m bad
  have hbody : s.hexBody = (List.range m).map fun q => s.inByte (p + q) := hexBody_eq rfl
  have hlen : s.hexBody.length = m := by simp [hbody]
  have hbad : hexvals s.hexBody = none ↔ bad := by simp [hexvals_eq_none_iff, hbody, bad]
  rw [← hbad, ← hlen]
  refine ⟨normPhase (normHex s) false s, exec_normX_norm hp, normPhase_sameOutside .., normPhase_sameHidden ..,
    normPhase_digRadix .., normPhase_digLen .., normPhase_txtLen .., fun h => ?capacity, fun hn hm hv => ?invalid,
    fun hn hm hv h0 => ?empty, fun hn hm hv h0 => ?success⟩
  case capacity => exact normPhase_fails (normHex_of_too_long h) ..
  case invalid => exact normPhase_fails (normHex_of_bad hn hm hv) ..
  case empty =>
    have hnil : hexvals s.hexBody = some [] := by rw [List.length_eq_zero_iff.mp h0, hexvals]
    exact normPhase_fails (normHex_of_empty hn hm hnil) ..
  case success =>
    obtain ⟨ds, hds⟩ := Option.ne_none_iff_exists'.mp hv
    have hdlen : ds.length = s.hexBody.length := hexvals_length hds
    have hne : ds ≠ [] := by
      rintro rfl
      exact h0 hdlen.symm
    rw [normHex_of_digits hn hm hds hne, normPhase_ok_wLen, normPhase_ok_wBuf, hexBytes_length, hdlen]
    refine ⟨normPhase_ok_finished .., rfl, rfl, ds, hdlen, fun q hq => hexvals_getElem? hds ?_, valLE_hexBytes ds⟩
    rw [hlen] at hq
    simp [hbody, hq]

end Sys2Proof.Machine
end

section
/-! PROOF. A NORM phase discards what later stages left (`40_normalizer.md` R81), and after a failed one CONV and REND find no
operand. -/

namespace Sys2Proof.Machine

/-! ### A NORM phase that succeeds leaves a ByteSequence (R92) -/

theorem normBytes_ok_pos {o : ByteOrder} {s : State} {bs : List Byte} (h : normBytes o s = .ok bs) : 0 < bs.length := by
  rcases normBytes_cases o s with ⟨_, hr⟩ | ⟨_, _, hr⟩ | ⟨h0, _, hr⟩
  · cases h.symm.trans hr
  · cases h.symm.trans hr
  · cases h.symm.trans hr
    simpa [Nat.pos_iff_ne_zero] using h0

theorem normHex_ok_pos {s : State} {bs : List Byte} (h : normHex s = .ok bs) : 0 < bs.length := by
  rcases normHex_cases s with ⟨_, hr⟩ | ⟨_, _, ⟨_, hr⟩ | ⟨_, hr⟩ | ⟨d, ds, _, hr⟩⟩
  · cases h.symm.trans hr
  · cases h.symm.trans hr
  · cases h.symm.trans hr
  · cases h.symm.trans hr
    rw [hexBytes_length, List.length_cons]
    omega

theorem normKind_ok_pos {ordv : Bool} {ord : ByteOrder} {kind : InputKind} {s : State} {bs : List Byte}
    (h : normKind ordv ord kind s = .ok bs) : 0 < bs.length := by
  cases kind with
  | buffer => exact normBytes_ok_pos h
  | array => exact normBytes_ok_pos h
  | hexstr => exact normHex_ok_pos h
  | other => cases h

/-- `t` comes from `s` by a NORM phase whose result is an error or a sequence of at least one byte (R92). -/
def NormPhaseStep (s t : State) : Prop :=
  ∃ r fmt, t = normPhase r fmt s ∧ ∀ bs, r = .ok bs → 0 < bs.length

theorem exec_fmtOf_norm_next {r : Radix} {ordv : Bool} {ord : ByteOrder} {kind : InputKind} {s t : State}
    (hp : s.phase = .norm) (h : exec (fmtOf r ordv ord kind) s = .next t) : NormPhaseStep s t := by
  cases h.symm.trans (exec_fmtOf_norm hp r ordv ord kind)
  exact ⟨_, _, rfl, fun _ => normKind_ok_pos⟩

/-- In PHASE = P_NORM a command's step, if it has one, is its NORM phase. -/
theorem exec_norm_next {i : Instr} {s t : State} (hp : s.phase = .norm) (h : exec i s = .next t) : NormPhaseStep s t := by
  cases i with
  | normB v o k =>
    cases h.symm.trans (exec_normB_norm hp v o k)
    exact ⟨_, _, rfl, fun _ => normBytes_ok_pos⟩
  | normX =>
    cases h.symm.trans (exec_normX_norm hp)
    exact ⟨_, _, rfl, fun _ => normHex_ok_pos⟩
  | normK3 =>
    cases h.symm.trans (exec_normK3_norm hp)
    exact ⟨_, _, rfl, nofun⟩
  | convDec => simp [exec, execConvDec, hp] at h
  | convHex => simp [exec, execConvHex, radixStep, hp] at h
  | convOct => simp [exec, execConvOct, radixStep, hp] at h
  | convBin => simp [exec, execConvBin, radixStep, hp] at h
  | rend => simp [exec, execRend, hp] at h
  | fmtDec _ _ _ => exact exec_fmtOf_norm_next (r := .dec) hp h
  | fmtHex _ _ _ => exact exec_fmtOf_norm_next (r := .hex) hp h
  | fmtOct _ _ _ => exact exec_fmtOf_norm_next (r := .oct) hp h
  | fmtBin _ _ _ => exact exec_fmtOf_norm_next (r := .bin) hp h

/-! ### A command that ends in its first step -/

/-- An idle engine takes no step (`10_state.md` R23). -/
theorem exec_of_idle (i : Instr) {s : State} (h : s.phase = .idle) : exec i s = .next s := by
  cases i with
  | normB _ _ _ => simp only [exec, execNormB, normStep, h]
  | normX => simp only [exec, execNormX, normStep, h]
  | normK3 => simp only [exec, execNormK3, normStep, h]
  | convDec => simp only [exec, execConvDec, h]
  | convHex => simp only [exec, execConvHex, radixStep, h]
  | convOct => simp only [exec, execConvOct, radixStep, h]
  | convBin => simp only [exec, execConvBin, radixStep, h]
  | rend => simp only [exec, execRend, h]
  | fmtDec _ _ _ => simp only [exec, execFmtDec, h]
  | fmtHex _ _ _ => simp only [exec, execFmtHex, fmtRadixStep, h]
  | fmtOct _ _ _ => simp only [exec, execFmtOct, fmtRadixStep, h]
  | fmtBin _ _ _ => simp only [exec, execFmtBin, fmtRadixStep, h]

theorem execTimes_succ {i : Instr} {s t : State} (h : exec i s = .next t) (k : Nat) :
    execTimes i (k + 1) s = execTimes i k t := by
  simp only [execTimes, h]

theorem execTimes_of_idle (i : Instr) (k : Nat) {s : State} (h : s.phase = .idle) : execTimes i k s = .next s := by
  induction k with
  | zero => rfl
  | succ k ih => rw [execTimes_succ (exec_of_idle i h), ih]

/-- A command whose first step ends it has no other effect. -/
theorem runCommand_of_ends {w : Byte} {s u : State} (h : exec (decodeWord w) (acceptCommand w s) = .next u)
    (hu : u.phase = .idle) : runCommand w s = .next u := by
  rw [runCommand, execTimes_succ h, execTimes_of_idle _ _ hu]

/-! ### CONV and REND without their operand (`41_decimal_double_dabble.md` R101, `42_radix_pow2.md` R130, `43_renderer.md` R150) -/

theorem ddEnter_of_empty {s : State} (h : s.wLen = 0) : ddEnter s = raiseError .emptyInput (beginConv s) := if_pos h

theorem radixPhase_of_empty {s : State} (h : s.wLen = 0) (r : Radix) (ds : List Nibble) (fmt : Bool) :
    radixPhase r ds fmt s = raiseError .emptyInput (beginConv s) := if_pos h

theorem rendPhase_of_empty {s : State} (h : s.digLen = 0) : rendPhase s = raiseError .emptyInput (beginRend s) := if_pos h

theorem exec_convOf_empty {s : State} (hp : s.phase = .conv) (h : s.wLen = 0) (r : Radix) :
    exec (convOf r) s = .next (raiseError .emptyInput (beginConv s)) := by
  cases r with
  | dec => simp only [convOf, exec, execConvDec, hp, ddEnter_of_empty h]
  | hex => simp only [convOf, exec, execConvHex, radixStep, hp, radixPhase_of_empty h]
  | oct => simp only [convOf, exec, execConvOct, radixStep, hp, radixPhase_of_empty h]
  | bin => simp only [convOf, exec, execConvBin, radixStep, hp, radixPhase_of_empty h]

theorem exec_rend_empty {s : State} (hp : s.phase = .rend) (h : s.digLen = 0) :
    exec .rend s = .next (raiseError .emptyInput (beginRend s)) := by
  simp only [exec, execRend, hp, rendPhase_of_empty h]

theorem runCommand_conv_empty {w : Byte} {s : State} (hw : opField w = 1) (h : s.wLen = 0) :
    ∃ u, runCommand w s = .next u ∧ EndedWith .emptyInput u := by
  have hstart : (acceptCommand w s).phase = .conv := by simp [startPhase, hw]
  have hstep := exec_convOf_empty hstart h (.ofCode (radixField w))
  rw [← decodeWord_conv hw] at hstep
  exact ⟨_, runCommand_of_ends hstep rfl, raiseError_endedWith ..⟩

theorem runCommand_rend_empty {w : Byte} {s : State} (hw : opField w = 2) (h : s.digLen = 0) :
    ∃ u, runCommand w s = .next u ∧ EndedWith .emptyInput u := by
  have hstart : (acceptCommand w s).phase = .rend := by simp [startPhase, hw]
  have hstep := exec_rend_empty hstart h
  rw [← decodeWord_rend hw] at hstep
  exact ⟨_, runCommand_of_ends hstep rfl, raiseError_endedWith ..⟩

/-- Settles O27: the step is a NORM phase, which fails with W_LEN = 0 or succeeds with a ByteSequence. -/
theorem normDiscardsEarlierResults : Obligations.NormDiscardsEarlierResults := by
  intro i s t hp he h
  obtain ⟨r, fmt, rfl, hpos⟩ := exec_norm_next hp h
  refine ⟨normPhase_digLen .., normPhase_txtLen .., ?_⟩
  cases r with
  | error e =>
    refine ⟨fun _ => ⟨normPhase_error_wLen .., fun w hw => ?_⟩, nofun⟩
    rcases hw with hw | hw
    · exact runCommand_conv_empty hw (normPhase_error_wLen ..)
    · exact runCommand_rend_empty hw (normPhase_digLen ..)
  | ok bs =>
    rw [normPhase_ok_err, normPhase_ok_wLen]
    exact ⟨fun hne => absurd he hne, fun _ => hpos bs rfl⟩

end Sys2Proof.Machine
end

section
/-! PROOF. The one-bit shift of S (`41_decimal_double_dabble.md` R105): one byte, the bytes of the string, and its value. -/

namespace Sys2Proof.Machine

/-! ### One byte -/

/-- A byte shifted left by one, a bit entering at the bottom. -/
def shiftByte (cin : Bool) (b : Byte) : Byte := (b <<< 1) ||| BitVec.zeroExtend 8 (BitVec.ofBool cin)

theorem shiftByte_false (b : Byte) : shiftByte false b = (b <<< 1) &&& 0xFF := by
  revert b
  decide

theorem zeroExtend_ofBool_topBit (a : Byte) : BitVec.zeroExtend 8 (BitVec.ofBool (a.getLsbD 7)) = a >>> 7 := by
  revert a
  decide

/-- The bit entering is the top bit of the next lower byte. -/
theorem shiftByte_topBit (a b : Byte) : shiftByte (a.getLsbD 7) b = ((b <<< 1) &&& 0xFF) ||| (a >>> 7) := by
  rw [shiftByte, zeroExtend_ofBool_topBit]
  exact congrArg (· ||| a >>> 7) BitVec.and_allOnes.symm

/-- A shifted byte and the bit it loses are the two parts of the doubled value. -/
theorem shiftByte_toNat (c : Bool) (b : Byte) :
    (shiftByte c b).toNat = (2 * b.toNat + c.toNat) % 256 ∧ (b.getLsbD 7).toNat = (2 * b.toNat + c.toNat) / 256 := by
  revert c b
  decide

/-! ### The bytes of the shifted string -/

theorem shiftLeftFrom_cons (c : Bool) (b : Byte) (bs : List Byte) :
    shiftLeftFrom c (b :: bs) = shiftByte c b :: shiftLeftFrom (b.getLsbD 7) bs := rfl

theorem shiftLeftFrom_getElem?_zero {bs : List Byte} {b : Byte} (h : bs[0]? = some b) (c : Bool) :
    (shiftLeftFrom c bs)[0]? = some (shiftByte c b) := by
  cases bs with
  | nil => cases h
  | cons b' bs =>
    cases h
    rfl

theorem shiftLeftFrom_getElem?_succ {bs : List Byte} {j : Nat} {a b : Byte} (ha : bs[j]? = some a) (hb : bs[j + 1]? = some b)
    (c : Bool) : (shiftLeftFrom c bs)[j + 1]? = some (shiftByte (a.getLsbD 7) b) := by
  induction bs generalizing c j with
  | nil => cases ha
  | cons x xs ih =>
    rw [shiftLeftFrom_cons, List.getElem?_cons_succ]
    rw [List.getElem?_cons_succ] at hb
    cases j with
    | zero =>
      cases ha
      exact shiftLeftFrom_getElem?_zero hb _
    | succ j => exact ih ha hb _

/-! ### The value of the shifted string -/

/-- A shift doubles and adds the bit entering, modulo the string's range: the bit a byte loses is the carry into the next one. -/
theorem valLE_shiftLeftFrom (c : Bool) (bs : List Byte) :
    valLE (shiftLeftFrom c bs) = (2 * valLE bs + c.toNat) % 256 ^ bs.length := by
  induction bs generalizing c with
  | nil => simp [shiftLeftFrom, Nat.mod_one]
  | cons b bs ih =>
    obtain ⟨hlow, htop⟩ := shiftByte_toNat c b
    have hmod : (2 * valLE (b :: bs) + c.toNat) % 256 = (shiftByte c b).toNat := by
      rw [hlow, valLE_cons]
      omega
    have hdiv : (2 * valLE (b :: bs) + c.toNat) / 256 = 2 * valLE bs + (b.getLsbD 7).toNat := by
      rw [htop, valLE_cons]
      omega
    rw [shiftLeftFrom_cons, valLE_cons, ih, List.length_cons, pow_succ', Nat.mod_mul, hmod, hdiv]

theorem valLE_shiftLeft1 (bs : List Byte) : valLE (shiftLeft1 bs) = 2 * valLE bs % 2 ^ (8 * bs.length) := by
  rw [shiftLeft1, valLE_shiftLeftFrom, Bool.toNat_false, Nat.add_zero, pow_mul]
  rfl

/-- Settles O31: the bytes by position, the value by the carry from byte to byte. -/
theorem shiftDoublesTheValue : Obligations.ShiftDoublesTheValue := by
  refine fun bs => ⟨shiftLeft1_length bs, fun b hb => ?lowest, fun j b a hj hb ha => ?higher, valLE_shiftLeft1 bs⟩
  case lowest =>
    rw [← shiftByte_false]
    exact shiftLeftFrom_getElem?_zero hb false
  case higher =>
    obtain ⟨k, rfl⟩ := Nat.exists_eq_add_of_le' hj
    rw [← shiftByte_topBit]
    exact shiftLeftFrom_getElem?_succ ha hb false

end Sys2Proof.Machine
end

section
/-! PROOF. The decimal conversion's first and last step (`41_decimal_double_dabble.md` R101, R107), for CONV.DEC and FMT.DEC. -/

namespace Sys2Proof.Machine

/-! ### The two decimal commands in the phases of unit DD (R100, `44_composite_fmt.md` R170) -/

theorem exec_decimal_conv {i : Instr} {s : State} (hp : s.phase = .conv)
    (hi : i = .convDec ∨ ∃ ordv ord kind, i = .fmtDec ordv ord kind) : exec i s = .next (ddEnter s) := by
  rcases hi with rfl | ⟨ordv, ord, kind, rfl⟩
  · simp only [exec, execConvDec, hp]
  · simp only [exec, execFmtDec, hp]

theorem exec_convDec_dd {s : State} (hp : s.phase = .dd) : exec .convDec s = .next (ddStep false s) := by
  simp only [exec, execConvDec, hp]

theorem exec_fmtDec_dd {s : State} (hp : s.phase = .dd) (ordv : Bool) (ord : ByteOrder) (kind : InputKind) :
    exec (.fmtDec ordv ord kind) s = .next (ddStep true s) := by
  simp only [exec, execFmtDec, hp]

/-! ### The entry step (R101) -/

/-- The loop entered: the later stages cleared, W copied to S, ACC and IT zero. -/
def enterLoop (s : State) : State :=
  { beginConv s with sBuf := s.wBytes, accBuf := List.replicate (cap s.wLen) 0, it := 0, phase := .dd }

theorem ddEnter_of_operand {s : State} (h : s.wLen ≠ 0) : ddEnter s = enterLoop s := if_neg h

/-- What the entry step clears and leaves unchanged whether or not there is an operand. -/
theorem ddEnter_frame (s : State) : (ddEnter s).digLen = 0 ∧ (ddEnter s).txtLen = 0 ∧ SameOutside s (ddEnter s) ∧
    (ddEnter s).wLen = s.wLen ∧ (ddEnter s).digRadix = s.digRadix ∧ (ddEnter s).carry = s.carry := by
  by_cases h : s.wLen = 0
  · rw [ddEnter_of_empty h]
    exact ⟨rfl, rfl, ⟨rfl, rfl, rfl, rfl, fun _ => rfl, rfl, rfl⟩, rfl, rfl, rfl⟩
  · rw [ddEnter_of_operand h]
    exact ⟨rfl, rfl, ⟨rfl, rfl, rfl, rfl, fun _ => rfl, rfl, rfl⟩, rfl, rfl, rfl⟩

/-- Settles O28, one branch of the entry step at a time. -/
theorem decimalEntryStep : Obligations.DecimalEntryStep := by
  intro i s hp hi
  obtain ⟨hdig, htxt, hout, hw, hradix, hcarry⟩ := ddEnter_frame s
  refine ⟨ddEnter s, exec_decimal_conv hp hi, hdig, htxt, hout, hw, hradix, hcarry, fun h => ?empty, fun h => ?enter⟩
  case empty =>
    rw [ddEnter_of_empty h]
    exact ⟨raiseError_endedWith .., rfl, rfl, rfl, rfl⟩
  case enter =>
    rw [ddEnter_of_operand h]
    exact ⟨⟨rfl, rfl⟩, rfl, rfl, rfl, rfl, List.length_replicate, fun _ => List.eq_of_mem_replicate⟩

/-! ### The commit step (R107) -/

theorem ddStep_of_last {s : State} (h : 8 * s.wLen ≤ s.it) (fmt : Bool) : ddStep fmt s = ddCommit fmt s :=
  if_neg (Nat.not_lt.mpr h)

/-- The slots become the digits, index for index, and nothing but DIG, PHASE and STATUS changes. -/
structure Committed (s t : State) : Prop where
  digBuf : t.digBuf = s.accSlots
  digLen : t.digLen = cap s.wLen
  digRadix : t.digRadix = .dec
  outside : SameOutside s t
  w : SameW s t
  txt : SameTxt s t
  hidden : SameHidden s t

theorem ddCommit_committed (fmt : Bool) (s : State) : Committed s (ddCommit fmt s) where
  digBuf := by cases fmt <;> rfl
  digLen := by cases fmt <;> exact accSlots_length s
  digRadix := by cases fmt <;> rfl
  outside := by cases fmt <;> exact ⟨rfl, rfl, rfl, rfl, fun _ => rfl, rfl, rfl⟩
  w := by cases fmt <;> exact ⟨rfl, rfl⟩
  txt := by cases fmt <;> exact ⟨rfl, rfl⟩
  hidden := by cases fmt <;> exact ⟨rfl, rfl, rfl, rfl⟩

theorem ddCommit_single_finished (s : State) : Finished s (ddCommit false s) := ⟨rfl, rfl⟩

/-- Settles O33: either command's step is the commit, and differs in what follows it only. -/
theorem decimalCommitStep : Obligations.DecimalCommitStep := by
  refine fun s hp h => ⟨⟨ddCommit false s, ?convStep, ?convDec⟩, fun ordv ord kind => ⟨ddCommit true s, ?fmtStep, ?fmtDec⟩⟩
  case convStep => rw [exec_convDec_dd hp, ddStep_of_last h]
  case convDec =>
    obtain ⟨hbuf, hlen, hradix, hout, hw, htxt, hhidden⟩ := ddCommit_committed false s
    exact ⟨ddCommit_single_finished s, hbuf, hlen, congrArg Radix.code hradix, hout, hw, htxt, hhidden⟩
  case fmtStep => rw [exec_fmtDec_dd hp, ddStep_of_last h]
  case fmtDec =>
    obtain ⟨hbuf, hlen, hradix, hout, hw, htxt, hhidden⟩ := ddCommit_committed true s
    exact ⟨rfl, rfl, hbuf, hlen, congrArg Radix.code hradix, hout, hw, htxt, hhidden⟩

end Sys2Proof.Machine
end

section
/-! PROOF. Digits by position and their value (`00_scope.md` R10), and digit sequences made byte by byte, most significant byte
first (`42_radix_pow2.md` R131, R132). -/

namespace Sys2Proof.Machine

/-! ### A digit read back from the value -/

/-- The digits after a digit weigh less than its unit, those before it a multiple of the next one. -/
theorem digit_eq_valMS_div {r : Nat} {ds : List Nibble} (hlt : ∀ d ∈ ds, d.toNat < r) {p : Nat} {d : Nibble}
    (hp : ds[p]? = some d) : d.toNat = valMS r ds / r ^ (ds.length - 1 - p) % r := by
  obtain ⟨hlen, rfl⟩ := List.getElem?_eq_some_iff.mp hp
  have hrest : (ds.drop (p + 1)).length = ds.length - 1 - p := by
    rw [List.length_drop]
    omega
  have hlow : valMS r (ds.drop (p + 1)) < r ^ (ds.length - 1 - p) :=
    hrest ▸ valMS_lt fun d hd => hlt d (List.mem_of_mem_drop hd)
  have hsplit : valMS r ds = valMS r (ds.drop (p + 1)) + (ds[p].toNat + r * valMS r (ds.take p)) * r ^ (ds.length - 1 - p) := by
    conv_lhs => rw [← List.take_append_drop p ds, List.drop_eq_getElem_cons hlen, valMS_append, valMS_cons]
    rw [List.length_cons, hrest, pow_succ]
    ring
  rw [hsplit, Nat.add_mul_div_right _ _ (Nat.zero_lt_of_lt hlow), Nat.div_eq_of_lt hlow, zero_add, Nat.add_mul_mod_self_left,
    Nat.mod_eq_of_lt (hlt _ (List.getElem_mem hlen))]

/-! ### Sequences of `k` elements a byte -/

/-- Element `j` of the group made from element `i`. -/
theorem flatMap_getElem?_const {α β : Type} {f : α → List β} {k : Nat} (hk : ∀ a, (f a).length = k) {l : List α} {i : Nat}
    {a : α} (hi : l[i]? = some a) {j : Nat} (hj : j < k) : (l.flatMap f)[k * i + j]? = (f a)[j]? := by
  induction l generalizing i with
  | nil => cases hi
  | cons b l ih =>
    rw [List.flatMap_cons]
    cases i with
    | zero =>
      cases hi
      rw [Nat.mul_zero, Nat.zero_add, List.getElem?_append_left ((hk a).symm ▸ hj)]
    | succ i =>
      rw [List.getElem?_cons_succ] at hi
      have hnext : k * (i + 1) + j = (f b).length + (k * i + j) := by
        rw [hk]
        ring
      rw [hnext, List.getElem?_append_right (Nat.le_add_right ..), Nat.add_sub_cancel_left, ih hi]

/-- `k` digits that hold a byte's value, in a radix `r` with `r^k = 256`, make up W's value. -/
theorem valMS_reverse_flatMap {f : Byte → List Nibble} {r k : Nat} (hk : ∀ b, (f b).length = k) (hr : r ^ k = 256)
    (hf : ∀ b, valMS r (f b) = b.toNat) (w : List Byte) : valMS r (w.reverse.flatMap f) = valLE w := by
  induction w with
  | nil => rfl
  | cons b w ih =>
    rw [List.reverse_cons, List.flatMap_append, List.flatMap_singleton, valMS_append, ih, hk, hr, hf, valLE_cons]
    ring

end Sys2Proof.Machine
end

section
/-! PROOF. The encodings of the CONV commands (`30_encoding.md` R62): OP and RADIX are their fixed bits. -/

namespace Sys2Proof

open Sys2Proof.Machine

theorem Radix.ofCode_code (r : Radix) : Radix.ofCode r.code = r := by
  cases r <;> rfl

theorem convOf_rowMask (r : Radix) : (convOf r).rowMask = 0x0F := by
  cases r <;> rfl

theorem convOf_rowMatch_fields (r : Radix) : opField (convOf r).rowMatch = 1 ∧ radixField (convOf r).rowMatch = r.code := by
  cases r <;> decide

/-- The mask keeps the two fields the decoder reads of a CONV word. -/
theorem convOf_encoding (r : Radix) (w : Byte) :
    w &&& (convOf r).rowMask = (convOf r).rowMatch ↔ decodeWord w = convOf r := by
  refine ⟨fun h => ?_, fun h => (row_decodeWord_eq_iff w _).mpr (congrArg Instr.row h)⟩
  obtain ⟨hop, hradix⟩ := convOf_rowMatch_fields r
  rw [← h, convOf_rowMask] at hop hradix
  rw [opField_and rfl] at hop
  rw [radixField_and rfl] at hradix
  rw [decodeWord_conv hop, hradix, r.ofCode_code]

end Sys2Proof
end

section
/-! PROOF. The CONV phase of unit RX whatever the radix (`42_radix_pow2.md` R130): EmptyInput, the digits loaded, and what the phase
leaves unchanged. -/

namespace Sys2Proof.Machine

theorem exec_convHex_conv {s : State} (h : s.phase = .conv) :
    exec .convHex s = .next (radixPhase .hex (hexDigits s.wBytes) false s) := by
  simp only [exec, execConvHex, radixStep, h]

theorem exec_convOct_conv {s : State} (h : s.phase = .conv) :
    exec .convOct s = .next (radixPhase .oct (octDigits s.wBytes) false s) := by
  simp only [exec, execConvOct, radixStep, h]

theorem exec_convBin_conv {s : State} (h : s.phase = .conv) :
    exec .convBin s = .next (radixPhase .bin (binDigits s.wBytes) false s) := by
  simp only [exec, execConvBin, radixStep, h]

theorem radixPhase_of_operand {s : State} (h : s.wLen ≠ 0) (r : Radix) (ds : List Nibble) (fmt : Bool) :
    radixPhase r ds fmt s = proceed fmt .rend (loadDigits r ds (beginConv s)) := if_neg h

/-- What the phase clears and leaves unchanged whether or not there is an operand. -/
theorem radixPhase_frame (r : Radix) (ds : List Nibble) (fmt : Bool) (s : State) :
    (radixPhase r ds fmt s).txtLen = 0 ∧ SameOutside s (radixPhase r ds fmt s) ∧ (radixPhase r ds fmt s).wLen = s.wLen ∧
      SameHidden s (radixPhase r ds fmt s) := by
  rcases radixPhase_cases r ds fmt s with ⟨_, h⟩ | ⟨_, h⟩
  · exact h ▸ ⟨rfl, ⟨rfl, rfl, rfl, rfl, fun _ => rfl, rfl, rfl⟩, rfl, ⟨rfl, rfl, rfl, rfl⟩⟩
  · cases fmt <;> exact h ▸ ⟨rfl, ⟨rfl, rfl, rfl, rfl, fun _ => rfl, rfl, rfl⟩, rfl, ⟨rfl, rfl, rfl, rfl⟩⟩

theorem radixPhase_fails {s : State} (h : s.wLen = 0) (r : Radix) (ds : List Nibble) (fmt : Bool) :
    EndedWith .emptyInput (radixPhase r ds fmt s) ∧ (radixPhase r ds fmt s).digLen = 0 ∧
      (radixPhase r ds fmt s).digRadix = s.digRadix := by
  rw [radixPhase_of_empty h]
  exact ⟨raiseError_endedWith .., rfl, rfl⟩

/-- The digits become DIG, and W is not touched. -/
structure RadixResult (r : Radix) (ds : List Nibble) (s t : State) : Prop where
  finished : Finished s t
  w : SameW s t
  digRadix : t.digRadix = r
  digLen : t.digLen = ds.length
  digBuf : t.digBuf = ds

theorem radixPhase_result {s : State} (h : s.wLen ≠ 0) (r : Radix) (ds : List Nibble) :
    RadixResult r ds s (radixPhase r ds false s) := by
  rw [radixPhase_of_operand h]
  exact ⟨⟨rfl, rfl⟩, ⟨rfl, rfl⟩, rfl, rfl, rfl⟩

/-- W most significant byte first: `W[L-1-k]` (R134). -/
theorem wBytes_reverse_getElem? {s : State} {k : Nat} (h : k < s.wLen) :
    ∃ b, s.wBytes[s.wLen - 1 - k]? = some b ∧ s.wBytes.reverse[k]? = some b := by
  have hlen : k < s.wBytes.length := (wBytes_length s).symm ▸ h
  refine ⟨s.wBytes[s.wBytes.length - 1 - k], ?_, ?_⟩
  · simp
  · rw [List.getElem?_reverse hlen]
    simp

end Sys2Proof.Machine
end

section
/-! PROOF. CONV.HEX (`42_radix_pow2.md` R131): two nibbles a byte. -/

namespace Sys2Proof.Machine

/-- R131 for one byte, high nibble first. -/
def byteNibbles (b : Byte) : List Nibble := [(b >>> 4).setWidth 4, (b &&& 0xF).setWidth 4]

theorem byteNibbles_length (b : Byte) : (byteNibbles b).length = 2 := rfl

theorem hexDigits_eq (w : List Byte) : hexDigits w = w.reverse.flatMap byteNibbles := by
  have h (b : Byte) : [b.extractLsb' 4 4, b.extractLsb' 0 4] = byteNibbles b := by
    revert b
    decide
  simp only [hexDigits, h]

theorem valMS_byteNibbles (b : Byte) : valMS 16 (byteNibbles b) = b.toNat := by
  revert b
  decide

theorem valMS_hexDigits (w : List Byte) : valMS 16 (hexDigits w) = valLE w := by
  rw [hexDigits_eq]
  exact valMS_reverse_flatMap byteNibbles_length rfl valMS_byteNibbles w

theorem hexDigits_getElem? {w : List Byte} {k : Nat} {b : Byte} (h : w.reverse[k]? = some b) {j : Nat} (hj : j < 2) :
    (hexDigits w)[2 * k + j]? = (byteNibbles b)[j]? := by
  rw [hexDigits_eq]
  exact flatMap_getElem?_const byteNibbles_length h hj

/-- Settles O39: the CONV phase of radix 16, whose digits are two nibbles a byte. -/
theorem convHexWritesNibbles : Obligations.ConvHexWritesNibbles := by
  refine ⟨convOf_encoding .hex, fun s hp => ?_⟩
  obtain ⟨htxt, hout, hwLen, hhidden⟩ := radixPhase_frame .hex (hexDigits s.wBytes) false s
  refine ⟨_, exec_convHex_conv hp, htxt, hout, hwLen, hhidden, fun h => radixPhase_fails h .., fun h => ?_⟩
  obtain ⟨hfin, hw, hradix, hlen, hbuf⟩ := radixPhase_result h .hex (hexDigits s.wBytes)
  rw [hradix, hlen, hbuf, hexDigits_length, wBytes_length]
  refine ⟨hfin, hw, rfl, rfl, rfl, valMS_hexDigits _, fun k hk => ?_⟩
  obtain ⟨b, hb, hrev⟩ := wBytes_reverse_getElem? hk
  exact ⟨b, hb, hexDigits_getElem? hrev two_pos, hexDigits_getElem? hrev one_lt_two⟩

end Sys2Proof.Machine
end

section
/-! PROOF. CONV.BIN (`42_radix_pow2.md` R132): eight bits a byte. -/

namespace Sys2Proof.Machine

@[simp] theorem bitDigit_toNat (b : Bool) : (bitDigit b).toNat = b.toNat := by
  cases b <;> rfl

/-- R132 for one byte, bit 7 first. -/
def byteBitDigits (b : Byte) : List Nibble := (byteBits b).map bitDigit

theorem byteBitDigits_length (b : Byte) : (byteBitDigits b).length = 8 := rfl

theorem byteBitDigits_getElem? (b : Byte) {j : Nat} (hj : j < 8) :
    (byteBitDigits b)[j]? = some (bitDigit (b.getLsbD (7 - j))) := by
  simp [byteBitDigits, byteBits, hj]

theorem binDigits_eq (w : List Byte) : binDigits w = w.reverse.flatMap byteBitDigits := List.map_flatMap

theorem valMS_byteBitDigits (b : Byte) : valMS 2 (byteBitDigits b) = b.toNat := by
  revert b
  decide

theorem valMS_binDigits (w : List Byte) : valMS 2 (binDigits w) = valLE w := by
  rw [binDigits_eq]
  exact valMS_reverse_flatMap byteBitDigits_length rfl valMS_byteBitDigits w

theorem binDigits_getElem? {w : List Byte} {k : Nat} {b : Byte} (h : w.reverse[k]? = some b) {j : Nat} (hj : j < 8) :
    (binDigits w)[8 * k + j]? = some (bitDigit (b.getLsbD (7 - j))) := by
  rw [binDigits_eq, flatMap_getElem?_const byteBitDigits_length h hj, byteBitDigits_getElem? b hj]

theorem binDigits_lt {w : List Byte} {d : Nibble} (h : d ∈ binDigits w) : d.toNat < 2 := by
  obtain ⟨b, _, rfl⟩ := List.mem_map.mp h
  exact bitDigit_toNat b ▸ b.toNat_lt

/-- Settles O40: the CONV phase of radix 2, whose digits are eight bits a byte, hence the bits of the value. -/
theorem convBinWritesBits : Obligations.ConvBinWritesBits := by
  refine ⟨convOf_encoding .bin, fun s hp => ?_⟩
  obtain ⟨htxt, hout, hwLen, hhidden⟩ := radixPhase_frame .bin (binDigits s.wBytes) false s
  refine ⟨_, exec_convBin_conv hp, htxt, hout, hwLen, hhidden, fun h => radixPhase_fails h .., fun h => ?_⟩
  obtain ⟨hfin, hw, hradix, hlen, hbuf⟩ := radixPhase_result h .bin (binDigits s.wBytes)
  rw [hradix, hlen, hbuf, binDigits_length, wBytes_length]
  refine ⟨hfin, hw, rfl, rfl, rfl, valMS_binDigits _, fun k hk j hj => ?_⟩
  obtain ⟨b, hb, hrev⟩ := wBytes_reverse_getElem? hk
  have hd := binDigits_getElem? hrev hj
  have hvalue := digit_eq_valMS_div (fun _ => binDigits_lt) hd
  rw [valMS_binDigits, binDigits_length, wBytes_length] at hvalue
  exact ⟨b, _, hb, hd, bitDigit_toNat _, hvalue⟩

end Sys2Proof.Machine
end

section
/-! PROOF. CONV.OCT (`42_radix_pow2.md` R133): the binary digits three at a time from the right end. -/

namespace Sys2Proof.Machine

/-- A group of three bits as a digit. -/
theorem triple_toNat (a b c : Bool) :
    (BitVec.zeroExtend 4 (BitVec.ofBool a ++ BitVec.ofBool b ++ BitVec.ofBool c)).toNat = 4 * a.toNat + 2 * b.toNat + c.toNat := by
  revert a b c
  decide

theorem tripleDigits_lt : ∀ {bs : List Bool} {d : Nibble}, d ∈ tripleDigits bs → d.toNat < 8
  | a :: b :: c :: bs, d, h => by
    rcases List.mem_cons.mp h with rfl | h
    · rw [triple_toNat]
      have := a.toNat_lt
      have := b.toNat_lt
      have := c.toNat_lt
      omega
    · exact tripleDigits_lt h

/-- Three binary digits weigh as one octal digit. -/
theorem valMS_tripleDigits {g : Nat} {bs : List Bool} (h : bs.length = 3 * g) :
    valMS 8 (tripleDigits bs) = valMS 2 (bs.map bitDigit) := by
  induction g generalizing bs with
  | zero =>
    rw [List.length_eq_zero_iff.mp h]
    rfl
  | succ g ih =>
    match bs, h with
    | a :: b :: c :: bs, h =>
      have hg : bs.length = 3 * g := by
        simp only [List.length_cons] at h
        omega
      simp only [tripleDigits, List.map_cons, valMS_cons, triple_toNat, bitDigit_toNat, ih hg, tripleDigits_length hg,
        List.length_cons, List.length_map, hg, pow_succ, pow_mul]
      ring

/-- The padded bit string is whole groups of three (R136). -/
theorem padded_length (w : List Byte) :
    (List.replicate (octPad (8 * w.length)) false ++ bitString w).length = 3 * octCount (8 * w.length) := by
  simp only [List.length_append, List.length_replicate, bitString_length, octPad, octCount]
  omega

theorem valMS_octDigits (w : List Byte) : valMS 8 (octDigits w) = valLE w := by
  rw [octDigits, valMS_tripleDigits (padded_length w), List.map_append, List.map_replicate, valMS_append,
    show bitDigit false = 0 from rfl, valMS_replicate_zero, zero_mul, zero_add]
  exact valMS_binDigits w

theorem octDigits_lt {w : List Byte} {d : Nibble} (h : d ∈ octDigits w) : d.toNat < 8 := tripleDigits_lt h

/-- Settles O41: the CONV phase of radix 8, whose digits are below 8 and make up the value, so each is the value's digit. -/
theorem convOctWritesTriples : Obligations.ConvOctWritesTriples := by
  refine ⟨convOf_encoding .oct, fun s hp => ?_⟩
  obtain ⟨htxt, hout, hwLen, hhidden⟩ := radixPhase_frame .oct (octDigits s.wBytes) false s
  refine ⟨_, exec_convOct_conv hp, htxt, hout, hwLen, hhidden, fun h => radixPhase_fails h .., fun h => ?_⟩
  obtain ⟨hfin, hw, hradix, hlen, hbuf⟩ := radixPhase_result h .oct (octDigits s.wBytes)
  have hcount : (octDigits s.wBytes).length = (8 * s.wLen + 2) / 3 := by rw [octDigits_length, wBytes_length, octCount]
  rw [hradix, hlen, hbuf, hcount]
  refine ⟨hfin, hw, rfl, rfl, rfl, valMS_octDigits _, fun k hk => ?_⟩
  obtain ⟨d, hd⟩ : ∃ d, (octDigits s.wBytes)[k]? = some d := ⟨_, List.getElem?_eq_getElem (hcount ▸ hk)⟩
  have hvalue := digit_eq_valMS_div (fun _ => octDigits_lt) hd
  rw [valMS_octDigits, hcount] at hvalue
  exact ⟨d, hd, hvalue⟩

end Sys2Proof.Machine
end

section
/-! PROOF. The trim index (`43_renderer.md` R151), one equation for each shape of the digits. -/

namespace Sys2Proof.Machine

theorem trimIndex_zero_cons {ds : List Nibble} (h : ds ≠ []) : trimIndex (0 :: ds) = trimIndex ds + 1 := by
  cases ds with
  | nil => exact absurd rfl h
  | cons d ds => exact if_pos rfl

theorem trimIndex_cons_of_ne_zero {d : Nibble} (h : d ≠ 0) (ds : List Nibble) : trimIndex (d :: ds) = 0 := by
  cases ds with
  | nil => rfl
  | cons e ds => exact if_neg h

theorem trimIndex_replicate_zero (n : Nat) : trimIndex (List.replicate (n + 1) 0) = n := by
  induction n with
  | zero => rfl
  | succ n ih => rw [List.replicate_succ, trimIndex_zero_cons (by simp), ih]

/-- The zeros in front are trimmed one by one up to the first other digit. -/
theorem trimIndex_eq_of_first_ne_zero {ds : List Nibble} {k : Nat} {d : Nibble} (hk : ds[k]? = some d) (hd : d ≠ 0)
    (hzero : ∀ j < k, ds[j]? = some 0) : trimIndex ds = k := by
  induction ds generalizing k with
  | nil => cases hk
  | cons e ds ih =>
    cases k with
    | zero =>
      cases hk
      exact trimIndex_cons_of_ne_zero hd ds
    | succ k =>
      rw [List.getElem?_cons_succ] at hk
      have hhead : e = 0 := Option.some.inj (hzero 0 (Nat.succ_pos k))
      have hrest : ds ≠ [] := by
        rintro rfl
        cases hk
      rw [hhead, trimIndex_zero_cons hrest, ih hk fun j hj => hzero (j + 1) (Nat.succ_lt_succ hj)]

/-- Settles O43: zeros only are a `replicate`, and a non-zero digit ends the run of zeros in front. -/
theorem trimIndexRule : Obligations.TrimIndexRule := by
  refine fun ds hne => ⟨fun hzero => ?allZero, fun k d hk hd hzero => trimIndex_eq_of_first_ne_zero hk hd hzero⟩
  case allZero =>
    obtain ⟨n, hn⟩ := Nat.exists_eq_add_one_of_ne_zero (List.length_pos_of_ne_nil hne).ne'
    rw [List.eq_replicate_of_mem hzero, List.length_replicate, hn, trimIndex_replicate_zero, Nat.add_sub_cancel]

end Sys2Proof.Machine
end

section
/-! PROOF. The text of a digit sequence (`43_renderer.md` R150, R152, R154): its length, its characters, and the text of zeros. -/

namespace Sys2Proof.Machine

theorem radixCode_eq_three_iff (r : Radix) : r.code = 3 ↔ r = .bin := by
  cases r <;> decide

/-- The width policy by the tag's code (`30_encoding.md` R64). -/
theorem firstIndex_eq_of_code (bfw : Bool) (r : Radix) (ds : List Nibble) :
    firstIndex bfw r ds = if bfw = true ∧ r.code = 3 then 0 else trimIndex ds := by
  simp only [firstIndex, radixCode_eq_three_iff]

theorem firstIndex_lt {ds : List Nibble} (h : ds ≠ []) (bfw : Bool) (r : Radix) : firstIndex bfw r ds < ds.length := by
  unfold firstIndex
  split
  · exact List.length_pos_of_ne_nil h
  · exact trimIndex_lt h

theorem renderText_length (bfw : Bool) (r : Radix) (ds : List Nibble) :
    (renderText bfw r ds).length = ds.length - firstIndex bfw r ds := by
  rw [renderText, List.length_map, List.length_drop]

theorem renderText_getElem? (bfw : Bool) (r : Radix) (ds : List Nibble) (j : Nat) :
    (renderText bfw r ds)[j]? = ds[firstIndex bfw r ds + j]?.map alpha := by
  rw [renderText, List.getElem?_map, List.getElem?_drop]

/-- Where digits are trimmed, all zeros but the last one are (R152). -/
theorem renderText_zeros_trimmed {bfw : Bool} {r : Radix} (h : ¬ (bfw = true ∧ r = .bin)) (n : Nat) :
    renderText bfw r (List.replicate (n + 1) 0) = [0x30] := by
  have hfirst : firstIndex bfw r (List.replicate (n + 1) 0) = n := (if_neg h).trans (trimIndex_replicate_zero n)
  rw [renderText, hfirst, List.drop_replicate, Nat.add_sub_cancel_left]
  rfl

/-- Under the fixed-width policy in radix 2 no zero is trimmed (R154). -/
theorem renderText_zeros_fixedWidth {bfw : Bool} {r : Radix} (h : bfw = true ∧ r = .bin) (n : Nat) :
    renderText bfw r (List.replicate n 0) = List.replicate n 0x30 := by
  have hfirst : firstIndex bfw r (List.replicate n 0) = 0 := if_pos h
  rw [renderText, hfirst, List.drop_zero, List.map_replicate]
  rfl

end Sys2Proof.Machine
end

section
/-! PROOF. The command REND (`43_renderer.md` R150): its encoding, its one phase, and what the phase leaves unchanged. -/

namespace Sys2Proof.Machine

/-- OP is REND's only fixed field (`30_encoding.md` R62). -/
theorem rend_encoding (w : Byte) : w &&& 0x03 = 0x02 ↔ decodeWord w = .rend := by
  refine ⟨fun h => decodeWord_rend ?_, fun h => (row_decodeWord_eq_iff w .rend).mpr (congrArg Instr.row h)⟩
  rw [← opField_and (w := w) (m := 0x03) rfl, h]
  rfl

theorem exec_rend_rend {s : State} (h : s.phase = .rend) : exec .rend s = .next (rendPhase s) := by
  simp only [exec, execRend, h]

theorem rendPhase_of_operand {s : State} (h : s.digLen ≠ 0) :
    rendPhase s = finish (loadText (renderText s.cfg.bfw s.digRadix s.digits) (beginRend s)) := if_neg h

/-- What the phase leaves unchanged whether or not there is an operand; DIG is never written, so REND may be repeated. -/
theorem rendPhase_frame (s : State) :
    SameOutside s (rendPhase s) ∧ (rendPhase s).wLen = s.wLen ∧ SameDig s (rendPhase s) ∧ SameHidden s (rendPhase s) := by
  rcases rendPhase_cases s with ⟨_, h⟩ | ⟨_, h⟩ <;>
    exact h ▸ ⟨⟨rfl, rfl, rfl, rfl, fun _ => rfl, rfl, rfl⟩, rfl, ⟨rfl, rfl, rfl⟩, ⟨rfl, rfl, rfl, rfl⟩⟩

theorem rendPhase_fails {s : State} (h : s.digLen = 0) : EndedWith .emptyInput (rendPhase s) ∧ (rendPhase s).txtLen = 0 := by
  rw [rendPhase_of_empty h]
  exact ⟨raiseError_endedWith .., rfl⟩

/-- The text becomes TXT, and W is not touched. -/
structure RendResult (text : List Byte) (s t : State) : Prop where
  finished : Finished s t
  w : SameW s t
  txtLen : t.txtLen = text.length
  txtBuf : t.txtBuf = text

theorem rendPhase_result {s : State} (h : s.digLen ≠ 0) :
    RendResult (renderText s.cfg.bfw s.digRadix s.digits) s (rendPhase s) := by
  rw [rendPhase_of_operand h]
  exact ⟨⟨rfl, rfl⟩, ⟨rfl, rfl⟩, rfl, rfl⟩

theorem digits_ne_nil {s : State} (h : s.digLen ≠ 0) : s.digits ≠ [] := by
  rwa [← List.length_pos_iff, digits_length, Nat.pos_iff_ne_zero]

/-- Settles O42: the text holds the digits from the first kept one on, and that one is a digit of DIG, so there is a character. -/
theorem rendWritesTrimmedText : Obligations.RendWritesTrimmedText := by
  refine ⟨rend_encoding, fun s hp => ?_⟩
  obtain ⟨hout, hwLen, hdig, hhidden⟩ := rendPhase_frame s
  simp only [← firstIndex_eq_of_code]
  refine ⟨_, exec_rend_rend hp, hout, hwLen, hdig, hhidden, rendPhase_fails, fun h => ?_⟩
  obtain ⟨hfin, hw, hlen, hbuf⟩ := rendPhase_result h
  have hfirst := firstIndex_lt (digits_ne_nil h) s.cfg.bfw s.digRadix
  rw [hlen, hbuf, renderText_length]
  rw [digits_length] at hfirst ⊢
  refine ⟨hfin, hw, hfirst, rfl, rfl, Nat.sub_pos_of_lt hfirst, Nat.sub_le .., fun j hj => ?_⟩
  have hin : firstIndex s.cfg.bfw s.digRadix s.digits + j < s.digits.length := by
    rw [digits_length]
    omega
  refine ⟨_, List.getElem?_eq_getElem hin, ?_⟩
  rw [renderText_getElem?, List.getElem?_eq_getElem hin]
  rfl

/-- Settles O45: DIG is a `replicate` of zeros, whose text the width policy decides. -/
theorem zeroRendersAsOneZero : Obligations.ZeroRendersAsOneZero := by
  intro s hp hpos hzero
  obtain ⟨hfin, _, hlen, hbuf⟩ := rendPhase_result hpos.ne'
  obtain ⟨n, hn⟩ := Nat.exists_eq_add_one_of_ne_zero hpos.ne'
  have hdigits : s.digits = List.replicate (n + 1) 0 := hn ▸ digits_length s ▸ List.eq_replicate_of_mem hzero
  rw [hdigits] at hlen hbuf
  refine ⟨fun hpolicy => ⟨_, exec_rend_rend hp, hfin, ?trimmedLen, ?trimmed⟩,
    fun hpolicy => ⟨_, exec_rend_rend hp, hfin, ?fixedLen, ?fixed⟩⟩
  case trimmedLen => rw [hlen, renderText_zeros_trimmed hpolicy, List.length_singleton]
  case trimmed => rw [hbuf, renderText_zeros_trimmed hpolicy]
  case fixedLen => rw [hlen, renderText_zeros_fixedWidth hpolicy, List.length_replicate, hn]
  case fixed => rw [hbuf, renderText_zeros_fixedWidth hpolicy, hn]

end Sys2Proof.Machine
end

section
/-! PROOF. One digit update of unit DD (`41_decimal_double_dabble.md` R106): one slot, then the carry from slot to slot. -/

namespace Sys2Proof.Machine

/-! ### One slot -/

/-- On a decimal digit the slot and its carry are the two parts of the doubled value. -/
theorem doubleSlot_toNat {d : Nibble} (hd : d.toNat ≤ 9) (c : Bool) :
    (doubleSlot d c).1.toNat ≤ 9 ∧ (doubleSlot d c).1.toNat + 10 * (doubleSlot d c).2.toNat = 2 * d.toNat + c.toNat := by
  revert d c
  decide

/-- On a decimal digit the add-3 form gives the same slot, and its bit 3 is the carry, whatever enters (R112). -/
theorem add3_eq_doubleSlot {d : Nibble} (hd : d.toNat ≤ 9) (c : Bool) :
    shiftSlot (add3 d) c = (doubleSlot d c).1 ∧ (add3 d).getLsbD 3 = (doubleSlot d c).2 := by
  revert d c
  decide

/-! ### All slots -/

theorem doubleSlots_cons (d : Nibble) (ds : List Nibble) (c : Bool) :
    doubleSlots (d :: ds) c =
      ((doubleSlot d (doubleSlots ds c).2).1 :: (doubleSlots ds c).1, (doubleSlot d (doubleSlots ds c).2).2) := rfl

theorem doubleSlots_decimal {ds : List Nibble} (h : ∀ d ∈ ds, d.toNat ≤ 9) (c : Bool) :
    ∀ d ∈ (doubleSlots ds c).1, d.toNat ≤ 9 := by
  induction ds with
  | nil => exact h
  | cons d ds ih =>
    obtain ⟨hd, hds⟩ := List.forall_mem_cons.mp h
    exact List.forall_mem_cons.mpr ⟨(doubleSlot_toNat hd _).1, ih hds⟩

/-- The value doubles and takes in the captured bit; what does not fit the slots is the carry left in C. -/
theorem valMS_doubleSlots {ds : List Nibble} (h : ∀ d ∈ ds, d.toNat ≤ 9) (c : Bool) :
    valMS 10 (doubleSlots ds c).1 + (doubleSlots ds c).2.toNat * 10 ^ ds.length = 2 * valMS 10 ds + c.toNat := by
  induction ds with
  | nil => simp [doubleSlots]
  | cons d ds ih =>
    obtain ⟨hd, hds⟩ := List.forall_mem_cons.mp h
    have hslot := (doubleSlot_toNat hd (doubleSlots ds c).2).2
    have hlow := ih hds
    simp only [doubleSlots_cons, valMS_cons, doubleSlots_length, List.length_cons, pow_succ]
    calc (doubleSlot d (doubleSlots ds c).2).1.toNat * 10 ^ ds.length + valMS 10 (doubleSlots ds c).1
          + (doubleSlot d (doubleSlots ds c).2).2.toNat * (10 ^ ds.length * 10)
        = ((doubleSlot d (doubleSlots ds c).2).1.toNat + 10 * (doubleSlot d (doubleSlots ds c).2).2.toNat) * 10 ^ ds.length
          + valMS 10 (doubleSlots ds c).1 := by ring
      _ = 2 * d.toNat * 10 ^ ds.length + (valMS 10 (doubleSlots ds c).1 + (doubleSlots ds c).2.toNat * 10 ^ ds.length) := by
        rw [hslot]
        ring
      _ = 2 * (d.toNat * 10 ^ ds.length + valMS 10 ds) + c.toNat := by
        rw [hlow]
        ring

/-- Settles O32: slot by slot from the least significant one. -/
theorem digitUpdateDoublesTheValue : Obligations.DigitUpdateDoublesTheValue := fun ds c h =>
  ⟨doubleSlots_length ds c, doubleSlots_decimal h c, valMS_doubleSlots h c⟩

/-! ### The parallel add-3 form (R112) -/

theorem add3Slots_eq_doubleSlots {ds : List Nibble} (h : ∀ d ∈ ds, d.toNat ≤ 9) (c : Bool) :
    add3Slots ds c = (doubleSlots ds c).1 := by
  induction ds with
  | nil => rfl
  | cons a ds ih =>
    obtain ⟨ha, hds⟩ := List.forall_mem_cons.mp h
    cases ds with
    | nil => exact congrArg (· :: []) (add3_eq_doubleSlot ha c).1
    | cons b ds =>
      have hb : b.toNat ≤ 9 := hds b (List.mem_cons_self ..)
      rw [add3Slots, ih hds, (add3_eq_doubleSlot hb (doubleSlots ds c).2).2, (add3_eq_doubleSlot ha _).1]
      rfl

/-- Settles O37: bit 3 of an adjusted slot is the carry the slot loop passes on. -/
theorem addThreeFormIsEqual : Obligations.AddThreeFormIsEqual := fun _ c h => add3Slots_eq_doubleSlots h c

/-! ### The early exit (R115(b)) -/

/-- The loop from the least significant slot on, said for the slots as ACC holds them. -/
theorem doubleSlots_concat (ds : List Nibble) (d : Nibble) (c : Bool) :
    doubleSlots (ds ++ [d]) c =
      ((doubleSlots ds (doubleSlot d c).2).1 ++ [(doubleSlot d c).1], (doubleSlots ds (doubleSlot d c).2).2) := by
  induction ds with
  | nil => rfl
  | cons e ds ih => rw [List.cons_append, doubleSlots_cons, ih, doubleSlots_cons, List.cons_append]

/-- Where the loop may stop, it would change nothing more. -/
theorem doubleSlots_zeros (n : Nat) : doubleSlots (List.replicate n 0) false = (List.replicate n 0, false) := by
  induction n with
  | zero => rfl
  | succ n ih =>
    rw [List.replicate_succ, doubleSlots_cons, ih]
    rfl

theorem doubleSlotsLow_eq (low : List Nibble) (c : Bool) :
    doubleSlotsLow low c = ((doubleSlots low.reverse c).1.reverse, (doubleSlots low.reverse c).2) := by
  induction low generalizing c with
  | nil => rfl
  | cons d ds ih =>
    rw [doubleSlotsLow]
    split
    · rename_i hstop
      obtain ⟨rfl, hzero⟩ := hstop
      have hzeros : d :: ds = List.replicate (d :: ds).length 0 := List.eq_replicate_of_mem (by simpa using hzero)
      rw [hzeros, List.reverse_replicate, doubleSlots_zeros, List.reverse_replicate]
    · simp only [ih, List.reverse_cons, doubleSlots_concat, List.reverse_concat]

/-- Settles O38: the exit is taken only where every slot left stays 0. -/
theorem earlyExitIsSound : Obligations.EarlyExitIsSound := by
  intro ds c
  rw [doubleSlotsEarly, doubleSlotsLow_eq, List.reverse_reverse, List.reverse_reverse]

end Sys2Proof.Machine
end

section
/-! PROOF. The size of ACC (`41_decimal_double_dabble.md` R102) and the captured bit (R104). -/

namespace Sys2Proof.Machine

theorem valLE_lt_two_pow (bs : List Byte) : valLE bs < 2 ^ (8 * bs.length) := by
  rw [pow_mul]
  exact valLE_lt bs

/-- Three bits weigh less than a decimal digit, so one slot of `CAP(L)` stays free. -/
theorem two_pow_lt_ten_pow_cap (len : Nat) : 2 ^ (8 * len) < 10 ^ (cap len - 1) := by
  obtain ⟨q, r, hr, hn⟩ : ∃ q r, r ≤ 2 ∧ 8 * len = 3 * q + r := ⟨8 * len / 3, 8 * len % 3, by omega, by omega⟩
  have hcap : cap len - 1 = q + 1 := by
    rw [cap]
    omega
  have h8 : 8 ^ q ≤ 10 ^ q := Nat.pow_le_pow_left (by norm_num) q
  have h4 : 2 ^ r ≤ 2 ^ 2 := Nat.pow_le_pow_right two_pos hr
  calc 2 ^ (8 * len) = 8 ^ q * 2 ^ r := by rw [hn, pow_add, pow_mul]; norm_num
    _ ≤ 10 ^ q * 4 := Nat.mul_le_mul h8 h4
    _ < 10 ^ (cap len - 1) := by
      rw [hcap, pow_succ]
      have := Nat.pos_of_ne_zero (pow_ne_zero q (show (10 : Nat) ≠ 0 by norm_num))
      omega

theorem cap_le_digMax {len : Nat} (h : 1 ≤ len) : cap len ≤ digMax len := by
  rw [cap, digMax]
  omega

theorem octCount_le_digMax (len : Nat) : octCount (8 * len) ≤ digMax len := by
  rw [octCount, digMax]
  omega

/-- Settles O36. -/
theorem capacityIsSufficient : Obligations.CapacityIsSufficient := by
  rintro len bs hpos rfl
  refine ⟨valLE_lt_two_pow bs, two_pow_lt_ten_pow_cap bs.length, rfl, cap_le_digMax hpos, ?_, octCount_le_digMax bs.length⟩
  rw [digMax]
  omega

/-- The captured bit by the byte it is taken from. -/
theorem topBit_concat (bs : List Byte) (b : Byte) : topBit (bs ++ [b]) = b.getLsbD 7 := by
  rw [topBit, List.getLast?_concat]

theorem getLsbD_seven_toNat (b : Byte) : (b.getLsbD 7).toNat = b.toNat / 128 := by
  revert b
  decide

/-- The captured bit is the top bit of the value. -/
theorem topBit_toNat {bs : List Byte} (h : bs ≠ []) : (topBit bs).toNat = valLE bs / 2 ^ (8 * bs.length - 1) := by
  obtain ⟨init, b, rfl⟩ := List.eq_nil_or_concat' bs |>.resolve_left h
  have hpow : 2 ^ (8 * (init ++ [b]).length - 1) = 256 ^ init.length * 128 := by
    rw [List.length_append, List.length_singleton, show 8 * (init.length + 1) - 1 = 8 * init.length + 7 by omega, pow_add, pow_mul]
    norm_num
  rw [topBit_concat, getLsbD_seven_toNat, hpow, ← Nat.div_div_eq_div_mul, valLE_append,
    Nat.add_mul_div_left _ _ (pow_pos (by norm_num) _), Nat.div_eq_of_lt (valLE_lt init), valLE_cons, valLE_nil]
  omega

/-- Settles O30. -/
theorem capturedBitIsTopBit : Obligations.CapturedBitIsTopBit := by
  intro bs h
  refine ⟨⟨bs.getLast h, ?_, ?_⟩, topBit_toNat h⟩
  · rw [← List.getLast?_eq_getElem?, List.getLast?_eq_some_getLast h]
  · rw [topBit, List.getLast?_eq_some_getLast h]

end Sys2Proof.Machine
end

section
/-! PROOF. What a command is to the engine: its NORM result, its radix, whether it renders, whether it goes on after a phase
(`10_state.md` R23, `44_composite_fmt.md` R170). -/

namespace Sys2Proof

open Sys2Proof.Machine

/-- The command goes on after a phase instead of finishing (`next(p)` of R23). -/
def Instr.isFmt : Instr → Bool
  | .normB _ _ _ => false
  | .normX => false
  | .normK3 => false
  | .convDec => false
  | .convHex => false
  | .convOct => false
  | .convBin => false
  | .rend => false
  | .fmtDec _ _ _ => true
  | .fmtHex _ _ _ => true
  | .fmtOct _ _ _ => true
  | .fmtBin _ _ _ => true

/-- The result of the command's NORM phase; none when it has no such phase. -/
def Instr.operand (i : Instr) (s : State) : Option (Except Err (List Byte)) :=
  match i with
  | .normB ordv ord _ => some (normBytes (effectiveOrder ordv ord s.cfg) s)
  | .normX => some (normHex s)
  | .normK3 => some (.error .invalidInputKind)
  | .convDec => none
  | .convHex => none
  | .convOct => none
  | .convBin => none
  | .rend => none
  | .fmtDec ordv ord kind => some (normKind ordv ord kind s)
  | .fmtHex ordv ord kind => some (normKind ordv ord kind s)
  | .fmtOct ordv ord kind => some (normKind ordv ord kind s)
  | .fmtBin ordv ord kind => some (normKind ordv ord kind s)

/-- The radix of the command's CONV phase; none when it has no such phase. -/
def Instr.radix : Instr → Option Radix
  | .normB _ _ _ => none
  | .normX => none
  | .normK3 => none
  | .convDec => some .dec
  | .convHex => some .hex
  | .convOct => some .oct
  | .convBin => some .bin
  | .rend => none
  | .fmtDec _ _ _ => some .dec
  | .fmtHex _ _ _ => some .hex
  | .fmtOct _ _ _ => some .oct
  | .fmtBin _ _ _ => some .bin

/-- The command has a REND phase. -/
def Instr.renders : Instr → Bool
  | .rend => true
  | i => i.isFmt

/-! ### The three families -/

@[simp] theorem normOf_isFmt (v : Bool) (o : ByteOrder) (k : InputKind) : (normOf v o k).isFmt = false := by cases k <;> rfl
@[simp] theorem normOf_operand (v : Bool) (o : ByteOrder) (k : InputKind) (s : State) :
    (normOf v o k).operand s = some (normKind v o k s) := by cases k <;> rfl
@[simp] theorem normOf_radix (v : Bool) (o : ByteOrder) (k : InputKind) : (normOf v o k).radix = none := by cases k <;> rfl
@[simp] theorem normOf_renders (v : Bool) (o : ByteOrder) (k : InputKind) : (normOf v o k).renders = false := by cases k <;> rfl

@[simp] theorem convOf_isFmt (r : Radix) : (convOf r).isFmt = false := by cases r <;> rfl
@[simp] theorem convOf_operand (r : Radix) (s : State) : (convOf r).operand s = none := by cases r <;> rfl
@[simp] theorem convOf_radix (r : Radix) : (convOf r).radix = some r := by cases r <;> rfl
@[simp] theorem convOf_renders (r : Radix) : (convOf r).renders = false := by cases r <;> rfl

@[simp] theorem fmtOf_isFmt (r : Radix) (v : Bool) (o : ByteOrder) (k : InputKind) : (fmtOf r v o k).isFmt = true := by
  cases r <;> rfl
@[simp] theorem fmtOf_operand (r : Radix) (v : Bool) (o : ByteOrder) (k : InputKind) (s : State) :
    (fmtOf r v o k).operand s = some (normKind v o k s) := by cases r <;> rfl
@[simp] theorem fmtOf_radix (r : Radix) (v : Bool) (o : ByteOrder) (k : InputKind) : (fmtOf r v o k).radix = some r := by
  cases r <;> rfl
@[simp] theorem fmtOf_renders (r : Radix) (v : Bool) (o : ByteOrder) (k : InputKind) : (fmtOf r v o k).renders = true := by
  cases r <;> rfl

/-- Radix 10 is that of CONV.DEC and FMT.DEC alone. -/
theorem Instr.eq_of_radix_dec {i : Instr} (h : i.radix = some .dec) :
    i = .convDec ∨ ∃ ordv ord kind, i = .fmtDec ordv ord kind := by
  cases i with
  | convDec => exact .inl rfl
  | fmtDec v o k => exact .inr ⟨v, o, k, rfl⟩
  | _ => cases h

/-! ### The families by the word's OP (`30_encoding.md` R63) -/

theorem opField_cases (w : Byte) : opField w = 0 ∨ opField w = 1 ∨ opField w = 2 ∨ opField w = 3 := by
  generalize opField w = c
  revert c
  decide

theorem isFmt_decodeWord (w : Byte) : (decodeWord w).isFmt = true ↔ opField w = 3 := by
  rcases opField_cases w with h | h | h | h
  · simp [decodeWord_norm h, h]
  · simp [decodeWord_conv h, h]
  · simp [decodeWord_rend h, h, Instr.isFmt]
  · simp [decodeWord_fmt h, h]

theorem renders_decodeWord (w : Byte) : (decodeWord w).renders = true ↔ opField w = 2 ∨ opField w = 3 := by
  rcases opField_cases w with h | h | h | h
  · simp [decodeWord_norm h, h]
  · simp [decodeWord_conv h, h]
  · simp [decodeWord_rend h, h, Instr.renders]
  · simp [decodeWord_fmt h, h]

theorem radix_decodeWord (w : Byte) (q : Radix) :
    (decodeWord w).radix = some q ↔ (opField w = 1 ∨ opField w = 3) ∧ Radix.ofCode (radixField w) = q := by
  rcases opField_cases w with h | h | h | h
  · simp [decodeWord_norm h, h]
  · simp [decodeWord_conv h, h]
  · simp [decodeWord_rend h, h, Instr.radix]
  · simp [decodeWord_fmt h, h]

theorem operand_decodeWord (w : Byte) (s : State) (r : Except Err (List Byte)) :
    (decodeWord w).operand s = some r ↔
      (opField w = 0 ∨ opField w = 3) ∧ normKind (ordvField w) (.ofCode (ordField w)) (.ofCode (kindField w)) s = r := by
  rcases opField_cases w with h | h | h | h
  · simp [decodeWord_norm h, h]
  · simp [decodeWord_conv h, h]
  · simp [decodeWord_rend h, h, Instr.operand]
  · simp [decodeWord_fmt h, h]

theorem Radix.ofCode_eq_dec_iff (c : BitVec 2) : Radix.ofCode c = .dec ↔ c = 0 := by
  revert c
  decide

end Sys2Proof
end

section
/-! PROOF. One engine step of any command, said once (`10_state.md` R23): an idle engine rests, else the phase's action. -/

namespace Sys2Proof.Machine

/-- The CONV phase of a radix: unit DD's entry step in radix 10, else unit RX's one step (`44_composite_fmt.md` R170). -/
def convPhase (fmt : Bool) (s : State) : Radix → State
  | .dec => ddEnter s
  | .hex => radixPhase .hex (hexDigits s.wBytes) fmt s
  | .oct => radixPhase .oct (octDigits s.wBytes) fmt s
  | .bin => radixPhase .bin (binDigits s.wBytes) fmt s

/-- The next state `t` of a step of command `i` from `s`, by the phase. -/
inductive ExecStep (i : Instr) (s : State) : State → Prop
  | idle (hp : s.phase = .idle) : ExecStep i s s
  | norm {r : Except Err (List Byte)} (hp : s.phase = .norm) (hr : i.operand s = some r) : ExecStep i s (normPhase r i.isFmt s)
  | conv {q : Radix} (hp : s.phase = .conv) (hq : i.radix = some q) : ExecStep i s (convPhase i.isFmt s q)
  | dd (hp : s.phase = .dd) (hq : i.radix = some .dec) : ExecStep i s (ddStep i.isFmt s)
  | rend (hp : s.phase = .rend) (hr : i.renders = true) : ExecStep i s (rendPhase s)

/-! ### Each of these is a step -/

theorem exec_norm {i : Instr} {s : State} {r : Except Err (List Byte)} (hp : s.phase = .norm) (hr : i.operand s = some r) :
    exec i s = .next (normPhase r i.isFmt s) := by
  cases i with
  | normB v o k => cases hr; exact exec_normB_norm hp v o k
  | normX => cases hr; exact exec_normX_norm hp
  | normK3 => cases hr; exact exec_normK3_norm hp
  | fmtDec v o k => cases hr; exact exec_fmtOf_norm hp .dec v o k
  | fmtHex v o k => cases hr; exact exec_fmtOf_norm hp .hex v o k
  | fmtOct v o k => cases hr; exact exec_fmtOf_norm hp .oct v o k
  | fmtBin v o k => cases hr; exact exec_fmtOf_norm hp .bin v o k
  | _ => cases hr

theorem exec_conv {i : Instr} {s : State} {q : Radix} (hp : s.phase = .conv) (hq : i.radix = some q) :
    exec i s = .next (convPhase i.isFmt s q) := by
  cases i with
  | convDec => cases hq; exact exec_decimal_conv hp (.inl rfl)
  | convHex => cases hq; exact exec_convHex_conv hp
  | convOct => cases hq; exact exec_convOct_conv hp
  | convBin => cases hq; exact exec_convBin_conv hp
  | fmtDec v o k => cases hq; exact exec_decimal_conv hp (.inr ⟨v, o, k, rfl⟩)
  | fmtHex _ _ _ => cases hq; simp only [exec, execFmtHex, fmtRadixStep, hp, convPhase, Instr.isFmt]
  | fmtOct _ _ _ => cases hq; simp only [exec, execFmtOct, fmtRadixStep, hp, convPhase, Instr.isFmt]
  | fmtBin _ _ _ => cases hq; simp only [exec, execFmtBin, fmtRadixStep, hp, convPhase, Instr.isFmt]
  | _ => cases hq

theorem exec_dd {i : Instr} {s : State} (hp : s.phase = .dd) (hq : i.radix = some .dec) : exec i s = .next (ddStep i.isFmt s) := by
  rcases i.eq_of_radix_dec hq with rfl | ⟨v, o, k, rfl⟩
  · exact exec_convDec_dd hp
  · exact exec_fmtDec_dd hp v o k

theorem exec_rend {i : Instr} {s : State} (hp : s.phase = .rend) (hr : i.renders = true) : exec i s = .next (rendPhase s) := by
  cases i with
  | rend => exact exec_rend_rend hp
  | fmtDec _ _ _ => simp only [exec, execFmtDec, hp]
  | fmtHex _ _ _ => simp only [exec, execFmtHex, fmtRadixStep, hp]
  | fmtOct _ _ _ => simp only [exec, execFmtOct, fmtRadixStep, hp]
  | fmtBin _ _ _ => simp only [exec, execFmtBin, fmtRadixStep, hp]
  | _ => cases hr

/-! ### There is no other -/

theorem ExecStep.of_normStep {i : Instr} {s t : State} {r : Except Err (List Byte)} (hr : i.operand s = some r)
    (hi : i.isFmt = false) (h : normStep r s = .next t) : ExecStep i s t := by
  rcases normStep_next h with ⟨hp, rfl⟩ | ⟨hp, rfl⟩
  · exact .idle hp
  · exact hi ▸ .norm hp hr

theorem ExecStep.of_radixStep {i : Instr} {s t : State} {q : Radix} {ds : List Nibble} (hq : i.radix = some q)
    (hds : radixPhase q ds i.isFmt s = convPhase i.isFmt s q) (hi : i.isFmt = false) (h : radixStep q ds s = .next t) :
    ExecStep i s t := by
  rcases radixStep_next h with ⟨hp, rfl⟩ | ⟨hp, rfl⟩
  · exact .idle hp
  · rw [← hi, hds]
    exact .conv hp hq

theorem ExecStep.of_fmtRadixStep {i : Instr} {s t : State} {q : Radix} {ds : List Nibble} {r : Except Err (List Byte)}
    (hr : i.operand s = some r) (hq : i.radix = some q) (hds : radixPhase q ds i.isFmt s = convPhase i.isFmt s q)
    (hi : i.isFmt = true) (hrend : i.renders = true) (h : fmtRadixStep q ds r s = .next t) : ExecStep i s t := by
  rcases fmtRadixStep_next h with ⟨hp, rfl⟩ | ⟨hp, rfl⟩ | ⟨hp, rfl⟩ | ⟨hp, rfl⟩
  · exact .idle hp
  · exact hi ▸ .norm hp hr
  · rw [← hi, hds]
    exact .conv hp hq
  · exact .rend hp hrend

theorem exec_next {i : Instr} {s t : State} (h : exec i s = .next t) : ExecStep i s t := by
  cases i with
  | normB _ _ _ => exact .of_normStep rfl rfl h
  | normX => exact .of_normStep rfl rfl h
  | normK3 => exact .of_normStep rfl rfl h
  | convDec =>
    rcases execConvDec_next h with ⟨hp, rfl⟩ | ⟨hp, rfl⟩ | ⟨hp, rfl⟩
    · exact .idle hp
    · exact .conv (q := .dec) hp rfl
    · exact .dd hp rfl
  | convHex => exact .of_radixStep rfl rfl rfl h
  | convOct => exact .of_radixStep rfl rfl rfl h
  | convBin => exact .of_radixStep rfl rfl rfl h
  | rend =>
    rcases execRend_next h with ⟨hp, rfl⟩ | ⟨hp, rfl⟩
    · exact .idle hp
    · exact .rend hp rfl
  | fmtDec _ _ _ =>
    rcases execFmtDec_next h with ⟨hp, rfl⟩ | ⟨hp, rfl⟩ | ⟨hp, rfl⟩ | ⟨hp, rfl⟩ | ⟨hp, rfl⟩
    · exact .idle hp
    · exact .norm hp rfl
    · exact .conv (q := .dec) hp rfl
    · exact .dd hp rfl
    · exact .rend hp rfl
  | fmtHex _ _ _ => exact .of_fmtRadixStep rfl rfl rfl rfl rfl h
  | fmtOct _ _ _ => exact .of_fmtRadixStep rfl rfl rfl rfl rfl h
  | fmtBin _ _ _ => exact .of_fmtRadixStep rfl rfl rfl rfl rfl h

theorem exec_eq_next_iff {i : Instr} {s t : State} : exec i s = .next t ↔ ExecStep i s t := by
  refine ⟨exec_next, fun h => ?_⟩
  cases h with
  | idle hp => exact exec_of_idle i hp
  | norm hp hr => exact exec_norm hp hr
  | conv hp hq => exact exec_conv hp hq
  | dd hp hq => exact exec_dd hp hq
  | rend hp hr => exact exec_rend hp hr

/-- A command in a phase it enters takes a step. -/
theorem exec_of_phaseLegal {w : Byte} {s : State} (h : phaseLegal w s.phase = true) : ∃ t, exec (decodeWord w) s = .next t := by
  cases hp : s.phase with
  | idle => exact ⟨_, exec_of_idle _ hp⟩
  | norm =>
    have hop : opField w = 0 ∨ opField w = 3 := by simpa [hp, phaseLegal] using h
    exact ⟨_, exec_norm hp ((operand_decodeWord ..).mpr ⟨hop, rfl⟩)⟩
  | conv =>
    have hop : opField w = 1 ∨ opField w = 3 := by simpa [hp, phaseLegal] using h
    exact ⟨_, exec_conv hp ((radix_decodeWord ..).mpr ⟨hop, rfl⟩)⟩
  | dd =>
    have hop : (opField w = 1 ∨ opField w = 3) ∧ radixField w = 0 := by simpa [hp, phaseLegal] using h
    exact ⟨_, exec_dd hp ((radix_decodeWord ..).mpr (hop.imp_right (Radix.ofCode_eq_dec_iff _).mpr))⟩
  | rend =>
    have hop : opField w = 2 ∨ opField w = 3 := by simpa [hp, phaseLegal] using h
    exact ⟨_, exec_rend hp ((renders_decodeWord w).mpr hop)⟩

/-! ### No command is refused in any phase -/

theorem normStep_ne_refused (r : Except Err (List Byte)) (s : State) (f : Refusal) : normStep r s ≠ .refused f := by
  unfold normStep
  split <;> nofun

theorem radixStep_ne_refused (q : Radix) (ds : List Nibble) (s : State) (f : Refusal) : radixStep q ds s ≠ .refused f := by
  unfold radixStep
  split <;> nofun

theorem fmtRadixStep_ne_refused (q : Radix) (ds : List Nibble) (r : Except Err (List Byte)) (s : State) (f : Refusal) :
    fmtRadixStep q ds r s ≠ .refused f := by
  unfold fmtRadixStep
  split <;> nofun

theorem execConvDec_ne_refused (s : State) (f : Refusal) : execConvDec s ≠ .refused f := by
  unfold execConvDec
  split <;> nofun

theorem execRend_ne_refused (s : State) (f : Refusal) : execRend s ≠ .refused f := by
  unfold execRend
  split <;> nofun

theorem execFmtDec_ne_refused (v : Bool) (o : ByteOrder) (k : InputKind) (s : State) (f : Refusal) :
    execFmtDec v o k s ≠ .refused f := by
  unfold execFmtDec
  split <;> nofun

theorem exec_ne_refused (i : Instr) (s : State) (f : Refusal) : exec i s ≠ .refused f := by
  cases i with
  | normB _ _ _ => exact normStep_ne_refused _ s f
  | normX => exact normStep_ne_refused _ s f
  | normK3 => exact normStep_ne_refused _ s f
  | convDec => exact execConvDec_ne_refused s f
  | convHex => exact radixStep_ne_refused _ _ s f
  | convOct => exact radixStep_ne_refused _ _ s f
  | convBin => exact radixStep_ne_refused _ _ s f
  | rend => exact execRend_ne_refused s f
  | fmtDec _ _ _ => exact execFmtDec_ne_refused _ _ _ s f
  | fmtHex _ _ _ => exact fmtRadixStep_ne_refused _ _ _ s f
  | fmtOct _ _ _ => exact fmtRadixStep_ne_refused _ _ _ s f
  | fmtBin _ _ _ => exact fmtRadixStep_ne_refused _ _ _ s f

end Sys2Proof.Machine
end

section
/-! PROOF. The raw digits of a value in a radix (`41_decimal_double_dabble.md` R111, `42_radix_pow2.md` R131 to R133): so many digits
that hold the value, of which there is one sequence only. -/

namespace Sys2Proof.Machine

/-! ### The last `n` digits of a value -/

/-- The last `n` digits of a value, most significant first. -/
def fixedDigits (r : Nat) : Nat → Nat → List Nibble
  | 0, _ => []
  | n + 1, v => fixedDigits r n (v / r) ++ [BitVec.ofNat 4 (v % r)]

@[simp] theorem fixedDigits_length (r n v : Nat) : (fixedDigits r n v).length = n := by
  induction n generalizing v with
  | zero => rfl
  | succ n ih => rw [fixedDigits, List.length_append, ih, List.length_singleton]

theorem toNat_digit {r : Nat} (h0 : 0 < r) (h16 : r ≤ 16) (v : Nat) : (BitVec.ofNat 4 (v % r)).toNat = v % r :=
  Nat.mod_eq_of_lt ((Nat.mod_lt v h0).trans_le h16)

theorem fixedDigits_lt {r : Nat} (h0 : 0 < r) (h16 : r ≤ 16) {n v : Nat} {d : Nibble} (h : d ∈ fixedDigits r n v) : d.toNat < r := by
  induction n generalizing v with
  | zero => cases h
  | succ n ih =>
    rcases List.mem_append.mp h with h | h
    · exact ih h
    · rw [List.mem_singleton.mp h, toNat_digit h0 h16]
      exact Nat.mod_lt v h0

theorem valMS_fixedDigits {r : Nat} (h0 : 0 < r) (h16 : r ≤ 16) (n v : Nat) : valMS r (fixedDigits r n v) = v % r ^ n := by
  induction n generalizing v with
  | zero => simp [fixedDigits, Nat.mod_one]
  | succ n ih =>
    rw [fixedDigits, valMS_append, ih, valMS_cons, toNat_digit h0 h16, pow_succ', Nat.mod_mul]
    simp only [List.length_singleton, List.length_nil, pow_one, pow_zero, mul_one, valMS_nil, add_zero]
    ring

/-- A value has one digit sequence of a given length. -/
theorem eq_of_valMS_eq {r : Nat} {as bs : List Nibble} (ha : ∀ d ∈ as, d.toNat < r) (hb : ∀ d ∈ bs, d.toNat < r)
    (hlen : as.length = bs.length) (hv : valMS r as = valMS r bs) : as = bs := by
  refine List.ext_getElem hlen fun p hp hq => BitVec.eq_of_toNat_eq ?_
  rw [digit_eq_valMS_div ha (List.getElem?_eq_getElem hp), digit_eq_valMS_div hb (List.getElem?_eq_getElem hq), hv, hlen]

/-! ### The raw digits of W -/

theorem radixBase_bounds (q : Radix) : 0 < q.base ∧ q.base ≤ 16 := by
  cases q <;> decide

/-- The raw digit count of a radix for `len` bytes (`41_decimal_double_dabble.md` R102, `42_radix_pow2.md` R131 to R133). -/
def digitCount : Radix → Nat → Nat
  | .dec, len => cap len
  | .hex, len => 2 * len
  | .oct, len => octCount (8 * len)
  | .bin, len => 8 * len

theorem two_le_digitCount (q : Radix) {len : Nat} (h : 0 < len) : 2 ≤ digitCount q len := by
  cases q <;> simp only [digitCount, cap, octCount] <;> omega

theorem digitCount_le (q : Radix) {len lmax : Nat} (h : 0 < len) (hl : len ≤ lmax) : digitCount q len ≤ digMax lmax := by
  cases q <;> simp only [digitCount, cap, octCount, digMax] <;> omega

/-- The raw digit count is enough for every value of `len` bytes. -/
theorem valLE_lt_digitCount (q : Radix) (w : List Byte) : valLE w < q.base ^ digitCount q w.length := by
  refine (valLE_lt_two_pow w).trans_le ?_
  cases q with
  | dec => exact (two_pow_lt_ten_pow_cap w.length).le.trans (Nat.pow_le_pow_right (by norm_num [Radix.base]) (Nat.sub_le ..))
  | hex =>
    refine (congrArg (2 ^ ·) ?_).trans (pow_mul 2 4 _) |>.le
    rw [digitCount]
    ring
  | oct =>
    refine (Nat.pow_le_pow_right two_pos ?_).trans (pow_mul 2 3 _).le
    rw [digitCount, octCount]
    omega
  | bin => exact le_rfl

/-- The raw digits of a radix, leading zeros included. -/
def rawDigits (q : Radix) (w : List Byte) : List Nibble := fixedDigits q.base (digitCount q w.length) (valLE w)

@[simp] theorem rawDigits_length (q : Radix) (w : List Byte) : (rawDigits q w).length = digitCount q w.length :=
  fixedDigits_length ..

theorem rawDigits_lt {q : Radix} {w : List Byte} : ∀ d ∈ rawDigits q w, d.toNat < q.base := fun _ =>
  fixedDigits_lt (radixBase_bounds q).1 (radixBase_bounds q).2

theorem valMS_rawDigits (q : Radix) (w : List Byte) : valMS q.base (rawDigits q w) = valLE w := by
  rw [rawDigits, valMS_fixedDigits (radixBase_bounds q).1 (radixBase_bounds q).2, Nat.mod_eq_of_lt (valLE_lt_digitCount q w)]

/-- Digits of the radix, in the raw count, that hold W's value are the raw digits. -/
theorem eq_rawDigits {q : Radix} {w : List Byte} {ds : List Nibble} (hlt : ∀ d ∈ ds, d.toNat < q.base)
    (hlen : ds.length = digitCount q w.length) (hv : valMS q.base ds = valLE w) : ds = rawDigits q w :=
  eq_of_valMS_eq hlt rawDigits_lt (hlen.trans (rawDigits_length q w).symm) (hv.trans (valMS_rawDigits q w).symm)

theorem hexDigits_eq_rawDigits (w : List Byte) : hexDigits w = rawDigits .hex w :=
  eq_rawDigits (fun d _ => d.isLt) (hexDigits_length w) (valMS_hexDigits w)

theorem octDigits_eq_rawDigits (w : List Byte) : octDigits w = rawDigits .oct w :=
  eq_rawDigits (fun _ => octDigits_lt) (octDigits_length w) (valMS_octDigits w)

theorem binDigits_eq_rawDigits (w : List Byte) : binDigits w = rawDigits .bin w :=
  eq_rawDigits (fun _ => binDigits_lt) (binDigits_length w) (valMS_binDigits w)

end Sys2Proof.Machine
end

section
/-! PROOF. What an engine step leaves unchanged, by its phase (`10_state.md` R14, `40_normalizer.md` R93(a)). -/

namespace Sys2Proof.Machine

theorem SameOutside.refl (s : State) : SameOutside s s := ⟨rfl, rfl, rfl, rfl, fun _ => rfl, rfl, rfl⟩

/-! ### The CONV phase whatever the radix -/

theorem convPhase_of_pow2 {q : Radix} (hq : q ≠ .dec) (fmt : Bool) (s : State) :
    convPhase fmt s q = radixPhase q (rawDigits q s.wBytes) fmt s := by
  cases q with
  | dec => exact absurd rfl hq
  | hex => rw [convPhase, hexDigits_eq_rawDigits]
  | oct => rw [convPhase, octDigits_eq_rawDigits]
  | bin => rw [convPhase, binDigits_eq_rawDigits]

theorem convPhase_of_empty {s : State} (h : s.wLen = 0) (fmt : Bool) (q : Radix) :
    convPhase fmt s q = raiseError .emptyInput (beginConv s) := by
  by_cases hq : q = .dec
  · exact hq ▸ ddEnter_of_empty h
  · rw [convPhase_of_pow2 hq, radixPhase_of_empty h]

/-- The CONV phase with an operand: the decimal loop is entered, or the digits are loaded. -/
theorem convPhase_of_operand {s : State} (h : s.wLen ≠ 0) (fmt : Bool) (q : Radix) :
    (q = .dec ∧ convPhase fmt s q = enterLoop s) ∨
    (q ≠ .dec ∧ convPhase fmt s q = proceed fmt .rend (loadDigits q (rawDigits q s.wBytes) (beginConv s))) := by
  by_cases hq : q = .dec
  · exact .inl ⟨hq, hq ▸ ddEnter_of_operand h⟩
  · exact .inr ⟨hq, by rw [convPhase_of_pow2 hq, radixPhase_of_operand h]⟩

theorem convPhase_sameOutside (fmt : Bool) (s : State) (q : Radix) : SameOutside s (convPhase fmt s q) := by
  by_cases hq : q = .dec
  · obtain ⟨_, _, hout, _⟩ := ddEnter_frame s
    exact hq ▸ hout
  · obtain ⟨_, hout, _⟩ := radixPhase_frame q (rawDigits q s.wBytes) fmt s
    exact convPhase_of_pow2 hq fmt s ▸ hout

theorem convPhase_wLen (fmt : Bool) (s : State) (q : Radix) : (convPhase fmt s q).wLen = s.wLen := by
  by_cases hq : q = .dec
  · obtain ⟨_, _, _, hw, _⟩ := ddEnter_frame s
    exact hq ▸ hw
  · obtain ⟨_, _, hw, _⟩ := radixPhase_frame q (rawDigits q s.wBytes) fmt s
    exact convPhase_of_pow2 hq fmt s ▸ hw

theorem convPhase_sameW {s : State} (h : s.wLen ≠ 0) (fmt : Bool) (q : Radix) : SameW s (convPhase fmt s q) := by
  rcases convPhase_of_operand h fmt q with ⟨_, he⟩ | ⟨_, he⟩
  · exact he ▸ ⟨rfl, rfl⟩
  · cases fmt <;> exact he ▸ ⟨rfl, rfl⟩

theorem convPhase_sameHidden {q : Radix} (hq : q ≠ .dec) (fmt : Bool) (s : State) : SameHidden s (convPhase fmt s q) := by
  obtain ⟨_, _, _, hhidden⟩ := radixPhase_frame q (rawDigits q s.wBytes) fmt s
  exact convPhase_of_pow2 hq fmt s ▸ hhidden

/-! ### The decimal loop -/

theorem ddStep_of_more {s : State} (h : s.it < 8 * s.wLen) (fmt : Bool) : ddStep fmt s = ddIterate s := if_pos h

theorem ddStep_frame (fmt : Bool) (s : State) : SameOutside s (ddStep fmt s) ∧ SameW s (ddStep fmt s) := by
  by_cases h : s.it < 8 * s.wLen
  · rw [ddStep_of_more h]
    exact ⟨⟨rfl, rfl, rfl, rfl, fun _ => rfl, rfl, rfl⟩, rfl, rfl⟩
  · rw [ddStep_of_last (not_lt.mp h)]
    exact ⟨(ddCommit_committed fmt s).outside, (ddCommit_committed fmt s).w⟩

theorem exec_decimal_iterate {i : Instr} {s : State} (hp : s.phase = .dd) (hq : i.radix = some .dec) (h : s.it < 8 * s.wLen) :
    exec i s = .next (ddIterate s) := by
  rw [exec_dd hp hq, ddStep_of_more h]

/-- Settles O29. -/
theorem decimalIterationStep : Obligations.DecimalIterationStep := by
  intro i s hp h hi
  have hq : i.radix = some .dec := by
    rcases hi with rfl | ⟨ordv, ord, kind, rfl⟩ <;> rfl
  exact ⟨ddIterate s, exec_decimal_iterate hp hq h, rfl, rfl, rfl, rfl, rfl,
    ⟨rfl, rfl, rfl, rfl, fun _ => rfl, rfl, rfl⟩, ⟨rfl, rfl⟩, ⟨rfl, rfl, rfl⟩, ⟨rfl, rfl⟩⟩

/-! ### Every step -/

theorem ExecStep.sameOutside {i : Instr} {s t : State} (h : ExecStep i s t) : SameOutside s t := by
  cases h with
  | idle _ => exact SameOutside.refl s
  | norm _ _ => exact normPhase_sameOutside ..
  | conv _ _ => exact convPhase_sameOutside ..
  | dd _ _ => exact (ddStep_frame _ s).1
  | rend _ _ => exact (rendPhase_frame s).1

theorem ExecStep.wLen_eq {i : Instr} {s t : State} (h : ExecStep i s t) (hn : s.phase ≠ .norm) : t.wLen = s.wLen := by
  cases h with
  | idle _ => rfl
  | norm hp _ => exact absurd hp hn
  | conv _ _ => exact convPhase_wLen ..
  | dd _ _ => exact (ddStep_frame _ s).2.wLen
  | rend _ _ =>
    obtain ⟨_, hw, _⟩ := rendPhase_frame s
    exact hw

theorem ExecStep.sameW {i : Instr} {s t : State} (h : ExecStep i s t)
    (hs : s.phase = .idle ∨ s.phase = .dd ∨ (s.phase = .conv ∧ s.wLen ≠ 0) ∨ (s.phase = .rend ∧ s.digLen ≠ 0)) : SameW s t := by
  cases h with
  | idle _ => exact ⟨rfl, rfl⟩
  | norm hp _ => simp [hp] at hs
  | conv hp _ =>
    have hw : s.wLen ≠ 0 := by simpa [hp] using hs
    exact convPhase_sameW hw ..
  | dd _ _ => exact (ddStep_frame _ s).2
  | rend hp _ =>
    have hd : s.digLen ≠ 0 := by simpa [hp] using hs
    exact (rendPhase_result hd).w

theorem ExecStep.sameDig {i : Instr} {s t : State} (h : ExecStep i s t) (hs : s.phase = .rend ∨ s.phase = .idle) : SameDig s t := by
  cases h with
  | idle _ => exact ⟨rfl, rfl, rfl⟩
  | norm hp _ => simp [hp] at hs
  | conv hp _ => simp [hp] at hs
  | dd hp _ => simp [hp] at hs
  | rend _ _ =>
    obtain ⟨_, _, hdig, _⟩ := rendPhase_frame s
    exact hdig

/-- Unit DD's registers are touched in P_CONV and P_DD of a decimal command only. -/
theorem ExecStep.sameHidden {i : Instr} {s t : State} (h : ExecStep i s t)
    (hs : (s.phase ≠ .conv ∧ s.phase ≠ .dd) ∨ i.radix ≠ some .dec) : SameHidden s t := by
  cases h with
  | idle _ => exact ⟨rfl, rfl, rfl, rfl⟩
  | norm _ _ => exact normPhase_sameHidden ..
  | @conv q hp hq =>
    have hne : q ≠ .dec := by
      rintro rfl
      simp [hp, hq] at hs
    exact convPhase_sameHidden hne ..
  | dd hp hq => simp [hp, hq] at hs
  | rend _ _ =>
    obtain ⟨_, _, _, hhidden⟩ := rendPhase_frame s
    exact hhidden

/-- Settles O51, one frame at a time. -/
theorem commandsLeaveOperandsAlone : Obligations.CommandsLeaveOperandsAlone := by
  intro i s t h
  have hs := exec_next h
  refine ⟨hs.sameOutside, hs.wLen_eq, hs.sameW, hs.sameDig, fun hp => hs.sameHidden (.inl hp), fun hconv hfmt => hs.sameHidden (.inr ?_)⟩
  intro hq
  rcases i.eq_of_radix_dec hq with hi | ⟨ordv, ord, kind, hi⟩
  · exact hconv hi
  · exact hfmt ordv ord kind hi

end Sys2Proof.Machine
end

section
/-! PROOF. The errors a step can raise (`60_exceptions.md` R180 to R186). -/

namespace Sys2Proof.Machine

/-- A step that raises: the error entry after the clearing of the phase, and why (`60_exceptions.md` R181 to R184). -/
inductive Raises (i : Instr) (s : State) : Err → State → Prop
  | norm {e : Err} (hp : s.phase = .norm) (hr : i.operand s = some (.error e)) : Raises i s e (raiseError e (beginNorm s))
  | conv (hp : s.phase = .conv) (hw : s.wLen = 0) : Raises i s .emptyInput (raiseError .emptyInput (beginConv s))
  | rend (hp : s.phase = .rend) (hd : s.digLen = 0) : Raises i s .emptyInput (raiseError .emptyInput (beginRend s))

theorem proceed_err (fmt : Bool) (p : Phase) (s : State) : (proceed fmt p s).status.err = s.status.err := by
  cases fmt <;> rfl

theorem convPhase_err {s : State} (h : s.wLen ≠ 0) (fmt : Bool) (q : Radix) :
    (convPhase fmt s q).status.err = s.status.err := by
  rcases convPhase_of_operand h fmt q with ⟨_, he⟩ | ⟨_, he⟩
  · exact he ▸ rfl
  · exact he ▸ proceed_err ..

theorem ddStep_err (fmt : Bool) (s : State) : (ddStep fmt s).status.err = s.status.err := by
  by_cases h : s.it < 8 * s.wLen
  · exact ddStep_of_more h fmt ▸ rfl
  · exact ddStep_of_last (not_lt.mp h) fmt ▸ proceed_err ..

/-- An error code appears in one of three ways only. -/
theorem ExecStep.raises {i : Instr} {s t : State} {e : Err} (h : ExecStep i s t) (hs : s.status.err = none)
    (ht : t.status.err = some e) : Raises i s e t := by
  cases h with
  | idle _ => simp [hs] at ht
  | @norm r hp hr =>
    cases r with
    | error e' =>
      cases ht
      exact .norm hp hr
    | ok bs => simp [hs] at ht
  | conv hp _ =>
    by_cases hw : s.wLen = 0
    · rw [convPhase_of_empty hw] at ht ⊢
      cases ht
      exact .conv hp hw
    · simp [convPhase_err hw, hs] at ht
  | dd _ _ => simp [ddStep_err, hs] at ht
  | rend hp _ =>
    by_cases hd : s.digLen = 0
    · rw [rendPhase_of_empty hd] at ht ⊢
      cases ht
      exact .rend hp hd
    · simp [(rendPhase_result hd).finished.2, hs] at ht

theorem elemDatum_of_le {k : Nat} (buf : List (BitVec k)) {len j : Nat} (h : len ≤ j) : elemDatum buf len j = .unspecified k :=
  if_neg (not_lt.mpr h)

/-- Settles O47, one raising phase at a time. -/
theorem errorEntry : Obligations.ErrorEntry := by
  intro i s t e hs h ht
  have hstep := exec_next h
  have hout := hstep.sameOutside
  cases hstep.raises hs ht with
  | norm hp _ =>
    rw [hp]
    exact ⟨raiseError_endedWith .., hout, ⟨rfl, rfl, rfl, rfl⟩, rfl, fun _ => ⟨rfl, rfl, rfl⟩, nofun, nofun,
      fun j => ⟨elemDatum_of_le _, elemDatum_of_le _ (Nat.zero_le j), elemDatum_of_le _ (Nat.zero_le j)⟩⟩
  | conv hp hw =>
    rw [hp]
    exact ⟨raiseError_endedWith .., hout, ⟨rfl, rfl, rfl, rfl⟩, rfl, nofun, fun _ => ⟨hw, hw, rfl, rfl⟩, nofun,
      fun j => ⟨elemDatum_of_le _, elemDatum_of_le _ (Nat.zero_le j), elemDatum_of_le _ (Nat.zero_le j)⟩⟩
  | rend hp hd =>
    have hdig : (raiseError .emptyInput (beginRend s)).digLen = 0 := hd
    rw [hp, hdig]
    exact ⟨raiseError_endedWith .., hout, ⟨rfl, rfl, rfl, rfl⟩, rfl, nofun, nofun,
      fun _ => ⟨rfl, rfl, hd, rfl, Nat.lt_succ_self _, fun _ hj => elems_nil_getElem? _ hj⟩,
      fun j => ⟨elemDatum_of_le _, elemDatum_of_le _ (Nat.zero_le j), elemDatum_of_le _ (Nat.zero_le j)⟩⟩

/-! ### The errors of a NORM phase -/

theorem normBytes_capacity {o : ByteOrder} {s : State} (h : normBytes o s = .error .capacity) : s.lmaxr < s.inLen := by
  rcases normBytes_cases o s with ⟨_, hr⟩ | ⟨_, hlt, _⟩ | ⟨_, _, hr⟩
  · cases h.symm.trans hr
  · exact hlt
  · cases h.symm.trans hr

theorem normBytes_ne_invalid (o : ByteOrder) (s : State) : normBytes o s ≠ .error .invalidInputKind := by
  intro h
  rcases normBytes_cases o s with ⟨_, hr⟩ | ⟨_, _, hr⟩ | ⟨_, _, hr⟩ <;> cases h.symm.trans hr

theorem hexBody_length (s : State) : s.hexBody.length = s.inLen - prefixLen (s.inBytes s.inLen) := by
  simp [State.hexBody]

theorem normHex_capacity {s : State} (h : normHex s = .error .capacity) : s.lmaxr < s.inLen := by
  rcases normHex_cases s with ⟨hlong, _⟩ | ⟨_, _, ⟨_, hr⟩ | ⟨_, hr⟩ | ⟨_, _, _, hr⟩⟩
  · rw [inMax, hexBody_length] at hlong
    omega
  · cases h.symm.trans hr
  · cases h.symm.trans hr
  · cases h.symm.trans hr

theorem normKind_capacity {v : Bool} {o : ByteOrder} {k : InputKind} {s : State} (h : normKind v o k s = .error .capacity) :
    s.lmaxr < s.inLen := by
  cases k with
  | buffer => exact normBytes_capacity h
  | array => exact normBytes_capacity h
  | hexstr => exact normHex_capacity h
  | other => cases h

theorem operand_capacity {i : Instr} {s : State} (h : i.operand s = some (.error .capacity)) : s.lmaxr < s.inLen := by
  cases i with
  | normB _ _ _ => exact normBytes_capacity (Option.some.inj h)
  | normX => exact normHex_capacity (Option.some.inj h)
  | fmtDec _ _ _ => exact normKind_capacity (Option.some.inj h)
  | fmtHex _ _ _ => exact normKind_capacity (Option.some.inj h)
  | fmtOct _ _ _ => exact normKind_capacity (Option.some.inj h)
  | fmtBin _ _ _ => exact normKind_capacity (Option.some.inj h)
  | _ => cases h

/-- Settles O48, one raising phase at a time. -/
theorem errorsByPhase : Obligations.ErrorsByPhase := by
  intro i s t e hs h ht
  cases (exec_next h).raises hs ht with
  | norm hp hr =>
    rw [hp]
    refine ⟨.inl rfl, fun he => ⟨rfl, operand_capacity (he ▸ hr)⟩, nofun, nofun, nofun, nofun, ?_⟩
    rintro ordv ord kind rfl rfl
    exact normBytes_ne_invalid _ _ (Option.some.inj hr)
  | conv hp hw =>
    rw [hp]
    exact ⟨.inr rfl, nofun, fun _ => hw, nofun, nofun, nofun, fun _ _ _ _ => nofun⟩
  | rend hp hd =>
    rw [hp]
    exact ⟨.inr rfl, nofun, nofun, fun _ => hd, nofun, nofun, fun _ _ _ _ => nofun⟩

/-! ### Priority (R186) -/

theorem normKind_of_code_three {k : InputKind} (h : k.code = 3) (v : Bool) (o : ByteOrder) (s : State) :
    normKind v o k s = .error .invalidInputKind := by
  cases k with
  | other => rfl
  | _ => simp [InputKind.code] at h

theorem normKind_of_code_two {k : InputKind} (h : k.code = 2) (v : Bool) (o : ByteOrder) (s : State) :
    normKind v o k s = normHex s := by
  cases k with
  | hexstr => rfl
  | _ => simp [InputKind.code] at h

/-- A NORM phase that fails ends NORM and FMT alike. -/
theorem normPhase_error_ends {s : State} {v : Bool} {o : ByteOrder} {k : InputKind} {e : Err} (hp : s.phase = .norm)
    (he : normKind v o k s = .error e) (r : Radix) :
    (∃ t, exec (normOf v o k) s = .next t ∧ EndedWith e t) ∧ (∃ t, exec (fmtOf r v o k) s = .next t ∧ EndedWith e t) :=
  ⟨⟨_, exec_norm hp (normOf_operand v o k s), (normPhase_fails he ..).1⟩,
    ⟨_, exec_norm hp (fmtOf_operand r v o k s), (normPhase_fails he ..).1⟩⟩

/-- Settles O49: the two results that come first in R186's order. -/
theorem errorPriority : Obligations.ErrorPriority := by
  refine fun r v o k s hp => ⟨fun hk => ?kind, fun hk hlong => ?capacity⟩
  case kind => exact normPhase_error_ends hp (normKind_of_code_three hk ..) r
  case capacity =>
    rw [← hexBody_length] at hlong
    exact normPhase_error_ends hp ((normKind_of_code_two hk ..).trans (normHex_of_too_long hlong)) r

end Sys2Proof.Machine
end

section
/-! PROOF. The loop of unit DD (`41_decimal_double_dabble.md` R108 to R110): what ACC, S and C hold after each iteration. -/

namespace Sys2Proof.Machine

/-- ACC holds the top `IT` bits of the value `v` as decimal digits, and S the rest (R108, R109). -/
structure Dabble (v : Nat) (s : State) : Prop where
  s_held : s.sBuf.length = s.wLen
  acc_held : s.accBuf.length = cap s.wLen
  acc_digits : ∀ d ∈ s.accBuf, d.toNat ≤ 9
  acc_value : valMS 10 s.accBuf = v / 2 ^ (8 * s.wLen - s.it)
  s_value : valLE s.sBuf = v * 2 ^ s.it % 2 ^ (8 * s.wLen)

theorem wBytes_lt (s : State) : valLE s.wBytes < 2 ^ (8 * s.wLen) := by
  simpa using valLE_lt_two_pow s.wBytes

/-- The entry step: no bit is in ACC yet. -/
theorem enterLoop_dabble (s : State) : Dabble (valLE s.wBytes) (enterLoop s) where
  s_held := wBytes_length s
  acc_held := List.length_replicate
  acc_digits := fun d hd => by simp [List.eq_of_mem_replicate hd]
  acc_value := (valMS_replicate_zero ..).trans (Nat.div_eq_of_lt (wBytes_lt s)).symm
  s_value := by
    show valLE s.wBytes = valLE s.wBytes * 2 ^ 0 % 2 ^ (8 * s.wLen)
    rw [pow_zero, mul_one, Nat.mod_eq_of_lt (wBytes_lt s)]

/-- The bit that leaves S is the next bit of the value, which doubling ACC takes in. -/
theorem top_bits_succ (v : Nat) {n k : Nat} (hk : k < n) :
    2 * (v / 2 ^ (n - k)) + v * 2 ^ k % 2 ^ n / 2 ^ (n - 1) = v / 2 ^ (n - (k + 1)) := by
  obtain ⟨m, rfl⟩ : ∃ m, n = m + 1 + k := ⟨n - k - 1, by omega⟩
  rw [show m + 1 + k - k = m + 1 by omega, show m + 1 + k - 1 = m + k by omega, show m + 1 + k - (k + 1) = m by omega,
    pow_add 2 (m + 1) k, pow_add 2 m k, Nat.mul_mod_mul_right, Nat.mul_div_mul_right _ _ (by positivity), pow_succ,
    Nat.mod_mul_right_div_self, ← Nat.div_div_eq_div_mul]
  omega

theorem shifted_rest (v k n : Nat) : 2 * (v * 2 ^ k % 2 ^ n) % 2 ^ n = v * 2 ^ (k + 1) % 2 ^ n := by
  rw [Nat.mul_mod_mod, pow_succ]
  congr 1
  ring

/-- One iteration keeps R108's equations, and nothing is carried out of ACC (R110). -/
theorem Dabble.iterate {v : Nat} {s : State} (h : Dabble v s) (hv : v < 2 ^ (8 * s.wLen)) (hit : s.it < 8 * s.wLen) :
    Dabble v (ddIterate s) ∧ (ddIterate s).carry = false := by
  have hs : s.sBytes = s.sBuf := elems_eq_self h.s_held _
  have hacc : s.accSlots = s.accBuf := elems_eq_self h.acc_held _
  have hne : s.sBuf ≠ [] := by
    rw [← List.length_pos_iff, h.s_held]
    omega
  have hsum := valMS_doubleSlots h.acc_digits (topBit s.sBuf)
  rw [topBit_toNat hne, h.s_held, h.acc_value, h.s_value, top_bits_succ v hit, h.acc_held] at hsum
  have hsmall : v / 2 ^ (8 * s.wLen - (s.it + 1)) < 10 ^ cap s.wLen :=
    ((Nat.div_le_self ..).trans_lt hv).trans
      ((two_pow_lt_ten_pow_cap s.wLen).trans_le (Nat.pow_le_pow_right (by norm_num) (Nat.sub_le ..)))
  have hcarry : (doubleSlots s.accBuf (topBit s.sBuf)).2 = false := by
    cases hc : (doubleSlots s.accBuf (topBit s.sBuf)).2 with
    | false => rfl
    | true =>
      rw [hc, Bool.toNat_true] at hsum
      omega
  rw [hcarry, Bool.toNat_false, zero_mul, add_zero] at hsum
  simp only [ddIterate, hs, hacc]
  refine ⟨⟨(shiftLeft1_length _).trans h.s_held, (doubleSlots_length ..).trans h.acc_held, doubleSlots_decimal h.acc_digits _,
    hsum, ?_⟩, hcarry⟩
  rw [valLE_shiftLeft1, h.s_held, h.s_value, shifted_rest]

end Sys2Proof.Machine
end

section
/-! PROOF. The invariant under the engine's operations, one lemma for each: the clearings, the error entry, the end of a command, the
results of the stages, the loop of unit DD. -/

namespace Sys2Proof.Machine

/-! ### The clearings (`40_normalizer.md` R80, `42_radix_pow2.md` R130, `43_renderer.md` R150) -/

theorem State.Inv.beginNorm {s : State} (h : s.Inv) (hp : s.phase = .norm) : (beginNorm s).Inv :=
  { h with
    w_held := rfl
    w_fits := Nat.zero_le _
    dig_held := rfl
    dig_fits := Nat.zero_le _
    dig_digits := nofun
    dig_fresh := fun hd => absurd rfl hd
    txt_held := rfl
    txt_fits := Nat.zero_le _
    txt_fresh := fun ht => absurd rfl ht
    fmt_conv := fun hc => absurd (hp.symm.trans hc) (by decide)
    fmt_rend := fun hr => absurd (hp.symm.trans hr) (by decide)
    loop := fun hd => absurd (hp.symm.trans hd) (by decide) }

theorem State.Inv.beginConv {s : State} (h : s.Inv) (hp : s.phase = .conv) : (beginConv s).Inv :=
  { h with
    dig_held := rfl
    dig_fits := Nat.zero_le _
    dig_digits := nofun
    dig_fresh := fun hd => absurd rfl hd
    txt_held := rfl
    txt_fits := Nat.zero_le _
    txt_fresh := fun ht => absurd rfl ht
    fmt_rend := fun hr => absurd (hp.symm.trans hr) (by decide)
    loop := fun hd => absurd (hp.symm.trans hd) (by decide) }

theorem State.Inv.beginRend {s : State} (h : s.Inv) (hp : s.phase = .rend) : (beginRend s).Inv :=
  { h with
    txt_held := rfl
    txt_fits := Nat.zero_le _
    txt_fresh := fun ht => absurd rfl ht
    loop := fun hd => absurd (hp.symm.trans hd) (by decide) }

/-! ### The end of a command (`10_state.md` R23, `60_exceptions.md` R184) -/

theorem State.Inv.finish {s : State} (h : s.Inv) : (finish s).Inv :=
  { h with
    busy_phase := by simp
    not_both := by simp
    err_done := fun _ => rfl
    phase_legal := rfl
    fmt_conv := nofun
    fmt_rend := nofun
    loop := nofun }

/-- The error entry draws W anew, so no DigitSequence may be left that claims to be W's. -/
theorem State.Inv.raiseError {s : State} (h : s.Inv) (hd : s.digLen = 0) (e : Err) : (raiseError e s).Inv :=
  { h with
    w_held := elems_length ..
    dig_fresh := fun hne => absurd hd hne
    busy_phase := by simp
    not_both := by simp
    err_done := fun _ => rfl
    phase_legal := rfl
    fmt_conv := nofun
    fmt_rend := nofun
    loop := nofun }

/-- `next(p)`: an FMT command goes on with the operand of phase `p` there, any other command finishes. -/
theorem State.Inv.proceed {s : State} (h : s.Inv) (hbusy : s.phase ≠ .idle) {fmt : Bool} (hfmt : fmt = true → opField s.cmd = 3)
    {p : Phase} (hp : (p = .conv ∧ 0 < s.wLen) ∨ (p = .rend ∧ 2 ≤ s.digLen)) : (proceed fmt p s).Inv := by
  cases fmt with
  | false => exact h.finish
  | true =>
    have hop := hfmt rfl
    have hb : s.status.busy = true := h.busy_phase.mpr hbusy
    rcases hp with ⟨rfl, hw⟩ | ⟨rfl, hd⟩
    · exact { h with
        busy_phase := by simp [hb]
        phase_legal := by simp [phaseLegal, hop]
        fmt_conv := fun _ _ => hw
        fmt_rend := nofun
        loop := nofun }
    · exact { h with
        busy_phase := by simp [hb]
        phase_legal := by simp [phaseLegal, hop]
        fmt_conv := nofun
        fmt_rend := fun _ _ => hd
        loop := nofun }

/-! ### The results of the stages -/

theorem State.Inv.loadW {s : State} (h : s.Inv) (hp : s.phase = .norm) (hd : s.digLen = 0) {bs : List Byte}
    (hfit : bs.length ≤ s.lmaxr) : (loadW bs s).Inv :=
  { h with
    w_held := rfl
    w_fits := hfit
    dig_fresh := fun hne => absurd hd hne
    fmt_conv := fun hc => absurd (hp.symm.trans hc) (by decide)
    loop := fun hc => absurd (hp.symm.trans hc) (by decide) }

theorem State.Inv.loadDigits {s : State} (h : s.Inv) (hp : s.phase = .conv) (ht : s.txtLen = 0) (hw : 0 < s.wLen) {q : Radix}
    {ds : List Nibble} (hds : ds = rawDigits q s.wBuf) : (loadDigits q ds s).Inv := by
  subst hds
  have hlen : (rawDigits q s.wBuf).length = digitCount q s.wLen := by rw [rawDigits_length, h.w_held]
  exact { h with
    dig_held := rfl
    dig_fits := hlen.trans_le (digitCount_le q hw h.w_fits)
    dig_digits := rawDigits_lt
    dig_fresh := fun _ => ⟨hw, valMS_rawDigits q s.wBuf⟩
    txt_fresh := fun hne => absurd ht hne
    fmt_rend := fun hr => absurd (hp.symm.trans hr) (by decide)
    loop := fun hc => absurd (hp.symm.trans hc) (by decide) }

theorem State.Inv.loadText {s : State} (h : s.Inv) (hp : s.phase = .rend) (hd : s.digLen ≠ 0) :
    (loadText (renderText s.cfg.bfw s.digRadix s.digBuf) s).Inv :=
  { h with
    txt_held := rfl
    txt_fits := by
      show (renderText s.cfg.bfw s.digRadix s.digBuf).length ≤ digMax s.lmaxr
      rw [renderText_length, h.dig_held]
      exact (Nat.sub_le ..).trans h.dig_fits
    txt_fresh := fun _ => ⟨hd, rfl⟩
    loop := fun hc => absurd (hp.symm.trans hc) (by decide) }

/-! ### The loop of unit DD -/

theorem State.Inv.wBytes_eq {s : State} (h : s.Inv) : s.wBytes = s.wBuf := elems_eq_self h.w_held _

theorem State.Inv.digits_eq {s : State} (h : s.Inv) : s.digits = s.digBuf := elems_eq_self h.dig_held _

theorem cap_mono {a b : Nat} (h : a ≤ b) : cap a ≤ cap b := by
  rw [cap, cap]
  omega

/-- Inside the loop the invariant says R108's equations for the value of W. -/
theorem State.Inv.dabble {s : State} (h : s.Inv) (hp : s.phase = .dd) : Dabble (valLE s.wBuf) s :=
  have hl := h.loop hp
  ⟨hl.s_held, hl.acc_held, h.acc_digits, hl.acc_value, hl.s_value⟩

theorem State.Inv.enterLoop {s : State} (h : s.Inv) (hp : s.phase = .conv) (hw : s.wLen ≠ 0) (hlegal : phaseLegal s.cmd .dd = true) :
    (enterLoop s).Inv := by
  have hd := enterLoop_dabble s
  rw [h.wBytes_eq] at hd
  exact { h.beginConv hp with
    s_fits := hd.s_held.trans_le h.w_fits
    acc_fits := hd.acc_held.trans_le (cap_mono h.w_fits)
    acc_digits := hd.acc_digits
    it_fits := Nat.zero_le _
    busy_phase := by simp [Machine.enterLoop, h.busy_phase, hp]
    phase_legal := hlegal
    fmt_conv := nofun
    fmt_rend := nofun
    loop := fun _ => ⟨Nat.pos_of_ne_zero hw, rfl, Nat.zero_le _, hd.s_held, hd.acc_held, hd.acc_value, hd.s_value⟩ }

theorem State.Inv.ddIterate {s : State} (h : s.Inv) (hp : s.phase = .dd) (hit : s.it < 8 * s.wLen) : (ddIterate s).Inv := by
  have hl := h.loop hp
  obtain ⟨hd, hcarry⟩ := (h.dabble hp).iterate (h.w_held ▸ valLE_lt_two_pow s.wBuf) hit
  exact { h with
    s_fits := hd.s_held.trans_le h.w_fits
    acc_fits := hd.acc_held.trans_le (cap_mono h.w_fits)
    acc_digits := hd.acc_digits
    carry_zero := hcarry
    it_fits := (Nat.succ_le_of_lt hit).trans (Nat.mul_le_mul_left 8 h.w_fits)
    loop := fun _ => ⟨hl.wLen_pos, hl.digLen_zero, hit, hd.s_held, hd.acc_held, hd.acc_value, hd.s_value⟩ }

/-- After the last iteration ACC holds the whole value. -/
theorem Dabble.acc_eq_rawDigits {w : List Byte} {s : State} (h : Dabble (valLE w) s) (hw : w.length = s.wLen)
    (hit : 8 * s.wLen ≤ s.it) : s.accSlots = rawDigits .dec w := by
  have hacc : s.accSlots = s.accBuf := elems_eq_self h.acc_held _
  rw [hacc]
  refine eq_rawDigits (fun d hd => Nat.lt_succ_of_le (h.acc_digits d hd)) (by rw [h.acc_held, hw]; rfl) (h.acc_value.trans ?_)
  rw [Nat.sub_eq_zero_of_le hit, pow_zero, Nat.div_one]

/-- The commit does not look at the phase it leaves. -/
theorem ddCommit_eq (fmt : Bool) (s : State) :
    ddCommit fmt s = proceed fmt .rend (loadDigits .dec s.accSlots { s with phase := .conv }) := by
  cases fmt <;> rfl

/-- The loop left for the commit: a state as in P_CONV, whose invariant asks nothing of the loop. -/
theorem State.Inv.leaveLoop {s : State} (h : s.Inv) (hp : s.phase = .dd) : State.Inv { s with phase := .conv } := by
  have hlegal := h.phase_legal
  simp only [hp, phaseLegal, Bool.and_eq_true] at hlegal
  exact { h with
    busy_phase := by simp [h.busy_phase, hp]
    phase_legal := hlegal.1
    fmt_conv := fun _ _ => (h.loop hp).wLen_pos
    fmt_rend := nofun
    loop := nofun }

/-! ### Every engine step -/

theorem normBytes_ok_fits {o : ByteOrder} {s : State} {bs : List Byte} (h : normBytes o s = .ok bs) : bs.length ≤ s.lmaxr := by
  rcases normBytes_cases o s with ⟨_, hr⟩ | ⟨_, _, hr⟩ | ⟨_, hfit, hr⟩
  · cases h.symm.trans hr
  · cases h.symm.trans hr
  · cases h.symm.trans hr
    simpa using hfit

theorem normHex_ok_fits {s : State} {bs : List Byte} (h : normHex s = .ok bs) : bs.length ≤ s.lmaxr := by
  rcases normHex_cases s with ⟨_, hr⟩ | ⟨_, hm, ⟨_, hr⟩ | ⟨_, hr⟩ | ⟨d, ds, hv, hr⟩⟩
  · cases h.symm.trans hr
  · cases h.symm.trans hr
  · cases h.symm.trans hr
  · cases h.symm.trans hr
    rw [hexBytes_length, hexvals_length hv]
    omega

theorem normKind_ok_fits {v : Bool} {o : ByteOrder} {k : InputKind} {s : State} {bs : List Byte}
    (h : normKind v o k s = .ok bs) : bs.length ≤ s.lmaxr := by
  cases k with
  | buffer => exact normBytes_ok_fits h
  | array => exact normBytes_ok_fits h
  | hexstr => exact normHex_ok_fits h
  | other => cases h

theorem State.Inv.normPhase {s : State} (h : s.Inv) (hp : s.phase = .norm) {r : Except Err (List Byte)} {fmt : Bool}
    (hfmt : fmt = true → opField s.cmd = 3) (hr : ∀ bs, r = .ok bs → 0 < bs.length ∧ bs.length ≤ s.lmaxr) :
    (normPhase r fmt s).Inv := by
  cases r with
  | error e => exact (h.beginNorm hp).raiseError rfl e
  | ok bs =>
    obtain ⟨hpos, hfit⟩ := hr bs rfl
    exact ((h.beginNorm hp).loadW hp rfl hfit).proceed (by simp [hp]) hfmt (.inl ⟨rfl, hpos⟩)

theorem State.Inv.convPhase {s : State} (h : s.Inv) (hp : s.phase = .conv) {fmt : Bool} (hfmt : fmt = true → opField s.cmd = 3)
    {q : Radix} (hq : q = .dec → phaseLegal s.cmd .dd = true) : (convPhase fmt s q).Inv := by
  by_cases hw : s.wLen = 0
  · rw [convPhase_of_empty hw]
    exact (h.beginConv hp).raiseError rfl _
  · have hpos := Nat.pos_of_ne_zero hw
    rcases convPhase_of_operand hw fmt q with ⟨hdec, he⟩ | ⟨_, he⟩
    · exact he ▸ h.enterLoop hp hw (hq hdec)
    · rw [he, h.wBytes_eq]
      refine ((h.beginConv hp).loadDigits hp rfl hpos rfl).proceed (by simp [hp]) hfmt (.inr ⟨rfl, ?_⟩)
      rw [loadDigits_digLen, rawDigits_length, beginConv_wBuf, h.w_held]
      exact two_le_digitCount q hpos

theorem State.Inv.ddCommit {s : State} (h : s.Inv) (hp : s.phase = .dd) {fmt : Bool} (hfmt : fmt = true → opField s.cmd = 3)
    (hit : 8 * s.wLen ≤ s.it) : (ddCommit fmt s).Inv := by
  have hl := h.loop hp
  have htxt : s.txtLen = 0 := by
    by_contra hne
    exact (h.txt_fresh hne).1 hl.digLen_zero
  have hraw := (h.dabble hp).acc_eq_rawDigits h.w_held hit
  have hout := (h.leaveLoop hp).loadDigits rfl htxt hl.wLen_pos hraw
  rw [ddCommit_eq]
  refine hout.proceed nofun hfmt (.inr ⟨rfl, ?_⟩)
  rw [loadDigits_digLen, accSlots_length]
  exact two_le_digitCount .dec hl.wLen_pos

theorem State.Inv.ddStep {s : State} (h : s.Inv) (hp : s.phase = .dd) {fmt : Bool} (hfmt : fmt = true → opField s.cmd = 3) :
    (ddStep fmt s).Inv := by
  by_cases hit : s.it < 8 * s.wLen
  · exact ddStep_of_more hit fmt ▸ h.ddIterate hp hit
  · exact ddStep_of_last (not_lt.mp hit) fmt ▸ h.ddCommit hp hfmt (not_lt.mp hit)

theorem State.Inv.rendPhase {s : State} (h : s.Inv) (hp : s.phase = .rend) : (rendPhase s).Inv := by
  by_cases hd : s.digLen = 0
  · rw [rendPhase_of_empty hd]
    exact (h.beginRend hp).raiseError hd _
  · rw [rendPhase_of_operand hd, h.digits_eq]
    exact ((h.beginRend hp).loadText hp hd).finish

/-- Every engine step of the latched command keeps the invariant. -/
theorem State.Inv.execStep {s t : State} (h : s.Inv) (hs : ExecStep (decodeWord s.cmd) s t) : t.Inv := by
  have hfmt := (isFmt_decodeWord s.cmd).mp
  cases hs with
  | idle _ => exact h
  | norm hp hr =>
    obtain ⟨_, rfl⟩ := (operand_decodeWord ..).mp hr
    exact h.normPhase hp hfmt fun bs hb => ⟨normKind_ok_pos hb, normKind_ok_fits hb⟩
  | @conv q hp hq =>
    obtain ⟨hop, hradix⟩ := (radix_decodeWord ..).mp hq
    refine h.convPhase hp hfmt fun hdec => ?_
    simpa [phaseLegal, (Radix.ofCode_eq_dec_iff _).mp (hradix.trans hdec)] using hop
  | dd hp _ => exact h.ddStep hp hfmt
  | rend hp _ => exact h.rendPhase hp

end Sys2Proof.Machine
end

section
/-! PROOF. The invariant under the host's actions and reset, and so under every step. -/

namespace Sys2Proof.Machine

/-! ### Host reads (`20_memory.md` R43) -/

/-- A host read changes what the host has seen and the draw counter only. -/
theorem hostReadNote_eq (s : State) (sp : BitVec 3) (i : Nat) :
    ∃ v d, hostReadNote s sp i = { s with seen := s.seen ++ [v], draws := d } := by
  rcases hostRead_state s sp i with h | h
  · exact ⟨(hostRead s sp i).1, s.draws, by rw [hostReadNote, h]; rfl⟩
  · exact ⟨(hostRead s sp i).1, s.draws + 1, by rw [hostReadNote, h]; rfl⟩

theorem hostGet_eq (s : State) (b : ResultBuf) :
    ∃ acts v d, hostGet s b = { s with script := acts, seen := s.seen ++ [v], draws := d } := by
  obtain ⟨v, d, h⟩ := hostReadNote_eq s 0 b.lenIndex
  exact ⟨_, v, d, by rw [hostGet, h]⟩

/-! ### Host writes (`20_memory.md` R44, R46) -/

/-- An accepted command starts in a phase it enters, and not inside the loop or past its operands. -/
theorem startPhase_cases (w : Byte) :
    ((opField w = 0 ∨ opField w = 3) ∧ startPhase w = .norm) ∨ (opField w = 1 ∧ startPhase w = .conv) ∨
    (opField w = 2 ∧ startPhase w = .rend) := by
  rcases opField_cases w with h | h | h | h <;> simp [startPhase, h]

theorem State.Inv.acceptCommand {s : State} (h : s.Inv) (w : Byte) : (acceptCommand w s).Inv := by
  have hlegal : phaseLegal w (startPhase w) = true := by
    rcases startPhase_cases w with ⟨hop, hp⟩ | ⟨hop, hp⟩ | ⟨hop, hp⟩
    · simpa [phaseLegal, hp] using hop
    · simp [phaseLegal, hp, hop]
    · simp [phaseLegal, hp, hop]
  have hbusy : startPhase w ≠ .idle := by
    rcases startPhase_cases w with ⟨_, hp⟩ | ⟨_, hp⟩ | ⟨_, hp⟩ <;> simp [hp]
  have hdd : startPhase w ≠ .dd := by
    rcases startPhase_cases w with ⟨_, hp⟩ | ⟨_, hp⟩ | ⟨_, hp⟩ <;> simp [hp]
  have hfmt : opField w = 3 → startPhase w = .norm := fun hop => by simp [startPhase, hop]
  exact { h with
    busy_phase := by simp [hbusy]
    not_both := by simp
    err_done := fun hne => absurd rfl hne
    phase_legal := hlegal
    fmt_conv := fun hc hop => absurd ((hfmt hop).symm.trans hc) (by decide)
    fmt_rend := fun hr hop => absurd ((hfmt hop).symm.trans hr) (by decide)
    loop := fun hd => absurd hd hdd }

theorem State.Inv.writeInLen {s : State} (h : s.Inv) (v : Nat) : State.Inv { s with inLen := v % 2 ^ lenw s.lmaxr } :=
  { h with
    inLen_width := Nat.mod_lt _ (by positivity)
    loop := fun hd => { h.loop hd with } }

theorem State.Inv.writeIn {s : State} (h : s.Inv) {j : Nat} (hj : j < inMax s.lmaxr) (b : Byte) :
    State.Inv { s with inBuf := s.inBuf.write j b } :=
  { h with
    in_wf := Memory.write_wf h.in_wf j b
    in_range := Memory.write_range b h.in_range hj
    loop := fun hd => { h.loop hd with } }

theorem State.Inv.hostWrite {s : State} (h : s.Inv) (sp : BitVec 3) (i v : Nat) : (hostWrite s sp i v).Inv := by
  rcases hostWrite_cases s sp i v with hw | ⟨_, _, hw⟩ | ⟨_, _, hw⟩ | ⟨j, _, hloc, hw⟩
  · rwa [hw]
  · exact hw ▸ h.acceptCommand _
  · exact hw ▸ h.writeInLen v
  · obtain ⟨_, hlt, rfl⟩ := (locate_eq_inElem_iff ..).mp hloc
    exact hw ▸ h.writeIn hlt _

/-! ### Reset (`10_state.md` R32) -/

theorem resetWith_inv (cfg : Cfg) {lmax : Nat} (h : 1 ≤ lmax) : (State.resetWith cfg lmax).Inv where
  lmax_pos := h
  in_wf := reset_inBuf_wf cfg lmax
  in_range := nofun
  inLen_width := by simp [State.resetWith]
  w_held := rfl
  w_fits := Nat.zero_le _
  dig_held := rfl
  dig_fits := Nat.zero_le _
  dig_digits := nofun
  dig_fresh := fun hne => absurd rfl hne
  txt_held := rfl
  txt_fits := Nat.zero_le _
  txt_fresh := fun hne => absurd rfl hne
  s_fits := Nat.zero_le _
  acc_fits := Nat.zero_le _
  acc_digits := nofun
  carry_zero := rfl
  it_fits := Nat.zero_le _
  busy_phase := by simp [State.resetWith]
  not_both := by simp [State.resetWith]
  err_done := fun hne => absurd rfl hne
  phase_legal := rfl
  fmt_conv := nofun
  fmt_rend := nofun
  loop := nofun

/-- Settles O2. -/
theorem resetStateSatisfiesInvariant : Obligations.ResetStateSatisfiesInvariant :=
  ⟨fun cfg _ h => resetWith_inv cfg h, resetWith_inv _ (by decide), rfl, rfl, rfl, rfl, rfl, rfl, rfl, rfl, rfl, rfl, rfl⟩

/-! ### Every step -/

theorem State.Inv.engineTurn {s t : State} (h : s.Inv) (ht : engineTurn s = .next t) : t.Inv := h.execStep (exec_next ht)

/-- Settles O3: the engine's turn by the phase, the host's by its action. -/
theorem stepKeepsInvariant : Obligations.StepKeepsInvariant := by
  intro s t h ht
  rcases step_next ht with ⟨_, he⟩ | ⟨rest, _, he⟩ | ⟨rest, _, _, he⟩ | ⟨rest, _, _, rfl⟩ | ⟨sp, i, rest, _, rfl⟩ |
    ⟨sp, i, v, rest, _, rfl⟩ | ⟨b, rest, _, rfl⟩ | ⟨rest, _, rfl⟩
  · exact h.engineTurn he
  · exact (h.withScript rest).engineTurn he
  · exact h.engineTurn he
  · exact h.withHost rest _ s.draws
  · obtain ⟨v, d, hr⟩ := hostReadNote_eq (s.withScript rest) sp i
    exact hr ▸ h.withHost rest _ d
  · exact (h.withScript rest).hostWrite sp i v
  · obtain ⟨acts, v, d, hr⟩ := hostGet_eq (s.withScript rest) b
    exact hr ▸ h.withHost acts _ d
  · exact (resetWith_inv s.cfg h.lmax_pos).withHost rest s.seen s.draws

end Sys2Proof.Machine
end

section
/-! PROOF. Encoding and decoding (`30_encoding.md` R61, R72, R75) by the five fields of the word. -/

namespace Sys2Proof

open Sys2Proof.Machine

/-! ### The fields of a packed word -/

/-- The five fields of a word, packed again, are the word. -/
theorem packWord_fields (w : Byte) : packWord (ordvField w) (ordField w) (kindField w) (radixField w) (opField w) = w := by
  revert w
  decide

theorem opField_packWord (v o : Bool) (k r p : BitVec 2) : opField (packWord v o k r p) = p := by
  revert v o k r p
  decide

theorem radixField_packWord (v o : Bool) (k r p : BitVec 2) : radixField (packWord v o k r p) = r := by
  revert v o k r p
  decide

theorem kindField_packWord (v o : Bool) (k r p : BitVec 2) : kindField (packWord v o k r p) = k := by
  revert v o k r p
  decide

theorem ordField_packWord (v o : Bool) (k r p : BitVec 2) : ordField (packWord v o k r p) = o := by
  revert v o k r p
  decide

theorem ordvField_packWord (v o : Bool) (k r p : BitVec 2) : ordvField (packWord v o k r p) = v := by
  revert v o k r p
  decide

/-- A mask acts on each field by itself. -/
theorem and_eq_packWord (w m : Byte) :
    w &&& m = packWord (ordvField w && ordvField m) (ordField w && ordField m) (kindField w &&& kindField m)
      (radixField w &&& radixField m) (opField w &&& opField m) := by
  have hordv : ordvField (w &&& m) = (ordvField w && ordvField m) := BitVec.getLsbD_and
  have hord : ordField (w &&& m) = (ordField w && ordField m) := BitVec.getLsbD_and
  have hkind : kindField (w &&& m) = kindField w &&& kindField m := BitVec.extractLsb'_and
  have hradix : radixField (w &&& m) = radixField w &&& radixField m := BitVec.extractLsb'_and
  have hop : opField (w &&& m) = opField w &&& opField m := BitVec.extractLsb'_and
  rw [← hordv, ← hord, ← hkind, ← hradix, ← hop, packWord_fields]

/-! ### The codes read back (R64 to R66) -/

theorem ByteOrder.ofCode_code (o : ByteOrder) : ByteOrder.ofCode o.code = o := by
  cases o <;> rfl

theorem ByteOrder.code_ofCode (c : Bool) : (ByteOrder.ofCode c).code = c := by
  cases c <;> rfl

theorem InputKind.code_ofCode (c : BitVec 2) : (InputKind.ofCode c).code = c := by
  revert c
  decide

theorem Radix.code_ofCode (c : BitVec 2) : (Radix.ofCode c).code = c := by
  revert c
  decide

/-! ### The words of the three families -/

theorem encode_convOf (r : Radix) : encode (convOf r) = packWord false false 0 r.code 1 := by
  cases r <;> rfl

theorem encode_fmtOf (r : Radix) (v : Bool) (o : ByteOrder) (k : InputKind) :
    encode (fmtOf r v o k) = packWord v o.code k.code r.code 3 := by
  cases r <;> rfl

/-- NORM passes its order fields for the byte kinds alone (R67). -/
theorem encode_normOf (v : Bool) (o : ByteOrder) (k : InputKind) :
    encode (normOf v o k) = packWord (v && k.isBytes) (o.code && k.isBytes) k.code 0 0 := by
  cases k with
  | buffer => simp [normOf, encode, InputKind.isBytes]
  | array => simp [normOf, encode, InputKind.isBytes]
  | hexstr => simp [normOf, encode, InputKind.isBytes]
  | other => simp [normOf, encode, InputKind.isBytes]

/-- Every well-formed command is one of the families or REND. -/
theorem Instr.family {i : Instr} (h : i.wellFormed = true) :
    (∃ v o k, i = normOf v o k) ∨ (∃ r, i = convOf r) ∨ i = .rend ∨ (∃ r v o k, i = fmtOf r v o k) := by
  cases i with
  | normB v o k =>
    cases k with
    | buffer => exact .inl ⟨v, o, .buffer, rfl⟩
    | array => exact .inl ⟨v, o, .array, rfl⟩
    | hexstr => cases h
    | other => cases h
  | normX => exact .inl ⟨false, .bigEndian, .hexstr, rfl⟩
  | normK3 => exact .inl ⟨false, .bigEndian, .other, rfl⟩
  | convDec => exact .inr (.inl ⟨.dec, rfl⟩)
  | convHex => exact .inr (.inl ⟨.hex, rfl⟩)
  | convOct => exact .inr (.inl ⟨.oct, rfl⟩)
  | convBin => exact .inr (.inl ⟨.bin, rfl⟩)
  | rend => exact .inr (.inr (.inl rfl))
  | fmtDec v o k => exact .inr (.inr (.inr ⟨.dec, v, o, k, rfl⟩))
  | fmtHex v o k => exact .inr (.inr (.inr ⟨.hex, v, o, k, rfl⟩))
  | fmtOct v o k => exact .inr (.inr (.inr ⟨.oct, v, o, k, rfl⟩))
  | fmtBin v o k => exact .inr (.inr (.inr ⟨.bin, v, o, k, rfl⟩))

/-! ### Decode of encode -/

theorem decodeWord_encode_convOf (r : Radix) : decodeWord (encode (convOf r)) = convOf r := by
  rw [encode_convOf, decodeWord_conv (opField_packWord ..), radixField_packWord, r.ofCode_code]

theorem decodeWord_encode_fmtOf (r : Radix) (v : Bool) (o : ByteOrder) (k : InputKind) :
    decodeWord (encode (fmtOf r v o k)) = fmtOf r v o k := by
  rw [encode_fmtOf, decodeWord_fmt (opField_packWord ..), radixField_packWord, ordvField_packWord, ordField_packWord,
    kindField_packWord, r.ofCode_code, o.ofCode_code, k.ofCode_code]

theorem decodeWord_encode_normOf (v : Bool) (o : ByteOrder) (k : InputKind) :
    decodeWord (encode (normOf v o k)) = normOf v o k := by
  rw [encode_normOf, decodeWord_norm (opField_packWord ..), ordvField_packWord, ordField_packWord, kindField_packWord, k.ofCode_code]
  cases hk : k.isBytes with
  | true => rw [Bool.and_true, Bool.and_true, o.ofCode_code]
  | false => exact normOf_of_not_isBytes hk ..

theorem decodeWord_encode_rend : decodeWord (encode .rend) = .rend := decodeWord_rend (opField_packWord ..)

theorem decodeWord_encode {i : Instr} (h : i.wellFormed = true) : decodeWord (encode i) = i := by
  rcases i.family h with ⟨v, o, k, rfl⟩ | ⟨r, rfl⟩ | rfl | ⟨r, v, o, k, rfl⟩
  · exact decodeWord_encode_normOf v o k
  · exact decodeWord_encode_convOf r
  · exact decodeWord_encode_rend
  · exact decodeWord_encode_fmtOf r v o k

theorem decodeTableWord_toNat (w : Byte) : decodeTableWord 8 w.toNat = some (decodeWord w) := by
  rw [decodeTableWord, if_pos ⟨rfl, w.isLt⟩, BitVec.ofNat_toNat, BitVec.setWidth_eq]

/-! ### Encode of decode: the bits the row neither fixes nor passes are cleared (R67) -/

/-- The bits of the word a command's meaning rests on. -/
def Instr.usedMask (i : Instr) : Byte := i.rowMask ||| i.passedMask

theorem usedMask_convOf (r : Radix) : (convOf r).usedMask = packWord false false 0 3 3 := by
  cases r <;> rfl

theorem usedMask_fmtOf (r : Radix) (v : Bool) (o : ByteOrder) (k : InputKind) :
    (fmtOf r v o k).usedMask = packWord true true 3 3 3 := by
  have h : (0x0F ||| 0xF0 : Byte) = packWord true true 3 3 3 := by decide
  cases r <;> exact h

theorem usedMask_normOf (v : Bool) (o : ByteOrder) (k : InputKind) :
    (normOf v o k).usedMask = packWord k.isBytes k.isBytes 3 0 3 := by
  have hB : (0x23 ||| 0xD0 : Byte) = packWord true true 3 0 3 := by decide
  have hX : (0x33 ||| 0 : Byte) = packWord false false 3 0 3 := by decide
  cases k with
  | buffer => exact hB
  | array => exact hB
  | hexstr => exact hX
  | other => exact hX

theorem and_zero_field (x : BitVec 2) : x &&& 0 = 0 := BitVec.and_zero

theorem and_packWord (w : Byte) (v o : Bool) (k r p : BitVec 2) :
    w &&& packWord v o k r p = packWord (ordvField w && v) (ordField w && o) (kindField w &&& k) (radixField w &&& r)
      (opField w &&& p) := by
  rw [and_eq_packWord, ordvField_packWord, ordField_packWord, kindField_packWord, radixField_packWord, opField_packWord]

theorem encode_decodeWord (w : Byte) : encode (decodeWord w) = w &&& (decodeWord w).usedMask := by
  rcases opField_cases w with hop | hop | hop | hop
  · rw [decodeWord_norm hop, encode_normOf, usedMask_normOf, and_packWord, hop, ByteOrder.code_ofCode, InputKind.code_ofCode,
      and_three, and_zero_field]
    rfl
  · rw [decodeWord_conv hop, encode_convOf, usedMask_convOf, and_packWord, hop, Radix.code_ofCode, and_three, and_zero_field,
      Bool.and_false, Bool.and_false]
    rfl
  · rw [decodeWord_rend hop, show Instr.rend.usedMask = packWord false false 0 0 3 from rfl, and_packWord, hop, and_zero_field,
      and_zero_field, Bool.and_false, Bool.and_false]
    rfl
  · rw [decodeWord_fmt hop, encode_fmtOf, usedMask_fmtOf, and_packWord, hop, Radix.code_ofCode, ByteOrder.code_ofCode,
      InputKind.code_ofCode, and_three, and_three, Bool.and_true, Bool.and_true]
    rfl

/-- Settles O6: both directions field by field, for each family of commands. -/
theorem decodeEncodeRoundTrip : Obligations.DecodeEncodeRoundTrip :=
  ⟨fun _ h => (decodeTableWord_toNat _).trans (congrArg some (decodeWord_encode h)),
    fun w => ⟨decodeWord_wellFormed w, encode_decodeWord w⟩⟩

/-- Settles O8: the words' fields, read off bit by bit. -/
theorem sampleWordsDecode : Obligations.SampleWordsDecode := by
  unfold Obligations.SampleWordsDecode
  decide

end Sys2Proof
end

section
/-! PROOF. Characters (`40_normalizer.md` R84, R85, `43_renderer.md` R153). -/

namespace Sys2Proof.Machine

/-- Settles O44. -/
theorem alphabetCodes : Obligations.AlphabetCodes := by
  refine ⟨fun v hv => ?decimal, fun v hv => ?letter, by decide⟩
  case decimal =>
    rw [alpha, if_pos hv, BitVec.toNat_ofNat]
    omega
  case letter =>
    have := v.isLt
    rw [alpha, if_neg (by omega), BitVec.toNat_ofNat]
    omega

/-- The digit of a character of a range that begins at `base` with digit `first`. -/
theorem toNat_digitOf {c base first : Nat} (hlow : base ≤ c) (hhigh : c - base + first < 16) :
    (BitVec.ofNat 4 (c - base + first)).toNat + base = c + first := by
  rw [BitVec.toNat_ofNat, Nat.mod_eq_of_lt hhigh]
  omega

/-- Settles O24, one range of R85 at a time; the ranges are disjoint. -/
theorem hexCharacterValues : Obligations.HexCharacterValues := by
  refine fun c => ⟨fun h h' => ⟨_, if_pos ⟨h, h'⟩, ?decimal⟩, fun h h' => ⟨_, ?lowerValue, toNat_digitOf h (by omega)⟩,
    fun h h' => ⟨_, ?upperValue, toNat_digitOf h (by omega)⟩, fun h1 h2 h3 => ?none⟩
  case decimal => exact toNat_digitOf (first := 0) h (by omega)
  case lowerValue => rw [hexval, if_neg (by omega), if_pos ⟨h, h'⟩]
  case upperValue => rw [hexval, if_neg (by omega), if_neg (by omega), if_pos ⟨h, h'⟩]
  case none => rw [hexval, if_neg h1, if_neg h2, if_neg h3]

theorem inBytes_succ_succ (s : State) (n : Nat) :
    s.inBytes (n + 2) = s.inByte 0 :: s.inByte 1 :: (List.range n).map fun i => s.inByte (i + 2) := by
  simp [State.inBytes, List.range_succ_eq_map]

/-- Settles O23: with fewer than two characters there is none, else the first two decide. -/
theorem hexPrefixRule : Obligations.HexPrefixRule := by
  intro s n
  match n with
  | 0 => rfl
  | 1 => rfl
  | n + 2 => simp [inBytes_succ_succ, prefixLen]

end Sys2Proof.Machine
end

section
/-! PROOF. What a step does with the engine's turn and with each host action (`10_state.md` R23, `20_memory.md` R46, R53). -/

namespace Sys2Proof.Machine

/-! ### The engine's turn -/

theorem step_engine {s : State} {rest : List HostAct} (h : s.script = .engine :: rest) :
    step s = engineTurn (s.withScript rest) := step_cons h

theorem step_wait_done {s : State} {rest : List HostAct} (h : s.script = .wait :: rest) (hd : s.status.done = true) :
    step s = .next (pollDone (s.withScript rest)) := by
  rw [step_cons h, hostTurn, if_pos hd]

theorem step_wait_not_done {s : State} {rest : List HostAct} (h : s.script = .wait :: rest) (hd : s.status.done = false) :
    step s = engineTurn s := by
  rw [step_cons h, hostTurn, if_neg (by simp [hd])]

theorem step_reset {s : State} {rest : List HostAct} (h : s.script = .reset :: rest) :
    step s = .next (applyReset (s.withScript rest)) := step_cons h

theorem step_otherHost {s : State} {rest : List HostAct} (h : s.script = .otherHost :: rest) :
    step s = .refused .secondHost := step_cons h

theorem step_get {s : State} {b : ResultBuf} {rest : List HostAct} (h : s.script = .get b :: rest) :
    step s = .next (hostGet (s.withScript rest) b) := step_cons h

/-- Settles O11. -/
theorem stepRunsTheLatchedCommand : Obligations.StepRunsTheLatchedCommand :=
  ⟨fun _ h => step_nil h, fun _ _ h => step_engine h, fun _ _ h hd => step_wait_not_done h hd, fun i _ h => exec_of_idle i h⟩

/-- Settles O12: with no action pending the engine moves next anyway, else the token gives it the turn. -/
theorem fetchedWordRunsNext : Obligations.FetchedWordRunsNext := by
  intro s w
  cases hs : s.script with
  | nil =>
    have hfetch : s.withFetchWord 8 w = acceptCommand (BitVec.ofNat 8 w) s := by
      simp only [State.withFetchWord, hs]
      exact congrArg (fun acts => { acceptCommand (BitVec.ofNat 8 w) s with script := acts }) hs.symm
    rw [hfetch, step_nil (s := acceptCommand _ s) hs]
    rfl
  | cons act rest =>
    have hscript : (s.withFetchWord 8 w).script = .engine :: act :: rest := by simp only [State.withFetchWord, hs]
    have hback : (s.withFetchWord 8 w).withScript (act :: rest) = acceptCommand (BitVec.ofNat 8 w) s :=
      congrArg (fun acts => { acceptCommand (BitVec.ofNat 8 w) s with script := acts }) hs.symm
    rw [step_engine hscript, hback]
    rfl

/-- Settles O13: CMD is the location at index 0 of space 0. -/
theorem acceptedWriteStartsCommand : Obligations.AcceptedWriteStartsCommand := by
  intro s index v rest hs hi hb
  have hloc : portLoc (s.withScript rest) 0 index = some (.reg .cmd) := (locate_eq_reg_iff ..).mpr ⟨rfl, hi⟩
  refine ⟨acceptCommand (BitVec.ofNat 8 v) (s.withScript rest), ?_, rfl, rfl, fun hop => ?_, fun hop => ?_, fun hop => ?_, rfl⟩
  · rw [step_write hs, hostWrite_idle (s := s.withScript rest) hb hloc]
    rfl
  · rw [acceptCommand_cmd] at hop
    rcases hop with hop | hop <;> simp [startPhase, hop]
  · rw [acceptCommand_cmd] at hop
    simp [startPhase, hop]
  · rw [acceptCommand_cmd] at hop
    simp [startPhase, hop]

/-! ### No stop (`60_exceptions.md` R193) -/

/-- In the invariant the engine's turn is a next state. -/
theorem State.Inv.engineTurn_next {s : State} (h : s.Inv) : ∃ t, Machine.engineTurn s = .next t := exec_of_phaseLegal h.phase_legal

/-- In the invariant a step is a next state unless a second host is next. -/
theorem State.Inv.step_next_or {s : State} (h : s.Inv) : (∃ t, step s = .next t) ∨ (∃ rest, s.script = .otherHost :: rest) := by
  cases hs : s.script with
  | nil => exact .inl (step_nil hs ▸ h.engineTurn_next)
  | cons act rest =>
    cases act with
    | read _ _ => exact .inl ⟨_, step_read hs⟩
    | write _ _ _ => exact .inl ⟨_, step_write hs⟩
    | wait =>
      cases hd : s.status.done with
      | true => exact .inl ⟨_, step_wait_done hs hd⟩
      | false => exact .inl (step_wait_not_done hs hd ▸ h.engineTurn_next)
    | get _ => exact .inl ⟨_, step_get hs⟩
    | reset => exact .inl ⟨_, step_reset hs⟩
    | otherHost => exact .inr ⟨rest, rfl⟩
    | engine => exact .inl (step_engine hs ▸ (h.withScript rest).engineTurn_next)

/-- Settles O4. -/
theorem invariantStatesNeverStop : Obligations.InvariantStatesNeverStop := by
  intro s h
  rcases h.step_next_or with ⟨t, ht⟩ | ⟨rest, hs⟩
  · rw [ht]
    refine ⟨nofun, fun r => ⟨nofun, ?_⟩⟩
    rintro ⟨_, rest, hs⟩
    cases ht.symm.trans (step_otherHost hs)
  · rw [step_otherHost hs]
    refine ⟨nofun, fun r => ⟨?_, fun ⟨hr, _⟩ => hr ▸ rfl⟩⟩
    rintro ⟨⟩
    exact ⟨rfl, rest, hs⟩

/-! ### The straps (`10_state.md` R25, R28) -/

theorem hostWrite_straps (s : State) (sp : BitVec 3) (i v : Nat) :
    (hostWrite s sp i v).cfg = s.cfg ∧ (hostWrite s sp i v).lmaxr = s.lmaxr := by
  rcases hostWrite_cases s sp i v with h | ⟨_, _, h⟩ | ⟨_, _, h⟩ | ⟨_, _, _, h⟩
  · rw [h]
    exact ⟨rfl, rfl⟩
  · rw [h]
    exact ⟨rfl, rfl⟩
  · rw [h]
    exact ⟨rfl, rfl⟩
  · rw [h]
    exact ⟨rfl, rfl⟩

theorem engineTurn_straps {s t : State} (h : engineTurn s = .next t) : t.cfg = s.cfg ∧ t.lmaxr = s.lmaxr :=
  have hout := (exec_next h).sameOutside
  ⟨hout.cfg, hout.lmaxr⟩

/-- Settles O5, one kind of step at a time. -/
theorem strapsNeverChange : Obligations.StrapsNeverChange := by
  intro s t ht
  rcases step_next ht with ⟨_, he⟩ | ⟨rest, _, he⟩ | ⟨rest, _, _, he⟩ | ⟨rest, _, _, rfl⟩ | ⟨sp, i, rest, _, rfl⟩ |
    ⟨sp, i, v, rest, _, rfl⟩ | ⟨b, rest, _, rfl⟩ | ⟨rest, _, rfl⟩
  · exact engineTurn_straps he
  · exact engineTurn_straps (s := s.withScript rest) he
  · exact engineTurn_straps he
  · exact ⟨rfl, rfl⟩
  · obtain ⟨v, d, hr⟩ := hostReadNote_eq (s.withScript rest) sp i
    exact hr ▸ ⟨rfl, rfl⟩
  · exact hostWrite_straps (s.withScript rest) sp i v
  · obtain ⟨acts, v, d, hr⟩ := hostGet_eq (s.withScript rest) b
    exact hr ▸ ⟨rfl, rfl⟩
  · exact ⟨rfl, rfl⟩

/-! ### Errors stay (`60_exceptions.md` R189) -/

/-- An error implies DONE, so the engine is idle and takes no step. -/
theorem State.Inv.engineTurn_of_err {s t : State} {e : Err} (h : s.Inv) (he : s.status.err = some e)
    (ht : Machine.engineTurn s = .next t) : t = s := by
  have hdone : s.status.done = true := h.err_done (by simp [he])
  have hidle : s.phase = .idle := h.idle_iff.mpr (Bool.eq_false_iff.mpr fun hb => h.not_both ⟨hb, hdone⟩)
  cases ht.symm.trans (exec_of_idle _ hidle)
  rfl

/-- A host write leaves STATUS alone, or is the accepted write of a command. -/
theorem hostWrite_status (s : State) (sp : BitVec 3) (i v : Nat) :
    (hostWrite s sp i v).status = s.status ∨
    (portLoc s sp i = some (.reg .cmd) ∧ (hostWrite s sp i v).status = ⟨true, false, none⟩) := by
  rcases hostWrite_cases s sp i v with h | ⟨_, hloc, h⟩ | ⟨_, _, h⟩ | ⟨_, _, _, h⟩
  · exact .inl (by rw [h])
  · exact .inr ⟨hloc, by rw [h]; rfl⟩
  · exact .inl (by rw [h])
  · exact .inl (by rw [h])

/-- Settles O50, one kind of step at a time. -/
theorem errorPersistsUntilNextCommand : Obligations.ErrorPersistsUntilNextCommand := by
  intro s t e h he ht
  rcases step_next ht with ⟨_, ht⟩ | ⟨rest, _, ht⟩ | ⟨rest, _, _, ht⟩ | ⟨rest, _, _, rfl⟩ | ⟨sp, i, rest, _, rfl⟩ |
    ⟨sp, i, v, rest, hs, rfl⟩ | ⟨b, rest, _, rfl⟩ | ⟨rest, hs, rfl⟩
  · exact .inl (congrArg State.status (h.engineTurn_of_err he ht))
  · have hstay := (h.withScript rest).engineTurn_of_err he ht
    exact .inl (hstay ▸ rfl)
  · exact .inl (congrArg State.status (h.engineTurn_of_err he ht))
  · exact .inl rfl
  · obtain ⟨v, d, hr⟩ := hostReadNote_eq (s.withScript rest) sp i
    exact .inl (hr ▸ rfl)
  · rcases hostWrite_status (s.withScript rest) sp i v with hw | ⟨hloc, hw⟩
    · exact .inl hw
    · obtain ⟨rfl, hi⟩ := (locate_eq_reg_iff ..).mp hloc
      exact .inr (.inl ⟨i, v, rest, hs, hi, hw⟩)
  · obtain ⟨acts, v, d, hr⟩ := hostGet_eq (s.withScript rest) b
    exact .inl (hr ▸ rfl)
  · exact .inr (.inr ⟨rest, hs, rfl⟩)

/-! ### WAIT (`30_encoding.md` R76) -/

/-- STATUS as a number, of a block that is not BUSY. -/
theorem statusWord_of_idle (d : Bool) (e : Option Err) :
    (statusWord ⟨false, d, e⟩).toNat = (errCode e).toNat * 4 + d.toNat * 2 := by
  revert d
  rcases e with _ | e
  · decide
  · cases e <;> decide

/-- Settles O20. -/
theorem waitPollsUntilDone : Obligations.WaitPollsUntilDone := by
  refine fun s rest h hs => ⟨fun hd => ?done, fun hd => ?notDone⟩
  case done =>
    have hb : s.status.busy = false := Bool.eq_false_iff.mpr fun hb => h.not_both ⟨hb, hd⟩
    have hword : (statusWord s.status).toNat = (errCode s.status.err).toNat * 4 + 2 := by
      rw [show s.status = ⟨false, true, s.status.err⟩ from hb ▸ hd ▸ rfl]
      exact statusWord_of_idle true _
    rw [step_wait_done hs hd, ← hword]
    rfl
  case notDone =>
    obtain ⟨t, ht⟩ := h.engineTurn_next
    have hout := (exec_next ht).sameOutside
    exact ⟨t, (step_wait_not_done hs hd).trans ht, ht, hout.script.trans hs, hout.seen⟩

/-! ### Reset (`70_reset_and_hazards.md` R200) -/

/-- A block that holds no element of a buffer, and whose lengths are 0, reads every buffer as unspecified. -/
theorem readDatum_applyReset {s : State} {sp : BitVec 3} {i : Nat} {loc : Loc} (hsp : sp ≠ 0)
    (hloc : portLoc (applyReset s) sp i = some loc) : ∃ width, readDatum (applyReset s) sp i = .unspecified width := by
  rw [readDatum_idle rfl hloc]
  cases loc with
  | reg r => exact absurd ((locate_eq_reg_iff ..).mp hloc).1 hsp
  | inElem _ => exact ⟨8, rfl⟩
  | wElem j => exact ⟨8, elemDatum_of_le [] (Nat.zero_le j)⟩
  | digElem j => exact ⟨4, elemDatum_of_le [] (Nat.zero_le j)⟩
  | txtElem j => exact ⟨8, elemDatum_of_le [] (Nat.zero_le j)⟩

/-- Settles O1. -/
theorem resetGivesTheResetTable : Obligations.ResetGivesTheResetTable := by
  intro s rest hs
  exact ⟨applyReset (s.withScript rest), step_reset hs, rfl, rfl, rfl, rfl, rfl, rfl, rfl, rfl, rfl, rfl, rfl, rfl,
    fun _ _ _ hsp hloc => readDatum_applyReset hsp hloc, rfl, rfl, rfl, rfl, rfl, exec_of_idle _ rfl⟩

end Sys2Proof.Machine
end

section
/-! PROOF. What a host read finds (`20_memory.md` R43, R45): registers, elements, and nothing but STATUS while BUSY. -/

namespace Sys2Proof.Machine

/-! ### A read and what it notes -/

theorem step_read_known {s : State} {sp : BitVec 3} {i v : Nat} {rest : List HostAct} (hs : s.script = .read sp i :: rest)
    (h : readDatum s sp i = .known v) : step s = .next { s with script := rest, seen := s.seen ++ [v] } := by
  rw [step_read hs, hostReadNote_known (s := s.withScript rest) h]
  rfl

theorem step_read_unspecified {s : State} {sp : BitVec 3} {i width : Nat} {rest : List HostAct} (hs : s.script = .read sp i :: rest)
    (h : readDatum s sp i = .unspecified width) :
    step s = .next { s with
      script := rest, seen := s.seen ++ [(Config.freeBits width s.draws 0).toNat], draws := s.draws + 1 } := by
  rw [step_read hs, hostReadNote_unspecified (s := s.withScript rest) h]
  rfl

theorem hostRead_known {s : State} {sp : BitVec 3} {i v : Nat} (h : readDatum s sp i = .known v) : hostRead s sp i = (v, s) := by
  simp only [hostRead, h]

/-! ### While BUSY (R45) -/

theorem readDatum_busy {s : State} {sp : BitVec 3} {i : Nat} {loc : Loc} (hb : s.status.busy = true)
    (hloc : portLoc s sp i = some loc) (hne : loc ≠ .reg .status) : readDatum s sp i = .unspecified (lenw s.lmaxr) := by
  simp only [readDatum, hloc]
  exact if_pos ⟨hb, hne⟩

theorem readDatum_status {s : State} {sp : BitVec 3} {i : Nat} (hloc : portLoc s sp i = some (.reg .status)) :
    readDatum s sp i = .known (statusWord s.status).toNat := by
  simp only [readDatum, hloc]
  exact if_neg fun h => h.2 rfl

theorem hostWrite_busy {s : State} (hb : s.status.busy = true) (sp : BitVec 3) (i v : Nat) : hostWrite s sp i v = s := if_pos hb

/-- Where R42 maps something there is a location. -/
theorem locate_of_mapped {lmax : Nat} {sp : BitVec 3} {i : Nat} (h : ¬ Unmapped lmax sp i) : ∃ loc, locate lmax sp i = some loc := by
  rcases space_cases sp with rfl | rfl | rfl | rfl | rfl | h5
  · have hi : i < 9 := by
      by_contra hge
      exact h (.inr (.inl ⟨rfl, not_lt.mp hge⟩))
    interval_cases i <;> exact ⟨_, rfl⟩
  · exact ⟨_, if_pos (not_le.mp fun hge => h (.inr (.inr (.inl ⟨rfl, hge⟩))))⟩
  · exact ⟨_, if_pos (not_le.mp fun hge => h (.inr (.inr (.inr (.inl ⟨rfl, hge⟩)))))⟩
  · exact ⟨_, if_pos (not_le.mp fun hge => h (.inr (.inr (.inr (.inr (.inl ⟨rfl, hge⟩))))))⟩
  · exact ⟨_, if_pos (not_le.mp fun hge => h (.inr (.inr (.inr (.inr (.inr ⟨rfl, hge⟩))))))⟩
  · exact absurd (.inl h5) h

/-- Settles O14. -/
theorem busyPortIgnoresAndHides : Obligations.BusyPortIgnoresAndHides := by
  refine fun s sp i v rest h hb => ⟨fun hs => ?write, fun hs hsp hi => ?status, fun hs hne hmapped => ?hidden⟩
  case write =>
    rw [step_write hs, hostWrite_busy (s := s.withScript rest) hb]
    rfl
  case status =>
    have hread := readDatum_status (s := s) ((locate_eq_reg_iff ..).mpr ⟨hsp, hi⟩)
    rw [h.status_of_busy hb] at hread
    exact step_read_known hs hread
  case hidden =>
    obtain ⟨loc, hloc⟩ := locate_of_mapped hmapped
    refine step_read_unspecified hs (readDatum_busy hb hloc ?_)
    rintro rfl
    exact hne ((locate_eq_reg_iff ..).mp hloc)

/-! ### With BUSY = 0 (R43) -/

theorem readDatum_reg {s : State} {sp : BitVec 3} {i : Nat} (hb : s.status.busy = false) (r : Reg) (hsp : sp = 0)
    (hi : i % 2 ^ lenw s.lmaxr = r.index) : readDatum s sp i = .known (regValue s r) :=
  readDatum_idle hb ((locate_eq_reg_iff ..).mpr ⟨hsp, hi⟩)

/-- An element of a buffer that holds exactly its valid elements. -/
theorem elemDatum_held {k : Nat} {buf : List (BitVec k)} {len i : Nat} {v : BitVec k} (hlen : buf.length = len)
    (hv : buf[i]? = some v) : elemDatum buf len i = .known v.toNat := by
  obtain ⟨hi, _⟩ := List.getElem?_eq_some_iff.mp hv
  rw [elemDatum, if_pos (hlen ▸ hi), hv]

theorem lt_of_held {k : Nat} {buf : List (BitVec k)} {len i : Nat} {v : BitVec k} (hlen : buf.length = len)
    (hv : buf[i]? = some v) : i < len := hlen ▸ (List.getElem?_eq_some_iff.mp hv).1

theorem readDatum_inElem {s : State} {i : Nat} (hb : s.status.busy = false) (hi : i % 2 ^ lenw s.lmaxr < 2 * s.lmaxr + 2) :
    readDatum s 1 i = locDatum s (.inElem (i % 2 ^ lenw s.lmaxr)) := readDatum_idle hb (if_pos hi)

theorem readDatum_wElem {s : State} {i : Nat} (hb : s.status.busy = false) (hi : i % 2 ^ lenw s.lmaxr < s.lmaxr) :
    readDatum s 2 i = elemDatum s.wBuf s.wLen (i % 2 ^ lenw s.lmaxr) :=
  readDatum_idle hb ((locate_space_two ..).trans (if_pos hi))

theorem readDatum_digElem {s : State} {i : Nat} (hb : s.status.busy = false) (hi : i % 2 ^ lenw s.lmaxr < 8 * s.lmaxr) :
    readDatum s 3 i = elemDatum s.digBuf s.digLen (i % 2 ^ lenw s.lmaxr) :=
  readDatum_idle hb ((locate_space_three ..).trans (if_pos hi))

theorem readDatum_txtElem {s : State} {i : Nat} (hb : s.status.busy = false) (hi : i % 2 ^ lenw s.lmaxr < 8 * s.lmaxr) :
    readDatum s 4 i = elemDatum s.txtBuf s.txtLen (i % 2 ^ lenw s.lmaxr) :=
  readDatum_idle hb ((locate_space_four ..).trans (if_pos hi))

theorem locDatum_inElem_written {s : State} {j : Nat} {b : Byte} (h : s.inBuf.read? j = some b) :
    locDatum s (.inElem j) = .known b.toNat := by
  simp only [locDatum, h]

theorem locDatum_inElem_unwritten {s : State} {j : Nat} (h : s.inBuf.read? j = none) :
    locDatum s (.inElem j) = .unspecified 8 := by
  simp only [locDatum, h]

theorem cfgWord_toNat (c : Cfg) : (cfgWord c).toNat = c.bfw.toNat * 2 + c.dord.code.toNat := by
  obtain ⟨dord, bfw⟩ := c
  cases dord <;> cases bfw <;> decide

/-- Settles O17, one location at a time. -/
theorem idleReadReturnsCurrentValue : Obligations.IdleReadReturnsCurrentValue := by
  intro s sp i rest h hs hb j returns returnsFree
  have hreg (r : Reg) (hsp : sp = 0) (hj : j = r.index) : returns (regValue s r) := step_read_known hs (readDatum_reg hb r hsp hj)
  refine ⟨hreg .cmd, fun hsp hj => ?status, fun hsp hj => cfgWord_toNat s.cfg ▸ hreg .cfg hsp hj, hreg .lmaxr, hreg .inLen,
    hreg .wLen, hreg .digLen, hreg .txtLen, hreg .digRadix, ?inWritten, ?inUnwritten, ?w, ?wFree, ?dig, ?digFree, ?txt, ?txtFree⟩
  case status =>
    have hword := statusWord_of_idle s.status.done s.status.err
    rw [← hb] at hword
    exact hword ▸ hreg .status hsp hj
  case inWritten =>
    rintro rfl hj b hread
    exact step_read_known hs ((readDatum_inElem hb hj).trans (locDatum_inElem_written hread))
  case inUnwritten =>
    rintro rfl hj hread
    exact step_read_unspecified hs ((readDatum_inElem hb hj).trans (locDatum_inElem_unwritten hread))
  case w =>
    rintro rfl b hv
    exact step_read_known hs ((readDatum_wElem hb ((lt_of_held h.w_held hv).trans_le h.w_fits)).trans (elemDatum_held h.w_held hv))
  case wFree =>
    rintro rfl hle hj
    exact step_read_unspecified hs ((readDatum_wElem hb hj).trans (elemDatum_of_le _ hle))
  case dig =>
    rintro rfl d hv
    exact step_read_known hs
      ((readDatum_digElem hb ((lt_of_held h.dig_held hv).trans_le h.dig_fits)).trans (elemDatum_held h.dig_held hv))
  case digFree =>
    rintro rfl hle hj
    exact step_read_unspecified hs ((readDatum_digElem hb hj).trans (elemDatum_of_le _ hle))
  case txt =>
    rintro rfl b hv
    exact step_read_known hs
      ((readDatum_txtElem hb ((lt_of_held h.txt_held hv).trans_le h.txt_fits)).trans (elemDatum_held h.txt_held hv))
  case txtFree =>
    rintro rfl hle hj
    exact step_read_unspecified hs ((readDatum_txtElem hb hj).trans (elemDatum_of_le _ hle))

end Sys2Proof.Machine
end

section
/-! PROOF. The host's scripts (`30_encoding.md` R76): LOAD and LOADS write the operand, GETW, GETD and GETT read a result. -/

namespace Sys2Proof.Machine

theorem stepTimes_succ {s t : State} (h : step s = .next t) (k : Nat) : stepTimes (k + 1) s = stepTimes k t := by
  simp only [stepTimes, h]

/-! ### Every index of a buffer fits the port (`20_memory.md` R40, `00_scope.md` R6) -/

theorem digMax_lt_two_pow_lenw (lmax : Nat) : 8 * lmax < 2 ^ lenw lmax :=
  (Nat.lt_log2_self (n := 8 * lmax)).trans_le (Nat.pow_le_pow_right two_pos (le_max_right ..))

theorem inMax_lt_two_pow_lenw (lmax : Nat) : 2 * lmax + 2 < 2 ^ lenw lmax := by
  have h256 : 2 ^ 8 ≤ 2 ^ lenw lmax := Nat.pow_le_pow_right two_pos (le_max_left ..)
  have := digMax_lt_two_pow_lenw lmax
  omega

/-! ### LOAD -/

/-- IN after the bytes are written one by one from index `i` on. -/
def Memory.writeFrom (m : Memory) (i : Nat) : List Byte → Memory
  | [] => m
  | b :: bs => Memory.writeFrom (m.write i b) (i + 1) bs

/-- The elements written hold the bytes, and every other one is as before. -/
theorem Memory.read?_writeFrom (m : Memory) (i a : Nat) (bs : List Byte) :
    (Memory.writeFrom m i bs).read? a = if i ≤ a ∧ a < i + bs.length then bs[a - i]? else m.read? a := by
  induction bs generalizing m i with
  | nil => simp [Memory.writeFrom]
  | cons b bs ih =>
    rw [Memory.writeFrom, ih, Memory.read?_write, List.length_cons]
    by_cases hin : i + 1 ≤ a ∧ a < i + 1 + bs.length
    · rw [if_pos hin, if_pos (by omega), show a - i = a - (i + 1) + 1 by omega, List.getElem?_cons_succ]
    · by_cases ha : a = i
      · rw [if_neg hin, if_pos ha, if_pos (by omega), ha, Nat.sub_self, List.getElem?_cons_zero]
      · rw [if_neg hin, if_neg ha, if_neg (by omega)]

theorem step_write_in {s : State} {i v : Nat} {rest : List HostAct} (hb : s.status.busy = false)
    (hs : s.script = .write 1 i v :: rest) (hi : i < 2 * s.lmaxr + 2) :
    step s = .next { s with script := rest, inBuf := s.inBuf.write i (BitVec.ofNat 8 v) } := by
  have hmod : i % 2 ^ lenw s.lmaxr = i := Nat.mod_eq_of_lt (hi.trans (inMax_lt_two_pow_lenw s.lmaxr))
  have hloc : portLoc (s.withScript rest) 1 i = some (.inElem i) :=
    (locate_eq_inElem_iff ..).mpr ⟨rfl, hmod.symm ▸ hi, hmod.symm⟩
  rw [step_write hs, hostWrite_idle (s := s.withScript rest) hb hloc]
  rfl

theorem step_write_inLen {s : State} {v : Nat} {rest : List HostAct} (hb : s.status.busy = false)
    (hs : s.script = .write 0 4 v :: rest) (hv : v ≤ 2 * s.lmaxr + 2) :
    step s = .next { s with script := rest, inLen := v } := by
  have hlt := inMax_lt_two_pow_lenw s.lmaxr
  have h256 : 2 ^ 8 ≤ 2 ^ lenw s.lmaxr := Nat.pow_le_pow_right two_pos (le_max_left ..)
  have hfour : 4 % 2 ^ lenw s.lmaxr = 4 := Nat.mod_eq_of_lt (lt_of_lt_of_le (by norm_num) h256)
  have hloc : portLoc (s.withScript rest) 0 4 = some (.reg .inLen) := (locate_eq_reg_iff ..).mpr ⟨rfl, hfour⟩
  have hfit : v % 2 ^ lenw s.lmaxr = v := Nat.mod_eq_of_lt (hv.trans_lt hlt)
  rw [step_write hs, hostWrite_idle (s := s.withScript rest) hb hloc]
  exact congrArg (fun n => (Host.Outcome.next { s with script := rest, inLen := n } : Result)) hfit

/-- The element writes of a LOAD, one step each. -/
theorem stepTimes_loadFrom (bs : List Byte) {s : State} {i : Nat} {rest : List HostAct} (hb : s.status.busy = false)
    (hs : s.script = loadFrom i bs ++ rest) (hfit : i + bs.length ≤ 2 * s.lmaxr + 2) (k : Nat) :
    stepTimes (bs.length + k) s = stepTimes k { s with script := rest, inBuf := s.inBuf.writeFrom i bs } := by
  induction bs generalizing s i with
  | nil => exact congrArg (stepTimes · s) (Nat.zero_add k) |>.trans (congrArg (fun acts => stepTimes k { s with script := acts }) hs)
  | cons b bs ih =>
    rw [List.length_cons] at hfit
    rw [List.length_cons, Nat.add_right_comm, stepTimes_succ (step_write_in hb hs (by omega)), BitVec.ofNat_toNat, BitVec.setWidth_eq]
    exact ih (s := { s with script := loadFrom (i + 1) bs ++ rest, inBuf := s.inBuf.write i b }) hb rfl
      (by show i + 1 + bs.length ≤ 2 * s.lmaxr + 2; omega)

/-! ### LOADS: a string of ASCII characters is its codes (R69; log 14) -/

theorem asciiCodes_of_ascii {cs : List Char} (h : ∀ c ∈ cs, c.toNat < 128) :
    asciiCodes cs = some (cs.map fun c => BitVec.ofNat 8 c.toNat) := by
  induction cs with
  | nil => rfl
  | cons c cs ih =>
    obtain ⟨hc, hcs⟩ := List.forall_mem_cons.mp h
    simp only [asciiCodes, asciiCode, if_pos hc, ih hcs, List.map_cons]

theorem asciiCodes_of_not_ascii {cs : List Char} (h : ∃ c ∈ cs, 128 ≤ c.toNat) : asciiCodes cs = none := by
  induction cs with
  | nil =>
    obtain ⟨_, hmem, _⟩ := h
    cases hmem
  | cons c cs ih =>
    by_cases hc : c.toNat < 128
    · obtain ⟨d, hmem, hd⟩ := h
      rcases List.mem_cons.mp hmem with rfl | hmem
      · omega
      · simp only [asciiCodes, ih ⟨d, hmem, hd⟩]
        cases asciiCode c <;> rfl
    · simp only [asciiCodes, asciiCode, if_neg hc]

/-- Settles O18: the element writes, then the write of IN_LEN. -/
theorem loadPutsTheOperand : Obligations.LoadPutsTheOperand := by
  refine ⟨fun s bytes h hb hfit hs => ?load, fun cs hcs => ?ascii, fun cs hcs => ?notAscii⟩
  case load =>
    have hread (a : Nat) : (s.inBuf.writeFrom 0 bytes).read? a = if a < bytes.length then bytes[a]? else s.inBuf.read? a := by
      simp [Memory.read?_writeFrom]
    refine ⟨{ s with script := [], inLen := bytes.length, inBuf := s.inBuf.writeFrom 0 bytes }, ?_, rfl, ?_, fun a ha => ?_, rfl⟩
    · have hlast := step_write_inLen (s := { s with script := [.write 0 4 bytes.length], inBuf := s.inBuf.writeFrom 0 bytes })
        hb rfl hfit
      exact (stepTimes_loadFrom bytes hb hs (by omega) 1).trans (stepTimes_succ hlast 0)
    · refine List.ext_getElem (by simp) fun i _ hi => ?_
      have hbyte := hread i
      rw [if_pos hi, List.getElem?_eq_getElem hi] at hbyte
      simp only [State.inBytes, List.getElem_map, List.getElem_range]
      exact inByte_written hbyte
    · exact (hread a).trans (if_neg (by omega))
  case ascii => rw [loadString, asciiCodes_of_ascii hcs, Option.map_some]
  case notAscii => rw [loadString, asciiCodes_of_not_ascii hcs, Option.map_none]

/-! ### GETW, GETD, GETT -/

/-- The valid elements of a result buffer as numbers. -/
def State.held (s : State) : ResultBuf → List Nat
  | .w => s.wBuf.map BitVec.toNat
  | .dig => s.digBuf.map BitVec.toNat
  | .txt => s.txtBuf.map BitVec.toNat

theorem mod_lenw_of_lt {lmax i : Nat} (h : i < 8 * lmax) : i % 2 ^ lenw lmax = i :=
  Nat.mod_eq_of_lt (h.trans (digMax_lt_two_pow_lenw lmax))

/-- The length register of a result buffer reads as the number of its valid elements. -/
theorem State.Inv.readDatum_len {s : State} (h : s.Inv) (hb : s.status.busy = false) (buf : ResultBuf) :
    readDatum s 0 buf.lenIndex = .known (s.held buf).length := by
  have hmod {k : Nat} (hk : k < 8) : k % 2 ^ lenw s.lmaxr = k :=
    mod_lenw_of_lt (hk.trans_le (Nat.le_mul_of_pos_right 8 h.lmax_pos))
  cases buf with
  | w => exact (readDatum_reg hb .wLen rfl (hmod (by decide))).trans (by simp [State.held, h.w_held, regValue])
  | dig => exact (readDatum_reg hb .digLen rfl (hmod (by decide))).trans (by simp [State.held, h.dig_held, regValue])
  | txt => exact (readDatum_reg hb .txtLen rfl (hmod (by decide))).trans (by simp [State.held, h.txt_held, regValue])

/-- A valid element of a result buffer reads as its value. -/
theorem State.Inv.readDatum_elem {s : State} (h : s.Inv) (hb : s.status.busy = false) (buf : ResultBuf) {i : Nat}
    (hi : i < (s.held buf).length) : readDatum s buf.space i = .known (s.held buf)[i] := by
  cases buf with
  | w =>
    have hlen : i < s.wBuf.length := by simpa [State.held] using hi
    have hfit : i < s.lmaxr := (h.w_held ▸ hlen).trans_le h.w_fits
    have hmod : i % 2 ^ lenw s.lmaxr = i := mod_lenw_of_lt (by omega)
    have hread := readDatum_wElem hb (hmod.symm ▸ hfit)
    rw [hmod, elemDatum_held h.w_held (List.getElem?_eq_getElem hlen)] at hread
    exact hread.trans (by simp [State.held])
  | dig =>
    have hlen : i < s.digBuf.length := by simpa [State.held] using hi
    have hfit : i < 8 * s.lmaxr := (h.dig_held ▸ hlen).trans_le h.dig_fits
    have hmod : i % 2 ^ lenw s.lmaxr = i := mod_lenw_of_lt hfit
    have hread := readDatum_digElem hb (hmod.symm ▸ hfit)
    rw [hmod, elemDatum_held h.dig_held (List.getElem?_eq_getElem hlen)] at hread
    exact hread.trans (by simp [State.held])
  | txt =>
    have hlen : i < s.txtBuf.length := by simpa [State.held] using hi
    have hfit : i < 8 * s.lmaxr := (h.txt_held ▸ hlen).trans_le h.txt_fits
    have hmod : i % 2 ^ lenw s.lmaxr = i := mod_lenw_of_lt hfit
    have hread := readDatum_txtElem hb (hmod.symm ▸ hfit)
    rw [hmod, elemDatum_held h.txt_held (List.getElem?_eq_getElem hlen)] at hread
    exact hread.trans (by simp [State.held])

/-- Reads that find values, one step each: they are noted in order and nothing else changes. -/
theorem stepTimes_reads {sp : BitVec 3} {f : Nat → Nat} (is : List Nat) {s : State} (hs : s.script = is.map fun i => .read sp i)
    (h : ∀ i ∈ is, readDatum s sp i = .known (f i)) :
    stepTimes is.length s = .next { s with script := [], seen := s.seen ++ is.map f } := by
  induction is generalizing s with
  | nil =>
    rw [List.map_nil] at hs
    rw [List.map_nil, List.append_nil, ← hs]
    rfl
  | cons i is ih =>
    obtain ⟨hi, his⟩ := List.forall_mem_cons.mp h
    rw [List.length_cons, stepTimes_succ (step_read_known hs hi), List.map_cons, List.append_cons s.seen (f i) (is.map f)]
    exact ih (s := { s with script := is.map fun i => .read sp i, seen := s.seen ++ [f i] }) rfl his

theorem State.Inv.stepTimes_get {s : State} (h : s.Inv) (hb : s.status.busy = false) (buf : ResultBuf) (hs : s.script = [.get buf]) :
    stepTimes ((s.held buf).length + 1) s =
      .next { s with script := [], seen := s.seen ++ (s.held buf).length :: s.held buf } := by
  have hlen := h.readDatum_len hb buf
  have hget : hostGet (s.withScript []) buf =
      { s with script := elementReads buf (s.held buf).length, seen := s.seen ++ [(s.held buf).length] } := by
    have hlen' : readDatum (s.withScript []) 0 buf.lenIndex = .known (s.held buf).length := hlen
    rw [hostGet, hostReadNote_known hlen', hostRead_known hlen', State.withScript_script, List.append_nil]
    rfl
  have helem : ∀ i ∈ List.range (s.held buf).length, readDatum s buf.space i = .known ((s.held buf).getD i 0) := by
    intro i hi
    have hi := List.mem_range.mp hi
    rw [h.readDatum_elem hb buf hi, List.getD_eq_getElem _ _ hi]
  have hmap : (List.range (s.held buf).length).map (fun i => (s.held buf).getD i 0) = s.held buf := by
    refine List.ext_getElem (by simp) fun i _ hi => ?_
    simp [List.getElem?_eq_getElem hi]
  rw [stepTimes_succ (step_get hs), hget]
  have hreads := stepTimes_reads (List.range (s.held buf).length)
    (s := { s with script := elementReads buf (s.held buf).length, seen := s.seen ++ [(s.held buf).length] }) rfl helem
  rw [List.length_range, hmap] at hreads
  simpa using hreads

/-- Settles O19: the length is read, then as many elements. -/
theorem getReadsTheValidElements : Obligations.GetReadsTheValidElements := by
  intro s buf h hb hs
  have hget := h.stepTimes_get hb buf hs
  cases buf with
  | w => exact hget
  | dig => exact hget
  | txt => exact hget

end Sys2Proof.Machine
end

section
/-! PROOF. The text of a digit sequence is the numeral of its value (`43_renderer.md` R157), and NORM.X reads a hexadecimal numeral
back (`44_composite_fmt.md` R173). -/

namespace Sys2Proof.Machine

/-! ### The digits of a numeral -/

/-- The digits of the numeral of a value, most significant first; one 0 for 0. -/
def numeralDigits (r : Radix) (v : Nat) : List Nibble :=
  if v = 0 then [0] else (Nat.digits r.base v).reverse.map (BitVec.ofNat 4)

theorem numeral_eq_map (r : Radix) (v : Nat) : numeral r v = (numeralDigits r v).map alpha := by
  unfold numeral numeralDigits
  split
  · rfl
  · rw [List.map_map]
    rfl

/-- The value by Mathlib's digit function, which counts from the least significant digit. -/
theorem ofDigits_eq_valMS (b : Nat) (ds : List Nibble) : Nat.ofDigits b (ds.reverse.map BitVec.toNat) = valMS b ds := by
  induction ds with
  | nil => rfl
  | cons d ds ih =>
    rw [List.reverse_cons, List.map_append, Nat.ofDigits_append, ih, valMS_cons, List.length_map, List.length_reverse, List.map_singleton,
      Nat.ofDigits_singleton]
    ring

theorem one_lt_base (r : Radix) : 1 < r.base := by
  cases r <;> decide

/-- A sequence with no zero in front is the numeral's digits of its value. -/
theorem numeralDigits_valMS {r : Radix} {d : Nibble} {ds : List Nibble} (hd : d ≠ 0) (hlt : ∀ e ∈ d :: ds, e.toNat < r.base) :
    numeralDigits r (valMS r.base (d :: ds)) = d :: ds := by
  have hpos : 0 < d.toNat := Nat.pos_of_ne_zero fun h => hd (BitVec.eq_of_toNat_eq h)
  have hv : valMS r.base (d :: ds) ≠ 0 := by
    have := Nat.mul_pos hpos (pow_pos (zero_lt_one.trans (one_lt_base r)) ds.length)
    rw [valMS_cons]
    omega
  have hdigits : Nat.digits r.base (valMS r.base (d :: ds)) = (d :: ds).reverse.map BitVec.toNat := by
    rw [← ofDigits_eq_valMS]
    refine Nat.digits_ofDigits _ (one_lt_base r) _ (fun k hk => ?_) (fun _ => ?_)
    · obtain ⟨e, he, rfl⟩ := List.mem_map.mp hk
      exact hlt e (List.mem_reverse.mp he)
    · simpa using hpos.ne'
  rw [numeralDigits, if_neg hv, hdigits, ← List.map_reverse, List.reverse_reverse, List.map_map]
  exact (List.map_congr_left fun e _ => by simp).trans (List.map_id _)

theorem valMS_numeralDigits (r : Radix) (v : Nat) : valMS r.base (numeralDigits r v) = v := by
  unfold numeralDigits
  split
  · simp [valMS_cons, *]
  · have hsmall : ∀ k ∈ Nat.digits r.base v, (BitVec.ofNat 4 k).toNat = k := fun k hk =>
      Nat.mod_eq_of_lt ((Nat.digits_lt_base (one_lt_base r) hk).trans_le (radixBase_bounds r).2)
    rw [← ofDigits_eq_valMS, ← List.map_reverse, List.reverse_reverse, List.map_map]
    exact (congrArg (Nat.ofDigits r.base) ((List.map_congr_left hsmall).trans (List.map_id _))).trans (Nat.ofDigits_digits ..)

/-! ### Trimming (R151) -/

/-- The digits kept: one 0 of a value 0, else the digits from the first non-zero one on, of the same value. -/
theorem drop_trimIndex_cases {ds : List Nibble} (hne : ds ≠ []) (b : Nat) :
    (ds.drop (trimIndex ds) = [0] ∧ valMS b ds = 0) ∨
    (∃ d es, d ≠ 0 ∧ ds.drop (trimIndex ds) = d :: es ∧ valMS b (d :: es) = valMS b ds) := by
  induction ds with
  | nil => exact absurd rfl hne
  | cons d ds ih =>
    by_cases hd : d = 0
    · subst hd
      by_cases hds : ds = []
      · subst hds
        exact .inl ⟨rfl, by simp [valMS_cons]⟩
      · have hv : valMS b (0 :: ds) = valMS b ds := by simp [valMS_cons]
        rw [trimIndex_zero_cons hds, List.drop_succ_cons, hv]
        exact ih hds
    · rw [trimIndex_cons_of_ne_zero hd]
      exact .inr ⟨d, ds, hd, rfl, rfl⟩

theorem drop_trimIndex_eq_numeralDigits {r : Radix} {ds : List Nibble} (hne : ds ≠ []) (hlt : ∀ d ∈ ds, d.toNat < r.base) :
    ds.drop (trimIndex ds) = numeralDigits r (valMS r.base ds) := by
  rcases drop_trimIndex_cases hne r.base with ⟨hdrop, hv⟩ | ⟨d, es, hd, hdrop, hv⟩
  · rw [hdrop, hv]
    rfl
  · have hmem : ∀ e ∈ d :: es, e.toNat < r.base := fun e he => hlt e (List.mem_of_mem_drop (hdrop ▸ he))
    rw [hdrop, ← hv, numeralDigits_valMS hd hmem]

/-- Where digits are trimmed the text is that of the digits kept. -/
theorem renderText_trimmed {bfw : Bool} {r : Radix} (h : ¬ (bfw = true ∧ r = .bin)) (ds : List Nibble) :
    renderText bfw r ds = (ds.drop (trimIndex ds)).map alpha := by
  rw [renderText, firstIndex, if_neg h]

theorem renderText_eq_numeral {bfw : Bool} {r : Radix} (h : ¬ (bfw = true ∧ r = .bin)) {ds : List Nibble} (hne : ds ≠ [])
    (hlt : ∀ d ∈ ds, d.toNat < r.base) : renderText bfw r ds = numeral r (valMS r.base ds) := by
  rw [renderText_trimmed h, drop_trimIndex_eq_numeralDigits hne hlt, numeral_eq_map]

theorem alpha_eq_zero_iff (d : Nibble) : alpha d = 0x30 ↔ d = 0 := by
  revert d
  decide

/-- Settles O46: the digits kept are the numeral's, and only a value 0 keeps a 0 in front. -/
theorem trimmedTextIsNumeral : Obligations.TrimmedTextIsNumeral := by
  intro r ds hne hlt
  have hpolicy : ¬ (false = true ∧ r = .bin) := fun h => Bool.false_ne_true h.1
  refine ⟨renderText_eq_numeral hpolicy hne hlt, ?_⟩
  rw [renderText_trimmed hpolicy]
  rcases drop_trimIndex_cases hne r.base with ⟨hdrop, hv⟩ | ⟨d, es, hd, hdrop, _⟩
  · rw [hdrop]
    exact ⟨nofun, fun _ => ⟨rfl, hv⟩⟩
  · rw [hdrop]
    exact ⟨nofun, fun h => absurd ((alpha_eq_zero_iff d).mp (Option.some.inj h)) hd⟩

/-! ### NORM.X on a hexadecimal numeral -/

theorem hexval_alpha (d : Nibble) : hexval (alpha d) = some d := by
  revert d
  decide

theorem alpha_ne_x (d : Nibble) : ¬ (alpha d = 0x78 ∨ alpha d = 0x58) := by
  revert d
  decide

/-- A string of digits has no `x` and so nothing to skip. -/
theorem prefixLen_map_alpha (ds : List Nibble) : prefixLen (ds.map alpha) = 0 := by
  match ds with
  | [] => rfl
  | [_] => rfl
  | _ :: e :: _ => exact if_neg fun h => alpha_ne_x e h.2

theorem hexvals_map_alpha (ds : List Nibble) : hexvals (ds.map alpha) = some ds := by
  rw [hexvals_eq_some_iff, List.map_map]
  exact List.map_congr_left fun d _ => hexval_alpha d

theorem numeralDigits_ne_nil (r : Radix) (v : Nat) : numeralDigits r v ≠ [] := by
  unfold numeralDigits
  split
  · simp
  · simpa [Nat.digits_ne_nil_iff_ne_zero] using ‹_›

/-- Settles O56: the text's characters are read as the numeral's digits. -/
theorem hexTextRoundTrip : Obligations.HexTextRoundTrip := by
  intro s v hp htext hfit
  rw [numeral_eq_map] at htext
  have hbody : s.hexBody = (numeralDigits .hex v).map alpha := by rw [State.hexBody, htext, prefixLen_map_alpha, List.drop_zero]
  have hlen : (numeralDigits .hex v).length = s.inLen := by simpa using (congrArg List.length htext).symm
  have hvals : hexvals s.hexBody = some (numeralDigits .hex v) := hbody ▸ hexvals_map_alpha _
  have hok : normHex s = .ok (hexBytes (numeralDigits .hex v)) :=
    normHex_of_digits (by rw [inMax]; omega) (by rw [hbody, List.length_map, hlen]; exact hfit) hvals (numeralDigits_ne_nil _ _)
  refine ⟨_, exec_normX_norm hp, ?_⟩
  rw [hok, normPhase_ok_wBuf, normPhase_ok_wLen, valLE_hexBytes, hexBytes_length, hlen]
  exact ⟨normPhase_ok_finished .., valMS_numeralDigits .hex v, rfl⟩

end Sys2Proof.Machine
end

section
/-! PROOF. Runs of a command by engine steps (`10_state.md` R23, `70_reset_and_hazards.md` R211). -/

namespace Sys2Proof.Machine

/-- `n` engine steps of command `i` lead from `s` to `t`, and the engine is idle before none of them. -/
structure Runs (i : Instr) (n : Nat) (s t : State) : Prop where
  run : execTimes i n s = .next t
  busy : ∀ k < n, ∃ u, execTimes i k s = .next u ∧ u.phase ≠ .idle

theorem execTimes_add {i : Instr} {m : Nat} {s t : State} (h : execTimes i m s = .next t) (n : Nat) :
    execTimes i (m + n) s = execTimes i n t := by
  induction m generalizing s with
  | zero =>
    cases h
    rw [Nat.zero_add]
  | succ m ih =>
    rw [execTimes] at h
    split at h
    · rename_i u hu
      rw [Nat.add_right_comm, execTimes_succ hu, ih h]
    · cases h
    · cases h

theorem execTimes_one {i : Instr} {s t : State} (h : exec i s = .next t) : execTimes i 1 s = .next t := execTimes_succ h 0

theorem Runs.one {i : Instr} {s t : State} (h : exec i s = .next t) (hs : s.phase ≠ .idle) : Runs i 1 s t where
  run := execTimes_one h
  busy := fun k hk => by
    obtain rfl : k = 0 := by omega
    exact ⟨s, rfl, hs⟩

theorem Runs.trans {i : Instr} {m n : Nat} {s t u : State} (h : Runs i m s t) (h' : Runs i n t u) : Runs i (m + n) s u where
  run := (execTimes_add h.run n).trans h'.run
  busy := fun k hk => by
    by_cases hkm : k < m
    · exact h.busy k hkm
    · obtain ⟨j, rfl⟩ := Nat.exists_eq_add_of_le (not_lt.mp hkm)
      rw [execTimes_add h.run]
      exact h'.busy j (by omega)

/-- A command's steps to its end are the whole command, when they are no more than the bound of R211. -/
theorem Runs.runCommand {w : Byte} {n : Nat} {s t : State} (h : Runs (decodeWord w) n (acceptCommand w s) t) (ht : t.phase = .idle)
    (hn : n ≤ 8 * max s.lmaxr s.wLen + 4) : runCommand w s = .next t := by
  obtain ⟨j, hj⟩ := Nat.exists_eq_add_of_le hn
  rw [Machine.runCommand, hj, execTimes_add h.run, execTimes_of_idle _ _ ht]

/-! ### What a whole run leaves unchanged -/

theorem SameOutside.trans {s t u : State} (h : SameOutside s t) (h' : SameOutside t u) : SameOutside s u where
  cmd := h'.cmd.trans h.cmd
  cfg := h'.cfg.trans h.cfg
  lmaxr := h'.lmaxr.trans h.lmaxr
  inLen := h'.inLen.trans h.inLen
  inBuf := fun i => (h'.inBuf i).trans (h.inBuf i)
  script := h'.script.trans h.script
  seen := h'.seen.trans h.seen

theorem SameW.trans {s t u : State} (h : SameW s t) (h' : SameW t u) : SameW s u :=
  ⟨h'.wLen.trans h.wLen, h'.wBuf.trans h.wBuf⟩

/-- No step writes IN (`10_state.md` R14). -/
theorem ExecStep.inBuf_eq {i : Instr} {s t : State} (h : ExecStep i s t) : t.inBuf = s.inBuf := by
  cases h with
  | idle _ => rfl
  | @norm r _ _ => rcases normPhase_cases r i.isFmt s with ⟨_, _, h⟩ | ⟨_, _, h⟩ <;> rw [h] <;> cases i.isFmt <;> rfl
  | @conv q _ _ =>
    by_cases hw : s.wLen = 0
    · rw [convPhase_of_empty hw]
      rfl
    · rcases convPhase_of_operand hw i.isFmt q with ⟨_, h⟩ | ⟨_, h⟩ <;> rw [h] <;> cases i.isFmt <;> rfl
  | dd _ _ =>
    by_cases hit : s.it < 8 * s.wLen
    · rw [ddStep_of_more hit]
      rfl
    · rw [ddStep_of_last (not_lt.mp hit)]
      cases i.isFmt <;> rfl
  | rend _ _ => rcases rendPhase_cases s with ⟨_, h⟩ | ⟨_, h⟩ <;> rw [h] <;> rfl

theorem execTimes_frame {i : Instr} {n : Nat} {s t : State} (h : execTimes i n s = .next t) :
    SameOutside s t ∧ t.inBuf = s.inBuf := by
  induction n generalizing s with
  | zero =>
    cases h
    exact ⟨SameOutside.refl _, rfl⟩
  | succ n ih =>
    rw [execTimes] at h
    split at h
    · rename_i u hu
      obtain ⟨hout, hin⟩ := ih h
      have hstep := exec_next hu
      exact ⟨hstep.sameOutside.trans hout, hin.trans hstep.inBuf_eq⟩
    · cases h
    · cases h

end Sys2Proof.Machine
end

section
/-! PROOF. The decimal conversion as a run (`41_decimal_double_dabble.md` R100 to R111). -/

namespace Sys2Proof.Machine

/-- The state `t` inside the loop after `k` iterations on the ByteSequence of `s`. -/
structure InLoop (s : State) (k : Nat) (t : State) : Prop where
  phase : t.phase = .dd
  status : t.status = s.status
  it : t.it = k
  w : SameW s t
  txtLen : t.txtLen = 0
  txtBuf : t.txtBuf = []
  dabble : Dabble (valLE s.wBytes) t
  carry : 1 ≤ k → t.carry = false

theorem InLoop.enter (s : State) : InLoop s 0 (enterLoop s) :=
  ⟨rfl, rfl, rfl, ⟨rfl, rfl⟩, rfl, rfl, enterLoop_dabble s, fun h => absurd h (by decide)⟩

theorem InLoop.iterate {s t : State} {k : Nat} (h : InLoop s k t) (hk : k < 8 * s.wLen) : InLoop s (k + 1) (ddIterate t) := by
  obtain ⟨hd, hcarry⟩ := h.dabble.iterate (h.w.wLen ▸ wBytes_lt s) (by rw [h.it, h.w.wLen]; exact hk)
  exact ⟨h.phase, h.status, congrArg (· + 1) h.it, ⟨h.w.wLen, h.w.wBuf⟩, h.txtLen, h.txtBuf, hd, fun _ => hcarry⟩

/-- The entry step and `k` iterations. -/
theorem runs_loop {i : Instr} {s : State} (hp : s.phase = .conv) (hq : i.radix = some .dec) (hw : s.wLen ≠ 0) {k : Nat}
    (hk : k ≤ 8 * s.wLen) : ∃ t, Runs i (k + 1) s t ∧ InLoop s k t := by
  induction k with
  | zero =>
    have hstep : exec i s = .next (enterLoop s) := by
      rw [exec_conv hp hq]
      exact congrArg _ (ddEnter_of_operand hw)
    exact ⟨_, .one hstep (by simp [hp]), .enter s⟩
  | succ k ih =>
    obtain ⟨t, hrun, hloop⟩ := ih (by omega)
    have hit : t.it < 8 * t.wLen := by
      rw [hloop.it, hloop.w.wLen]
      omega
    exact ⟨_, hrun.trans (.one (exec_decimal_iterate hloop.phase hq hit) (by simp [hloop.phase])), hloop.iterate (by omega)⟩

/-- Decimal digits of a value that leaves the first one no weight begin with 0. -/
theorem head_eq_zero {ds : List Nibble} (hne : ds ≠ []) (h : valMS 10 ds < 10 ^ (ds.length - 1)) : ds[0]? = some 0 := by
  cases ds with
  | nil => exact absurd rfl hne
  | cons d ds =>
    rw [valMS_cons, List.length_cons, Nat.add_sub_cancel] at h
    have hd : d.toNat = 0 := by
      by_contra hne
      have := Nat.le_mul_of_pos_left (10 ^ ds.length) (Nat.pos_of_ne_zero hne)
      omega
    exact congrArg some (BitVec.eq_of_toNat_eq hd)

theorem lt_ten_pow_cap_of_wBytes {s : State} {v : Nat} (h : v ≤ valLE s.wBytes) : v < 10 ^ (cap s.wLen - 1) :=
  h.trans_lt ((wBytes_lt s).trans (two_pow_lt_ten_pow_cap s.wLen))

theorem cap_pos (len : Nat) : 0 < cap len := Nat.succ_pos _

/-- Settles O34: R108's equations after `k` iterations, and the bounds that follow. -/
theorem doubleDabbleLoopInvariant : Obligations.DoubleDabbleLoopInvariant := by
  intro s k hp hpos hk v n
  obtain ⟨t, hrun, hloop⟩ := runs_loop (i := .convDec) hp rfl hpos.ne' hk
  obtain ⟨hphase, _, hit, hw, _, _, hd, hcarry⟩ := hloop
  have hacc : t.accSlots = t.accBuf := elems_eq_self hd.acc_held _
  have hs : t.sBytes = t.sBuf := elems_eq_self hd.s_held _
  have hvalue : valMS 10 t.accBuf = v / 2 ^ (n - k) := by rw [hd.acc_value, hit, hw.wLen]
  have hrest : valLE t.sBuf = v * 2 ^ k % 2 ^ n := by rw [hd.s_value, hit, hw.wLen]
  have htop : v / 2 ^ (n - k) < 2 ^ k := by
    refine Nat.div_lt_of_lt_mul ?_
    rw [← pow_add, Nat.sub_add_cancel hk]
    exact wBytes_lt s
  have hlen : t.accBuf.length = cap s.wLen := hd.acc_held.trans (congrArg cap hw.wLen)
  have hhead : t.accBuf[0]? = some 0 := by
    refine head_eq_zero (List.length_pos_iff.mp (hlen ▸ cap_pos _)) ?_
    rw [hlen, hvalue]
    exact lt_ten_pow_cap_of_wBytes (Nat.div_le_self ..)
  refine ⟨t, hrun.run, hphase, hit, ?_⟩
  rw [hacc, hs]
  exact ⟨hvalue, hrest, hd.acc_digits, hcarry, hhead, hvalue ▸ Nat.le_sub_one_of_lt htop, hw⟩

/-! ### The whole conversion, in any radix -/

/-- The digits of the ByteSequence of `s` are in DIG of `t`, and TXT is cleared. -/
structure Converted (q : Radix) (s t : State) : Prop where
  digBuf : t.digBuf = rawDigits q s.wBytes
  digLen : t.digLen = digitCount q s.wLen
  digRadix : t.digRadix = q
  txtLen : t.txtLen = 0
  txtBuf : t.txtBuf = []
  w : SameW s t

/-- How a phase that has gone well is left: an FMT command goes on to `p`, any other command has finished (`next(p)` of R23). -/
def WentOn (fmt : Bool) (p : Phase) (s t : State) : Prop :=
  if fmt then t.phase = p ∧ t.status = s.status else Finished s t

theorem proceed_wentOn (fmt : Bool) (p : Phase) (s : State) : WentOn fmt p s (proceed fmt p s) := by
  cases fmt
  · exact ⟨rfl, rfl⟩
  · exact ⟨rfl, rfl⟩

theorem WentOn.of_status {fmt : Bool} {p : Phase} {s s' t : State} (h : WentOn fmt p s' t) (hs : s'.status = s.status) :
    WentOn fmt p s t := by
  cases fmt
  · exact ⟨h.1, h.2.trans (by rw [hs])⟩
  · exact ⟨h.1, h.2.trans hs⟩

/-- The engine steps of the CONV phase (`70_reset_and_hazards.md` R211). -/
def convSteps : Radix → Nat → Nat
  | .dec, len => 8 * len + 2
  | .hex, _ => 1
  | .oct, _ => 1
  | .bin, _ => 1

theorem convSteps_of_pow2 {q : Radix} (hq : q ≠ .dec) (len : Nat) : convSteps q len = 1 := by
  cases q with
  | dec => exact absurd rfl hq
  | hex => rfl
  | oct => rfl
  | bin => rfl

theorem stepCount_convOf (q : Radix) (len : Nat) : stepCount len (convOf q) = convSteps q len := by
  cases q <;> rfl

theorem stepCount_fmtOf (q : Radix) (v : Bool) (o : ByteOrder) (k : InputKind) (len : Nat) :
    stepCount len (fmtOf q v o k) = 1 + convSteps q len + 1 := by
  cases q with
  | dec => simp only [fmtOf, stepCount, convSteps]; omega
  | hex => rfl
  | oct => rfl
  | bin => rfl

/-- After the last iteration the commit loads the digits. -/
theorem InLoop.commit {s t : State} (h : InLoop s (8 * s.wLen) t) (fmt : Bool) :
    Converted .dec s (ddCommit fmt t) ∧ WentOn fmt .rend s (ddCommit fmt t) := by
  obtain ⟨hbuf, hlen, hradix, _, hw, htxt, _⟩ := ddCommit_committed fmt t
  have hacc : t.accSlots = rawDigits .dec s.wBytes :=
    h.dabble.acc_eq_rawDigits ((wBytes_length s).trans h.w.wLen.symm) (by rw [h.it, h.w.wLen])
  refine ⟨⟨hbuf.trans hacc, hlen.trans (congrArg cap h.w.wLen), hradix, htxt.txtLen.trans h.txtLen, htxt.txtBuf.trans h.txtBuf,
    h.w.trans hw⟩, ?_⟩
  rw [ddCommit]
  exact (proceed_wentOn fmt .rend _).of_status h.status

/-- Unit RX's phase loads the digits. -/
theorem convPhase_converted {q : Radix} {s : State} (hq : q ≠ .dec) (hw : s.wLen ≠ 0) (fmt : Bool) :
    Converted q s (convPhase fmt s q) ∧ WentOn fmt .rend s (convPhase fmt s q) := by
  rcases convPhase_of_operand hw fmt q with ⟨hdec, _⟩ | ⟨_, he⟩
  · exact absurd hdec hq
  · have hlen : (rawDigits q s.wBytes).length = digitCount q s.wLen := by rw [rawDigits_length, wBytes_length]
    rw [he]
    refine ⟨?_, (proceed_wentOn fmt .rend _).of_status rfl⟩
    cases fmt
    · exact ⟨rfl, hlen, rfl, rfl, rfl, rfl, rfl⟩
    · exact ⟨rfl, hlen, rfl, rfl, rfl, rfl, rfl⟩

/-- The CONV phase with an operand runs to its end in R211's number of steps. -/
theorem runs_conv {i : Instr} {q : Radix} {s : State} (hp : s.phase = .conv) (hq : i.radix = some q) (hw : s.wLen ≠ 0) :
    ∃ t, Runs i (convSteps q s.wLen) s t ∧ Converted q s t ∧ WentOn i.isFmt .rend s t := by
  by_cases hdec : q = .dec
  · subst hdec
    obtain ⟨t, hrun, hloop⟩ := runs_loop hp hq hw le_rfl
    have hlast : exec i t = .next (ddCommit i.isFmt t) := by
      rw [exec_dd hloop.phase hq, ddStep_of_last (by rw [hloop.it, hloop.w.wLen])]
    exact ⟨_, hrun.trans (.one hlast (by simp [hloop.phase])), hloop.commit i.isFmt⟩
  · rw [convSteps_of_pow2 hdec]
    exact ⟨_, .one (exec_conv hp hq) (by simp [hp]), convPhase_converted hdec hw i.isFmt⟩

/-! ### CONV.DEC -/

theorem valLE_eq_zero {bs : List Byte} (h : valLE bs = 0) : ∀ b ∈ bs, b = 0 := by
  induction bs with
  | nil => nofun
  | cons b bs ih =>
    rw [valLE_cons] at h
    exact List.forall_mem_cons.mpr ⟨BitVec.eq_of_toNat_eq (show b.toNat = 0 by omega), ih (by omega)⟩

/-- Settles O35: the loop to its end, then the commit. -/
theorem decimalConversionResult : Obligations.DecimalConversionResult := by
  intro s hp hpos
  obtain ⟨t, hrun, hloop⟩ := runs_loop (i := .convDec) hp rfl hpos.ne' le_rfl
  have hlast : exec .convDec t = .next (ddCommit false t) := by
    rw [exec_convDec_dd hloop.phase, ddStep_of_last (by rw [hloop.it, hloop.w.wLen])]
  have hruns : Runs .convDec (8 * s.wLen + 2) s (ddCommit false t) := hrun.trans (.one hlast (by simp [hloop.phase]))
  obtain ⟨hconv, hfin⟩ := hloop.commit false
  have hhidden := (ddCommit_committed false t).hidden
  have hlen : (rawDigits .dec s.wBytes).length = cap s.wLen := (rawDigits_length ..).trans (congrArg cap (wBytes_length s))
  have hhead : (rawDigits .dec s.wBytes)[0]? = some 0 := by
    refine head_eq_zero (List.length_pos_iff.mp (hlen ▸ cap_pos _)) ?_
    rw [hlen]
    exact lt_ten_pow_cap_of_wBytes (valMS_rawDigits .dec s.wBytes).le
  have hzero : valLE t.sBuf = 0 := by
    rw [hloop.dabble.s_value, hloop.it, hloop.w.wLen, Nat.mul_mod_left]
  rw [← hconv.digBuf] at hlen hhead
  refine ⟨_, hruns.run, hfin, hconv.digLen, hlen.trans hconv.digLen.symm, hconv.digRadix, ?_, fun d hd => ?_, hhead, hconv.txtLen,
    (execTimes_frame hruns.run).1, hconv.w, ?_, ?_⟩
  · rw [hconv.digBuf]
    exact valMS_rawDigits .dec s.wBytes
  · rw [hconv.digBuf] at hd
    exact Nat.le_of_lt_succ (rawDigits_lt d hd)
  · rw [hhidden.sBuf]
    exact valLE_eq_zero hzero
  · rw [hhidden.carry]
    exact hloop.carry (by omega)

end Sys2Proof.Machine
end

section
/-! PROOF. The phases of FMT are those of NORM, CONV and REND (`44_composite_fmt.md` R170), and the run of a whole FMT command
(R172, R173). -/

namespace Sys2Proof.Machine

/-! ### Phase by phase (R170) -/

theorem exec_normOf_norm {s : State} (hp : s.phase = .norm) (v : Bool) (o : ByteOrder) (k : InputKind) :
    exec (normOf v o k) s = .next (normPhase (normKind v o k s) false s) := by
  rw [exec_norm hp (normOf_operand v o k s), normOf_isFmt]

/-- Settles O52: one NORM phase, which FMT leaves another way when it succeeds. -/
theorem fmtNormPhaseIsNorm : Obligations.FmtNormPhaseIsNorm := by
  intro q v o k s hp he
  refine ⟨_, _, exec_normOf_norm hp v o k, exec_fmtOf_norm hp q v o k, ?_⟩
  cases normKind v o k s with
  | error e => exact ⟨fun _ => rfl, nofun⟩
  | ok bs => exact ⟨fun hne => absurd he hne, fun _ => rfl⟩

theorem exec_convOf_conv {s : State} (hp : s.phase = .conv) (q : Radix) : exec (convOf q) s = .next (convPhase false s q) := by
  rw [exec_conv hp (convOf_radix q), convOf_isFmt]

theorem exec_fmtOf_conv {s : State} (hp : s.phase = .conv) (q : Radix) (v : Bool) (o : ByteOrder) (k : InputKind) :
    exec (fmtOf q v o k) s = .next (convPhase true s q) := by
  rw [exec_conv hp (fmtOf_radix q v o k), fmtOf_isFmt]

theorem exec_fmtOf_rend {s : State} (hp : s.phase = .rend) (q : Radix) (v : Bool) (o : ByteOrder) (k : InputKind) :
    exec (fmtOf q v o k) s = .next (rendPhase s) := exec_rend hp (fmtOf_renders q v o k)

/-- Settles O53: the digits loaded, the loop entered, the text loaded. -/
theorem fmtLaterPhasesAreConvAndRend : Obligations.FmtLaterPhasesAreConvAndRend := by
  refine fun q v o k s _ => ⟨fun hp hw hq => ?pow2, fun hp _ hq => ?dec, fun hp hd => ?rend⟩
  case pow2 =>
    have hload (fmt : Bool) : convPhase fmt s q = proceed fmt .rend (loadDigits q (rawDigits q s.wBytes) (beginConv s)) := by
      rw [convPhase_of_pow2 hq, radixPhase_of_operand hw.ne']
    refine ⟨_, exec_convOf_conv hp q, (exec_fmtOf_conv hp q v o k).trans ?_⟩
    rw [hload, hload]
    rfl
  case dec =>
    subst hq
    rw [exec_fmtOf_conv hp, exec_decimal_conv hp (.inl rfl)]
    rfl
  case rend => exact ⟨_, exec_rend_rend hp, exec_fmtOf_rend hp q v o k, (rendPhase_result hd.ne').finished⟩

/-! ### The whole command -/

/-- The results of an FMT command in radix `q` whose NORM phase gave the bytes `bs`. -/
structure Formatted (q : Radix) (bs : List Byte) (s t : State) : Prop where
  finished : Finished s t
  wBuf : t.wBuf = bs
  wLen : t.wLen = bs.length
  digBuf : t.digBuf = rawDigits q bs
  digLen : t.digLen = digitCount q bs.length
  digRadix : t.digRadix = q
  txtBuf : t.txtBuf = renderText s.cfg.bfw q (rawDigits q bs)
  txtLen : t.txtLen = (renderText s.cfg.bfw q (rawDigits q bs)).length

/-- REND after a conversion of the bytes `bs`. -/
theorem Converted.rendPhase_formatted {q : Radix} {bs : List Byte} {s t : State} (h : Converted q s t) (hw : s.wBuf = bs)
    (hlen : s.wLen = bs.length) (hpos : bs.length ≠ 0) : Formatted q bs t (rendPhase t) := by
  have hbytes : s.wBytes = bs := (elems_eq_self (hw ▸ hlen.symm) _).trans hw
  have hbuf : t.digBuf = rawDigits q bs := h.digBuf.trans (congrArg _ hbytes)
  have hcount : t.digLen = digitCount q bs.length := h.digLen.trans (congrArg _ hlen)
  have hdigits : t.digits = rawDigits q bs := by
    refine (elems_eq_self ?_ _).trans hbuf
    rw [hbuf, hcount, rawDigits_length]
  have hdig : t.digLen ≠ 0 := by
    have := two_le_digitCount q (Nat.pos_of_ne_zero hpos)
    omega
  obtain ⟨hfin, hsameW, htxtLen, htxtBuf⟩ := rendPhase_result hdig
  obtain ⟨_, _, hsame, _⟩ := rendPhase_frame t
  rw [h.digRadix, hdigits] at htxtLen htxtBuf
  exact ⟨hfin, hsameW.wBuf.trans (h.w.wBuf.trans hw), hsameW.wLen.trans (h.w.wLen.trans hlen), hsame.digBuf.trans hbuf,
    hsame.digLen.trans hcount, hsame.digRadix.trans h.digRadix, htxtBuf, htxtLen⟩

/-- Of the state before, the results read the straps and ERR only. -/
theorem Formatted.of_straps {q : Radix} {bs : List Byte} {s s' t : State} (h : Formatted q bs s' t) (hcfg : s'.cfg = s.cfg)
    (herr : s'.status.err = s.status.err) : Formatted q bs s t :=
  { h with
    finished := ⟨h.finished.1, h.finished.2.trans (by rw [herr])⟩
    txtBuf := hcfg ▸ h.txtBuf
    txtLen := hcfg ▸ h.txtLen }

/-- The bytes and the width policy decide every result. -/
theorem Formatted.same {q : Radix} {bs : List Byte} {s t s' t' : State} (h : Formatted q bs s t) (h' : Formatted q bs s' t')
    (hbfw : s'.cfg.bfw = s.cfg.bfw) : SameW t t' ∧ SameDig t t' ∧ SameTxt t t' := by
  refine ⟨⟨?_, ?_⟩, ⟨?_, ?_, ?_⟩, ⟨?_, ?_⟩⟩
  · rw [h.wLen, h'.wLen]
  · rw [h.wBuf, h'.wBuf]
  · rw [h.digLen, h'.digLen]
  · rw [h.digBuf, h'.digBuf]
  · rw [h.digRadix, h'.digRadix]
  · rw [h.txtLen, h'.txtLen, hbfw]
  · rw [h.txtBuf, h'.txtBuf, hbfw]

/-- A NORM phase that fails is the whole command (R171). -/
theorem runs_fmt_error {q : Radix} {v : Bool} {o : ByteOrder} {k : InputKind} {s : State} {e : Err} (hp : s.phase = .norm)
    (hr : normKind v o k s = .error e) : Runs (fmtOf q v o k) 1 s (raiseError e (beginNorm s)) := by
  refine .one ?_ (by simp [hp])
  rw [exec_fmtOf_norm hp, hr]
  rfl

/-- A NORM phase that succeeds leads to the end through all phases in R211's number of steps. -/
theorem runs_fmt {q : Radix} {v : Bool} {o : ByteOrder} {k : InputKind} {s : State} {bs : List Byte} (hp : s.phase = .norm)
    (hr : normKind v o k s = .ok bs) :
    ∃ t, Runs (fmtOf q v o k) (stepCount bs.length (fmtOf q v o k)) s t ∧ Formatted q bs s t := by
  have hpos : bs.length ≠ 0 := (normKind_ok_pos hr).ne'
  have hnorm : exec (fmtOf q v o k) s = .next (normPhase (.ok bs) true s) := by rw [exec_fmtOf_norm hp, hr]
  obtain ⟨b, hrun, hconv, hon⟩ := runs_conv (s := normPhase (.ok bs) true s) rfl (fmtOf_radix q v o k) hpos
  rw [fmtOf_isFmt] at hon
  obtain ⟨hphase, hstatus⟩ := hon
  obtain ⟨hout, _⟩ := execTimes_frame hrun.run
  refine ⟨rendPhase b, ?_, (hconv.rendPhase_formatted rfl rfl hpos).of_straps hout.cfg (congrArg Status.err hstatus)⟩
  rw [stepCount_fmtOf]
  exact ((Runs.one hnorm (by simp [hp])).trans hrun).trans (.one (exec_fmtOf_rend hphase q v o k) (by simp [hphase]))

theorem normKind_of_fits {s : State} {kind : InputKind} (hk : kind.isBytes = true) (hpos : 0 < s.inLen) (hfit : s.inLen ≤ s.lmaxr)
    (v : Bool) (o : ByteOrder) : normKind v o kind s = .ok (orient (effectiveOrder v o s.cfg) (s.inBytes s.inLen)) := by
  rw [normKind_of_isBytes hk, normBytes_of_fits hpos hfit]

/-- Settles O54: the text of the raw digits of W's bytes is the numeral of their value. -/
theorem fmtTextIsNumeralOfInput : Obligations.FmtTextIsNumeralOfInput := by
  intro q v o kind s hp hk hpos hfit hpolicy order value
  obtain ⟨t, hrun, hfmt⟩ := runs_fmt (q := q) hp (normKind_of_fits hk hpos hfit v o)
  have hlen : (orient (effectiveOrder v o s.cfg) (s.inBytes s.inLen)).length = s.inLen := by simp
  have hvalue : valMS q.base (rawDigits q (orient (effectiveOrder v o s.cfg) (s.inBytes s.inLen))) = value := valMS_rawDigits ..
  have hne : rawDigits q (orient (effectiveOrder v o s.cfg) (s.inBytes s.inLen)) ≠ [] := by
    rw [← List.length_pos_iff, rawDigits_length, hlen]
    have := two_le_digitCount q hpos
    omega
  have htext : renderText s.cfg.bfw q (rawDigits q (orient (effectiveOrder v o s.cfg) (s.inBytes s.inLen))) = numeral q value := by
    rw [renderText_eq_numeral hpolicy hne rawDigits_lt, hvalue]
  rw [hlen] at hrun
  refine ⟨t, hrun.run, hfmt.finished, hfmt.txtBuf.trans htext, hfmt.txtLen.trans (congrArg List.length htext), hfmt.wBuf,
    hfmt.wLen.trans hlen, hfmt.digRadix, ?_, ?_, (execTimes_frame hrun.run).1⟩
  · rw [hfmt.digBuf, hvalue]
  · rw [hfmt.digBuf, hfmt.digLen, rawDigits_length]

/-- Settles O57: both operands give the same bytes of W, and these decide DIG and TXT. -/
theorem byteOrderSymmetry : Obligations.ByteOrderSymmetry := by
  intro s s' kind q hk hp hp' hlen hpos hfit hl hbfw hrev
  have hr (o : ByteOrder) := normKind_of_fits hk hpos hfit true o
  have hr' (o : ByteOrder) := normKind_of_fits (s := s') hk (hlen ▸ hpos) (by rw [hlen, hl]; exact hfit) true o
  have hbytes : orient (effectiveOrder true .littleEndian s'.cfg) (s'.inBytes s'.inLen) =
      orient (effectiveOrder true .bigEndian s.cfg) (s.inBytes s.inLen) := hrev
  have hnorm := hr' .littleEndian
  rw [hbytes] at hnorm
  refine ⟨⟨_, _, exec_normB_norm hp .., exec_normB_norm hp' .., ?_⟩, ?_⟩
  · rw [← normKind_of_isBytes hk, ← normKind_of_isBytes hk, hr, hnorm]
    exact ⟨rfl, rfl⟩
  · obtain ⟨t, hrun, hfmt⟩ := runs_fmt (q := q) hp (hr .bigEndian)
    obtain ⟨t', hrun', hfmt'⟩ := runs_fmt (q := q) hp' hnorm
    have hcount : stepCount (orient (effectiveOrder true .bigEndian s.cfg) (s.inBytes s.inLen)).length (fmtOf q true .littleEndian kind) =
        stepCount (orient (effectiveOrder true .bigEndian s.cfg) (s.inBytes s.inLen)).length (fmtOf q true .bigEndian kind) := by
      rw [stepCount_fmtOf, stepCount_fmtOf]
    rw [hcount] at hrun'
    obtain ⟨_, hdig, htxt⟩ := hfmt.same hfmt' hbfw
    exact ⟨t, t', _, hrun.run, hrun'.run, hfmt.finished.1, hfmt'.finished.1, htxt, hdig⟩

end Sys2Proof.Machine
end

section
/-! PROOF. A whole command by the word given: what `runCommand` leaves, for each OP (`20_memory.md` R46, `70_reset_and_hazards.md`
R211). -/

namespace Sys2Proof.Machine

/-! ### An accepted command starts in the phase of its OP (R46) -/

theorem acceptCommand_phase_norm {w : Byte} (hop : opField w = 0 ∨ opField w = 3) (s : State) : (acceptCommand w s).phase = .norm := by
  rcases hop with hop | hop <;> simp [startPhase, hop]

theorem acceptCommand_phase_conv {w : Byte} (hop : opField w = 1) (s : State) : (acceptCommand w s).phase = .conv := by
  simp [startPhase, hop]

theorem acceptCommand_phase_rend {w : Byte} (hop : opField w = 2) (s : State) : (acceptCommand w s).phase = .rend := by
  simp [startPhase, hop]

/-- The NORM phase does not read what the accepted write changes. -/
theorem normKind_acceptCommand (w : Byte) (v : Bool) (o : ByteOrder) (k : InputKind) (s : State) :
    normKind v o k (acceptCommand w s) = normKind v o k s := by
  cases k <;> rfl

/-! ### The four families -/

theorem normPhase_single_idle (r : Except Err (List Byte)) (s : State) : (normPhase r false s).phase = .idle := by
  cases r <;> rfl

theorem rendPhase_idle (s : State) : (rendPhase s).phase = .idle := by
  rcases rendPhase_cases s with ⟨_, h⟩ | ⟨_, h⟩ <;> rw [h] <;> rfl

theorem runCommand_norm {w : Byte} {v : Bool} {o : ByteOrder} {k : InputKind} (hw : decodeWord w = normOf v o k) (hop : opField w = 0)
    (s : State) : runCommand w s = .next (normPhase (normKind v o k s) false (acceptCommand w s)) := by
  refine runCommand_of_ends ?_ (normPhase_single_idle ..)
  rw [hw, exec_normOf_norm (acceptCommand_phase_norm (.inl hop) s), normKind_acceptCommand]

theorem runCommand_rend {w : Byte} (hop : opField w = 2) (s : State) : runCommand w s = .next (rendPhase (acceptCommand w s)) := by
  refine runCommand_of_ends ?_ (rendPhase_idle _)
  rw [decodeWord_rend hop, exec_rend_rend (acceptCommand_phase_rend hop s)]

theorem runCommand_conv_fails {w : Byte} {q : Radix} (hw : decodeWord w = convOf q) (hop : opField w = 1) {s : State} (h : s.wLen = 0) :
    runCommand w s = .next (raiseError .emptyInput (beginConv (acceptCommand w s))) :=
  runCommand_of_ends (hw ▸ exec_convOf_empty (acceptCommand_phase_conv hop s) h q) rfl

theorem convSteps_le (q : Radix) (len : Nat) : convSteps q len ≤ 8 * len + 2 := by
  cases q <;> simp only [convSteps] <;> omega

theorem runCommand_conv {w : Byte} {q : Radix} (hw : decodeWord w = convOf q) (hop : opField w = 1) {s : State} (h : s.wLen ≠ 0) :
    ∃ t, runCommand w s = .next t ∧ Converted q (acceptCommand w s) t ∧ Finished (acceptCommand w s) t := by
  obtain ⟨t, hrun, hconv, hfin⟩ := runs_conv (acceptCommand_phase_conv hop s) (convOf_radix q) h
  rw [convOf_isFmt] at hfin
  refine ⟨t, (hw ▸ hrun).runCommand hfin.1 ?_, hconv, hfin⟩
  have := convSteps_le q s.wLen
  have := le_max_right s.lmaxr s.wLen
  rw [acceptCommand_wLen]
  omega

theorem runCommand_fmt_fails {w : Byte} {q : Radix} {v : Bool} {o : ByteOrder} {k : InputKind} (hw : decodeWord w = fmtOf q v o k)
    (hop : opField w = 3) {s : State} {e : Err} (hr : normKind v o k s = .error e) :
    runCommand w s = .next (raiseError e (beginNorm (acceptCommand w s))) := by
  have hrun := runs_fmt_error (q := q) (acceptCommand_phase_norm (.inr hop) s) ((normKind_acceptCommand w v o k s).trans hr)
  exact (hw ▸ hrun).runCommand rfl (by omega)

theorem runCommand_fmt {w : Byte} {q : Radix} {v : Bool} {o : ByteOrder} {k : InputKind} (hw : decodeWord w = fmtOf q v o k)
    (hop : opField w = 3) {s : State} {bs : List Byte} (hr : normKind v o k s = .ok bs) :
    ∃ t, runCommand w s = .next t ∧ Formatted q bs (acceptCommand w s) t := by
  obtain ⟨t, hrun, hfmt⟩ :=
    runs_fmt (q := q) (acceptCommand_phase_norm (.inr hop) s) ((normKind_acceptCommand w v o k s).trans hr)
  refine ⟨t, (hw ▸ hrun).runCommand hfmt.finished.1 ?_, hfmt⟩
  have := convSteps_le q bs.length
  have := normKind_ok_fits hr
  have := le_max_left s.lmaxr s.wLen
  rw [hw, stepCount_fmtOf]
  omega

/-- Every command from every state ends in a next state. -/
theorem runCommand_next (w : Byte) (s : State) : ∃ t, runCommand w s = .next t := by
  rcases opField_cases w with hop | hop | hop | hop
  · exact ⟨_, runCommand_norm (decodeWord_norm hop) hop s⟩
  · by_cases hw : s.wLen = 0
    · exact ⟨_, runCommand_conv_fails (decodeWord_conv hop) hop hw⟩
    · obtain ⟨t, ht, _⟩ := runCommand_conv (decodeWord_conv hop) hop hw
      exact ⟨t, ht⟩
  · exact ⟨_, runCommand_rend hop s⟩
  · cases hr : normKind (ordvField w) (.ofCode (ordField w)) (.ofCode (kindField w)) s with
    | error e => exact ⟨_, runCommand_fmt_fails (decodeWord_fmt hop) hop hr⟩
    | ok bs =>
      obtain ⟨t, ht, _⟩ := runCommand_fmt (decodeWord_fmt hop) hop hr
      exact ⟨t, ht⟩

theorem execTimes_runCommand_frame {w : Byte} {s t : State} (h : runCommand w s = .next t) :
    t.cfg = s.cfg ∧ t.inLen = s.inLen ∧ t.inBuf = s.inBuf := by
  obtain ⟨hout, hin⟩ := execTimes_frame h
  exact ⟨hout.cfg, hout.inLen, hin⟩

end Sys2Proof.Machine
end

section
/-! PROOF. FMT against NORM, CONV and REND one after another (`44_composite_fmt.md` R171). -/

namespace Sys2Proof.Machine

theorem opField_encode_normOf (v : Bool) (o : ByteOrder) (k : InputKind) : opField (encode (normOf v o k)) = 0 := by
  rw [encode_normOf, opField_packWord]

theorem opField_encode_convOf (q : Radix) : opField (encode (convOf q)) = 1 := by
  rw [encode_convOf, opField_packWord]

theorem opField_encode_rend : opField (encode .rend) = 2 := opField_packWord ..

theorem opField_encode_fmtOf (q : Radix) (v : Bool) (o : ByteOrder) (k : InputKind) : opField (encode (fmtOf q v o k)) = 3 := by
  rw [encode_fmtOf, opField_packWord]

/-- The digits stay in place while the next command is accepted. -/
theorem Converted.accept {q : Radix} {s t : State} (h : Converted q s t) (w : Byte) : Converted q s (acceptCommand w t) :=
  { h with w := ⟨h.w.wLen, h.w.wBuf⟩ }

/-- The staged commands after a NORM that failed. -/
theorem staged_of_error {q : Radix} {v : Bool} {o : ByteOrder} {k : InputKind} {s : State} {e : Err} (hr : normKind v o k s = .error e) :
    ∃ a b c t, runCommand (encode (normOf v o k)) s = .next a ∧ runCommand (encode (convOf q)) a = .next b ∧
      runCommand (encode .rend) b = .next c ∧ runCommand (encode (fmtOf q v o k)) s = .next t ∧
      a.status.err = some e ∧ SameResults a t ∧ b.status.err = some .emptyInput ∧ c.status.err = some .emptyInput := by
  have ha := runCommand_norm (decodeWord_encode_normOf v o k) (opField_encode_normOf v o k) s
  rw [hr] at ha
  have hb := runCommand_conv_fails (decodeWord_encode_convOf q) (opField_encode_convOf q)
    (normPhase_error_wLen e false (acceptCommand (encode (normOf v o k)) s))
  have hc := runCommand_rend opField_encode_rend
    (raiseError .emptyInput (beginConv (acceptCommand (encode (convOf q))
      (normPhase (.error e) false (acceptCommand (encode (normOf v o k)) s)))))
  have ht := runCommand_fmt_fails (decodeWord_encode_fmtOf q v o k) (opField_encode_fmtOf q v o k) hr
  exact ⟨_, _, _, _, ha, hb, hc, ht, rfl, ⟨rfl, rfl, ⟨rfl, rfl⟩, ⟨rfl, rfl, rfl⟩, ⟨rfl, rfl⟩, rfl⟩, rfl, rfl⟩

/-- The staged commands after a NORM that succeeded give what FMT gives. -/
theorem staged_of_ok {q : Radix} {v : Bool} {o : ByteOrder} {k : InputKind} {s : State} {bs : List Byte}
    (hr : normKind v o k s = .ok bs) :
    ∃ a b c t, runCommand (encode (normOf v o k)) s = .next a ∧ runCommand (encode (convOf q)) a = .next b ∧
      runCommand (encode .rend) b = .next c ∧ runCommand (encode (fmtOf q v o k)) s = .next t ∧
      a.status.err = none ∧ b.status.err = none ∧ c.status.err = none ∧ SameResults c t := by
  have hpos : bs.length ≠ 0 := (normKind_ok_pos hr).ne'
  have ha := runCommand_norm (decodeWord_encode_normOf v o k) (opField_encode_normOf v o k) s
  rw [hr] at ha
  obtain ⟨b, hb, hconv, hbfin⟩ := runCommand_conv (decodeWord_encode_convOf q) (opField_encode_convOf q)
    (s := normPhase (.ok bs) false (acceptCommand (encode (normOf v o k)) s)) hpos
  have hc := runCommand_rend opField_encode_rend b
  obtain ⟨t, ht, hfmt⟩ := runCommand_fmt (decodeWord_encode_fmtOf q v o k) (opField_encode_fmtOf q v o k) hr
  have hcfmt := (hconv.accept (encode .rend)).rendPhase_formatted rfl rfl hpos
  obtain ⟨hacfg, halen, hain⟩ := execTimes_runCommand_frame ha
  obtain ⟨hbcfg, hblen, hbin⟩ := execTimes_runCommand_frame hb
  obtain ⟨_, hclen, hcin⟩ := execTimes_runCommand_frame hc
  obtain ⟨_, htlen, htin⟩ := execTimes_runCommand_frame ht
  obtain ⟨hw, hdig, htxt⟩ := hcfmt.same hfmt (congrArg Cfg.bfw (hbcfg.trans hacfg).symm)
  have hcerr : (rendPhase (acceptCommand (encode .rend) b)).status.err = none := congrArg Status.err hcfmt.finished.2
  have hterr : t.status.err = none := congrArg Status.err hfmt.finished.2
  exact ⟨_, b, _, t, ha, hb, hc, ht, rfl, congrArg Status.err hbfin.2, hcerr,
    ⟨htlen.trans (hclen.trans (hblen.trans halen)).symm, htin.trans (hcin.trans (hbin.trans hain)).symm, hw, hdig, htxt,
      hterr.trans hcerr.symm⟩⟩

/-- Settles O55, by the result of the NORM phase that both share. -/
theorem fmtEqualsStagedCommands : Obligations.FmtEqualsStagedCommands := by
  intro q v o k s _ _
  cases hr : normKind v o k s with
  | error e =>
    obtain ⟨a, b, c, t, ha, hb, hc, ht, haerr, hsame, hberr, hcerr⟩ := staged_of_error (q := q) hr
    exact ⟨a, b, c, t, ha, hb, hc, ht, fun h => absurd (haerr.symm.trans h) (Option.some_ne_none e), fun _ => ⟨hsame, hberr, hcerr⟩⟩
  | ok bs =>
    obtain ⟨a, b, c, t, ha, hb, hc, ht, haerr, hberr, hcerr, hsame⟩ := staged_of_ok (q := q) hr
    exact ⟨a, b, c, t, ha, hb, hc, ht, fun _ => ⟨hberr, hcerr, hsame⟩, fun h => absurd haerr h⟩

end Sys2Proof.Machine
end

section
/-! PROOF. How many steps a command takes (`70_reset_and_hazards.md` R211, R213). -/

namespace Sys2Proof.Machine

theorem stepCount_normOf (v : Bool) (o : ByteOrder) (k : InputKind) (len : Nat) : stepCount len (normOf v o k) = 1 := by
  cases k <;> rfl

theorem normPhase_single_done (r : Except Err (List Byte)) (s : State) : (normPhase r false s).status.done = true := by
  cases r <;> rfl

theorem rendPhase_done (s : State) : (rendPhase s).status.done = true := by
  rcases rendPhase_cases s with ⟨_, h⟩ | ⟨_, h⟩ <;> rw [h] <;> rfl

/-- Settles O58, for each OP. -/
theorem commandStepCounts : Obligations.CommandStepCounts := by
  intro s h hb hstart i
  have herr : s.status.err = none := congrArg Status.err (h.status_of_busy hb)
  rcases opField_cases s.cmd with hop | hop | hop | hop
  · have hp : s.phase = .norm := by rw [hstart, startPhase, hop]; rfl
    have hi : i = normOf (ordvField s.cmd) (.ofCode (ordField s.cmd)) (.ofCode (kindField s.cmd)) := decodeWord_norm hop
    have hrun := Runs.one (exec_normOf_norm hp (ordvField s.cmd) (.ofCode (ordField s.cmd)) (.ofCode (kindField s.cmd))) (by simp [hp])
    rw [hi]
    exact ⟨1, _, hrun.run, normPhase_single_idle .., normPhase_single_done .., by rw [stepCount_normOf, ite_self], hrun.busy⟩
  · have hp : s.phase = .conv := by rw [hstart, startPhase, hop]; rfl
    have hi : i = convOf (.ofCode (radixField s.cmd)) := decodeWord_conv hop
    rw [hi]
    by_cases hw : s.wLen = 0
    · have hrun := Runs.one (exec_convOf_empty hp hw (.ofCode (radixField s.cmd))) (by simp [hp])
      exact ⟨1, _, hrun.run, rfl, rfl, rfl, hrun.busy⟩
    · obtain ⟨t, hrun, hconv, hfin⟩ := runs_conv hp (convOf_radix (.ofCode (radixField s.cmd))) hw
      rw [convOf_isFmt] at hfin
      have hterr : t.status.err = none := (congrArg Status.err hfin.2).trans herr
      exact ⟨_, t, hrun.run, hfin.1, congrArg Status.done hfin.2, by rw [if_pos hterr, stepCount_convOf, hconv.w.wLen], hrun.busy⟩
  · have hp : s.phase = .rend := by rw [hstart, startPhase, hop]; rfl
    have hi : i = .rend := decodeWord_rend hop
    have hrun := Runs.one (exec_rend_rend hp) (by simp [hp])
    rw [hi]
    exact ⟨1, _, hrun.run, rendPhase_idle s, rendPhase_done s, (ite_self 1).symm, hrun.busy⟩
  · have hp : s.phase = .norm := by rw [hstart, startPhase, hop]; rfl
    have hi : i = fmtOf (.ofCode (radixField s.cmd)) (ordvField s.cmd) (.ofCode (ordField s.cmd)) (.ofCode (kindField s.cmd)) :=
      decodeWord_fmt hop
    rw [hi]
    cases hr : normKind (ordvField s.cmd) (.ofCode (ordField s.cmd)) (.ofCode (kindField s.cmd)) s with
    | error e =>
      have hrun := runs_fmt_error (q := .ofCode (radixField s.cmd)) hp hr
      exact ⟨1, _, hrun.run, rfl, rfl, rfl, hrun.busy⟩
    | ok bs =>
      obtain ⟨t, hrun, hfmt⟩ := runs_fmt (q := .ofCode (radixField s.cmd)) hp hr
      have hterr : t.status.err = none := (congrArg Status.err hfmt.finished.2).trans herr
      exact ⟨_, t, hrun.run, hfmt.finished.1, congrArg Status.done hfmt.finished.2, by rw [if_pos hterr, hfmt.wLen], hrun.busy⟩

/-! ### The bound from any state of the invariant (R213) -/

/-- A bound on the engine steps to the end of the running command. -/
def stepsLeft (s : State) : Nat :=
  match s.phase with
  | .idle => 0
  | .norm => 8 * s.lmaxr + 4
  | .conv => 8 * s.wLen + 3
  | .dd => 8 * s.wLen - s.it + 2
  | .rend => 1

theorem stepsLeft_le {s : State} (h : s.Inv) : stepsLeft s ≤ 8 * s.lmaxr + 4 := by
  have := h.w_fits
  cases hp : s.phase <;> simp only [stepsLeft, hp] <;> omega

theorem stepsLeft_of_idle {s : State} (h : s.phase = .idle) : stepsLeft s = 0 := by
  simp only [stepsLeft, h]

theorem stepsLeft_of_norm {s : State} (h : s.phase = .norm) : stepsLeft s = 8 * s.lmaxr + 4 := by
  simp only [stepsLeft, h]

theorem stepsLeft_of_conv {s : State} (h : s.phase = .conv) : stepsLeft s = 8 * s.wLen + 3 := by
  simp only [stepsLeft, h]

theorem stepsLeft_of_dd {s : State} (h : s.phase = .dd) : stepsLeft s = 8 * s.wLen - s.it + 2 := by
  simp only [stepsLeft, h]

theorem stepsLeft_proceed_rend (fmt : Bool) (s : State) : stepsLeft (proceed fmt .rend s) ≤ 1 := by
  cases fmt <;> simp [stepsLeft]

theorem stepsLeft_normPhase {r : Except Err (List Byte)} {fmt : Bool} {s : State} (hr : ∀ bs, r = .ok bs → bs.length ≤ s.lmaxr) :
    stepsLeft (normPhase r fmt s) ≤ 8 * s.lmaxr + 3 := by
  cases r with
  | error e => exact Nat.zero_le _
  | ok bs =>
    have hfit := hr bs rfl
    cases fmt with
    | false => exact Nat.zero_le _
    | true =>
      show 8 * bs.length + 3 ≤ 8 * s.lmaxr + 3
      omega

theorem stepsLeft_convPhase (fmt : Bool) (s : State) (q : Radix) : stepsLeft (convPhase fmt s q) ≤ 8 * s.wLen + 2 := by
  by_cases hw : s.wLen = 0
  · rw [convPhase_of_empty hw]
    exact Nat.zero_le _
  · rcases convPhase_of_operand hw fmt q with ⟨_, he⟩ | ⟨_, he⟩
    · exact he ▸ le_rfl
    · rw [he]
      exact (stepsLeft_proceed_rend ..).trans (by omega)

theorem stepsLeft_ddStep {s : State} (hp : s.phase = .dd) (fmt : Bool) : stepsLeft (ddStep fmt s) < 8 * s.wLen - s.it + 2 := by
  by_cases hit : s.it < 8 * s.wLen
  · have hiter : stepsLeft (ddIterate s) = 8 * s.wLen - (s.it + 1) + 2 := by simp [stepsLeft, ddIterate, hp]
    rw [ddStep_of_more hit, hiter]
    omega
  · rw [ddStep_of_last (not_lt.mp hit)]
    exact (stepsLeft_proceed_rend ..).trans_lt (by omega)

/-- Every step of a running command leaves fewer. -/
theorem ExecStep.stepsLeft_lt {w : Byte} {s t : State} (h : ExecStep (decodeWord w) s t) (hs : s.phase ≠ .idle) :
    stepsLeft t < stepsLeft s := by
  cases h with
  | idle hp => exact absurd hp hs
  | norm hp hr =>
    obtain ⟨_, rfl⟩ := (operand_decodeWord ..).mp hr
    rw [stepsLeft_of_norm hp]
    exact Nat.lt_succ_of_le (stepsLeft_normPhase fun bs hb => normKind_ok_fits hb)
  | @conv q hp _ =>
    rw [stepsLeft_of_conv hp]
    exact Nat.lt_succ_of_le (stepsLeft_convPhase ..)
  | dd hp _ =>
    rw [stepsLeft_of_dd hp]
    exact stepsLeft_ddStep hp _
  | rend hp _ => simp [stepsLeft, hp, rendPhase_idle]

/-- BUSY falls only together with DONE's rise (`10_state.md` R23, `60_exceptions.md` R184). -/
theorem ExecStep.busy_or_done {i : Instr} {s t : State} (h : ExecStep i s t) (hs : s.status.busy = true ∨ s.status.done = true) :
    t.status.busy = true ∨ t.status.done = true := by
  have hproceed (fmt : Bool) (p : Phase) (u : State) (hu : u.status = s.status) :
      (proceed fmt p u).status.busy = true ∨ (proceed fmt p u).status.done = true := by
    cases fmt with
    | false => exact .inr rfl
    | true => exact hu ▸ hs
  cases h with
  | idle _ => exact hs
  | @norm r _ _ =>
    cases r with
    | error e => exact .inr rfl
    | ok bs => exact hproceed _ _ _ rfl
  | @conv q _ _ =>
    by_cases hw : s.wLen = 0
    · rw [convPhase_of_empty hw]
      exact .inr rfl
    · rcases convPhase_of_operand hw i.isFmt q with ⟨_, he⟩ | ⟨_, he⟩
      · exact he ▸ hs
      · exact he ▸ hproceed _ _ _ rfl
  | dd _ _ =>
    by_cases hit : s.it < 8 * s.wLen
    · rw [ddStep_of_more hit]
      exact hs
    · rw [ddStep_of_last (not_lt.mp hit)]
      exact hproceed _ _ _ rfl
  | rend _ _ => exact .inr (rendPhase_done s)

/-- With no host action pending, as many steps as are left end the command. -/
theorem stepTimes_ends {k : Nat} {s : State} (h : s.Inv) (hs : s.script = []) (hk : stepsLeft s ≤ k) :
    ∃ t, stepTimes k s = .next t ∧ t.status.busy = false ∧
      (s.status.busy = true ∨ s.status.done = true → t.status.done = true) := by
  induction k generalizing s with
  | zero =>
    have hp : s.phase = .idle := by
      by_contra hne
      obtain ⟨t, ht⟩ := h.engineTurn_next
      exact absurd ((exec_next ht).stepsLeft_lt hne) (by omega)
    have hb := h.idle_iff.mp hp
    exact ⟨s, rfl, hb, fun hs => hs.resolve_left (by simp [hb])⟩
  | succ k ih =>
    obtain ⟨t, ht⟩ := h.engineTurn_next
    have hstep := exec_next ht
    have hleft : stepsLeft t ≤ k := by
      by_cases hp : s.phase = .idle
      · cases ht.symm.trans (exec_of_idle _ hp)
        rw [stepsLeft_of_idle hp]
        exact Nat.zero_le k
      · have := hstep.stepsLeft_lt hp
        omega
    obtain ⟨u, hu, hb, hd⟩ := ih (h.engineTurn ht) (hstep.sameOutside.script.trans hs) hleft
    exact ⟨u, (stepTimes_succ ((step_nil hs).trans ht) k).trans hu, hb, fun hbd => hd (hstep.busy_or_done hbd)⟩

/-- Settles O59. -/
theorem busyClearsWithinBound : Obligations.BusyClearsWithinBound := by
  intro s h hs
  obtain ⟨t, ht, hb, hd⟩ := stepTimes_ends h hs (stepsLeft_le h)
  exact ⟨t, ht, hb, fun hbusy => hd (.inl hbusy)⟩

end Sys2Proof.Machine
end

section
/-! PROOF. What a command's results depend on (`10_state.md` R31). -/

namespace Sys2Proof.Machine

/-- An operand the host has written whole is read the same at every draw. -/
theorem inBytes_congr {s s' : State} (hin : s'.inBuf = s.inBuf) {n : Nat} (h : ∀ i < n, s.inBuf.read? i ≠ none) :
    s'.inBytes n = s.inBytes n := by
  refine List.map_congr_left fun i hi => ?_
  obtain ⟨b, hb⟩ := Option.ne_none_iff_exists'.mp (h i (List.mem_range.mp hi))
  rw [inByte_written hb, inByte_written (hin ▸ hb)]

/-- The NORM phase reads the straps, IN_LEN and the operand. -/
theorem normKind_congr {s s' : State} (hcfg : s'.cfg = s.cfg) (hl : s'.lmaxr = s.lmaxr) (hlen : s'.inLen = s.inLen)
    (hin : s'.inBytes s.inLen = s.inBytes s.inLen) (v : Bool) (o : ByteOrder) (k : InputKind) :
    normKind v o k s' = normKind v o k s := by
  have hbytes (o' : ByteOrder) : normBytes o' s' = normBytes o' s := by simp only [normBytes, hlen, hl, hin]
  cases k with
  | buffer => simp only [normKind, hcfg, hbytes]
  | array => simp only [normKind, hcfg, hbytes]
  | hexstr => simp only [normKind, normHex, hlen, hl, hin]
  | other => rfl

/-- What a NORM or FMT command leaves, of its results and STATUS. -/
structure SameOutcome (s t : State) : Prop where
  w : SameW s t
  digLen : t.digLen = s.digLen
  digBuf : t.digBuf = s.digBuf
  txt : SameTxt s t
  status : t.status = s.status

theorem normPhase_sameOutcome (r : Except Err (List Byte)) {s s' : State} (h : s'.status = s.status) :
    SameOutcome (normPhase r false s) (normPhase r false s') := by
  cases r with
  | error e => exact ⟨⟨rfl, rfl⟩, rfl, rfl, ⟨rfl, rfl⟩, rfl⟩
  | ok bs => exact ⟨⟨rfl, rfl⟩, rfl, rfl, ⟨rfl, rfl⟩, congrArg (fun st => { st with busy := false, done := true }) h⟩

section

variable {w : Byte} {s s' t t' : State} (ht : runCommand w s = .next t) (ht' : runCommand w s' = .next t')

include ht ht'

/-- NORM from two states with the same NORM result. -/
theorem norm_depends (hop : opField w = 0)
    (hr : ∀ v o k, normKind v o k s' = normKind v o k s) : SameOutcome t t' := by
  cases ht.symm.trans (runCommand_norm (decodeWord_norm hop) hop s)
  cases ht'.symm.trans (runCommand_norm (decodeWord_norm hop) hop s')
  rw [hr]
  exact normPhase_sameOutcome _ rfl

/-- FMT from two states with the same NORM result and width policy. -/
theorem fmt_depends (hop : opField w = 3) (hbfw : s'.cfg.bfw = s.cfg.bfw)
    (hr : ∀ v o k, normKind v o k s' = normKind v o k s) :
    SameOutcome t t' ∧ (t.status.err = none → t'.digRadix = t.digRadix) := by
  cases hres : normKind (ordvField w) (.ofCode (ordField w)) (.ofCode (kindField w)) s with
  | error e =>
    cases ht.symm.trans (runCommand_fmt_fails (decodeWord_fmt hop) hop hres)
    cases ht'.symm.trans (runCommand_fmt_fails (decodeWord_fmt hop) hop ((hr ..).trans hres))
    exact ⟨⟨⟨rfl, rfl⟩, rfl, rfl, ⟨rfl, rfl⟩, rfl⟩, nofun⟩
  | ok bs =>
    obtain ⟨u, hu, hfmt⟩ := runCommand_fmt (decodeWord_fmt hop) hop hres
    obtain ⟨u', hu', hfmt'⟩ := runCommand_fmt (decodeWord_fmt hop) hop ((hr ..).trans hres)
    cases ht.symm.trans hu
    cases ht'.symm.trans hu'
    obtain ⟨hsameW, hdig, htxt⟩ := hfmt.same hfmt' hbfw
    exact ⟨⟨hsameW, hdig.digLen, hdig.digBuf, htxt, hfmt'.finished.2.trans hfmt.finished.2.symm⟩, fun _ => hdig.digRadix⟩

/-- CONV from two states with the same ByteSequence. -/
theorem conv_depends (hop : opField w = 1) (hlen : s'.wLen = s.wLen) (hw : s'.wBytes = s.wBytes) :
    t'.digLen = t.digLen ∧ t'.digBuf = t.digBuf ∧ t'.txtLen = t.txtLen ∧ t'.txtBuf = t.txtBuf ∧ t'.status = t.status ∧
      (t.status.err = none → t'.digRadix = t.digRadix) := by
  by_cases h0 : s.wLen = 0
  · cases ht.symm.trans (runCommand_conv_fails (decodeWord_conv hop) hop h0)
    cases ht'.symm.trans (runCommand_conv_fails (decodeWord_conv hop) hop (hlen.trans h0))
    exact ⟨rfl, rfl, rfl, rfl, rfl, nofun⟩
  · obtain ⟨u, hu, hconv, hfin⟩ := runCommand_conv (decodeWord_conv hop) hop h0
    obtain ⟨u', hu', hconv', hfin'⟩ := runCommand_conv (decodeWord_conv hop) hop (hlen.trans_ne h0)
    cases ht.symm.trans hu
    cases ht'.symm.trans hu'
    refine ⟨hconv'.digLen.trans ((congrArg _ hlen).trans hconv.digLen.symm), ?_, hconv'.txtLen.trans hconv.txtLen.symm,
      hconv'.txtBuf.trans hconv.txtBuf.symm, hfin'.2.trans hfin.2.symm, fun _ => hconv'.digRadix.trans hconv.digRadix.symm⟩
    exact hconv'.digBuf.trans ((congrArg (rawDigits _) hw).trans hconv.digBuf.symm)

/-- REND from two states with the same DigitSequence and width policy. -/
theorem rend_depends (hop : opField w = 2) (hbfw : s'.cfg.bfw = s.cfg.bfw) (hlen : s'.digLen = s.digLen)
    (hradix : s'.digRadix = s.digRadix) (hdig : s'.digits = s.digits) : SameTxt t t' ∧ t'.status = t.status := by
  cases ht.symm.trans (runCommand_rend hop s)
  cases ht'.symm.trans (runCommand_rend hop s')
  by_cases h0 : s.digLen = 0
  · rw [rendPhase_of_empty (s := acceptCommand w s) h0, rendPhase_of_empty (s := acceptCommand w s') (hlen.trans h0)]
    exact ⟨⟨rfl, rfl⟩, rfl⟩
  · obtain ⟨hfin, _, htxtLen, htxtBuf⟩ := rendPhase_result (s := acceptCommand w s) h0
    obtain ⟨hfin', _, htxtLen', htxtBuf'⟩ := rendPhase_result (s := acceptCommand w s') (hlen.trans_ne h0)
    have htext : renderText s'.cfg.bfw s'.digRadix s'.digits = renderText s.cfg.bfw s.digRadix s.digits := by rw [hbfw, hradix, hdig]
    exact ⟨⟨htxtLen'.trans ((congrArg _ htext).trans htxtLen.symm), htxtBuf'.trans (htext.trans htxtBuf.symm)⟩,
      hfin'.2.trans hfin.2.symm⟩

end

/-- Settles O60, for each OP. -/
theorem resultsDependOnOperandsOnly : Obligations.ResultsDependOnOperandsOnly := by
  intro w s s' h h' _ _ hcfg hl
  obtain ⟨t, ht⟩ := runCommand_next w s
  obtain ⟨t', ht'⟩ := runCommand_next w s'
  have hbfw : s'.cfg.bfw = s.cfg.bfw := congrArg Cfg.bfw hcfg
  refine ⟨t, t', ht, ht', fun hop hlen hin hwritten => ?normFmt, fun hop hw => ?conv, fun hop hdig => ?rend⟩
  case normFmt =>
    have hr := normKind_congr hcfg hl hlen (inBytes_congr hin hwritten)
    have hout : SameOutcome t t' ∧ (opField w = 3 → t.status.err = none → t'.digRadix = t.digRadix) := by
      rcases hop with hop | hop
      · exact ⟨norm_depends ht ht' hop hr, fun h3 => absurd (hop.symm.trans h3) (by decide)⟩
      · exact (fmt_depends ht ht' hop hbfw hr).imp_right fun hd _ => hd
    obtain ⟨⟨hw, hdigLen, hdigBuf, htxt, hstatus⟩, hradix⟩ := hout
    exact ⟨hw, hdigLen, hdigBuf, htxt, hstatus, hradix⟩
  case conv =>
    refine conv_depends ht ht' hop hw.wLen ?_
    rw [h.wBytes_eq, h'.wBytes_eq, hw.wBuf]
  case rend =>
    refine rend_depends ht ht' hop hbfw hdig.digLen hdig.digRadix ?_
    rw [h.digits_eq, h'.digits_eq, hdig.digBuf]

end Sys2Proof.Machine
end
